-- ==== Sys2Proof/Word.lean ====
section
/-! DEFINITION. The word types of HTB (00_scope.md R5) and the record of one node-arena entry (10_state.md R29). -/

namespace Sys2Proof

/-- A register or bus word (00_scope.md R5: BUS_W = 32; 10_state.md R15). -/
abbrev Word := BitVec 32

/-- A byte of LMEM (20_memory.md R53). -/
abbrev Byte := BitVec 8

/-- A symbol, 0 to 255 (00_scope.md R5: SYM_W = 8). -/
abbrev Symbol := BitVec 8

/-- A node index as the arena stores it (00_scope.md R5: IDX_W = 9). -/
abbrev NodeIdx := BitVec 9

/-- An offset from HTB_BASE inside the 128 KiB aperture (20_memory.md R46). -/
abbrev Offset := BitVec 17

/-- A code: the moves from the root, the first move first; `false` is the code symbol '0' (left edge) and `true`
is '1' (right edge) (00_scope.md R10). -/
abbrev Code := List Bool

/-- One entry of the node arena (10_state.md R29). A leaf's children are NIL and a branch's symbol is 0, as the
table of R29 says, so neither is stored (log 7). -/
inductive Node where
  | leaf (sym : Symbol) (freq : Word)
  | branch (freq : Word) (left right : NodeIdx)
deriving DecidableEq, Repr, Inhabited

end Sys2Proof
end

