-- ==== Sys2Proof/Config.lean ====
section
/-! DEFINITION. What the hardware fixes (00_scope.md R5), what the platform chooses, and the free values: opaque
constants with no body, one for each kind of value the spec leaves open (93_implementation_defined.md). -/

namespace Sys2Proof.Config

/-- The "no node" index (00_scope.md R5). -/
def nil : NodeIdx := 0x1FF

/-- NODE_MAX, the number of arena entries (00_scope.md R5). -/
def nodeMax : Nat := 511

/-- The largest frequency total BUILD accepts (40_tree_builder.md R79). -/
def freqMax : Nat := 0xFFFFFFFF

/-- The constant ID reads (10_state.md R18). -/
def idValue : Word := 0x48544231

/-- The reset value of MARKERS.LIT (10_state.md R26). -/
def litReset : Byte := 0x4C

/-- The reset value of MARKERS.BR (10_state.md R26). -/
def brReset : Byte := 0x42

/-- The byte of the code symbol '0' (42_compressor.md R94). -/
def zeroByte : Byte := 0x30

/-- The byte of the code symbol '1' (42_compressor.md R94). -/
def oneByte : Byte := 0x31

/-- log2(LMEM_SIZE) at its admitted values: LMEM_SIZE is a power of two from 256 to 65536 (00_scope.md R5). -/
abbrev LmemLog2 := { n : Nat // 8 ≤ n ∧ n ≤ 16 }

/-- The spec's own value of log2(LMEM_SIZE) (00_scope.md R5). DESIGN CHOICE (log 9): the state after reset takes it. -/
def lmemLog2Spec : LmemLog2 := ⟨16, by decide⟩

/-- The bytes of the aperture (20_memory.md R46). -/
def apertureSize : Nat := 0x20000

/-- FREE VALUE (U19): HTB_BASE in units of the aperture; the platform chooses it (20_memory.md R46, log 10). -/
opaque htbBaseIndex : Nat

/-- HTB_BASE, 128 KiB aligned (20_memory.md R46). -/
def htbBase : Nat := htbBaseIndex * apertureSize

/-- FREE VALUE: the word of draw number n: a Host read that returns any value (U4, U5) and PEND after reset (U3)
(log 6, log 8, log 15). -/
opaque freeWord : Nat → Word

/-- FREE VALUE: the byte that draw number n gives LMEM address a: the content of LMEM after hard reset (U1) and a
havocked window (U6, U7) (log 5, log 6). -/
opaque freeByte : Nat → Nat → Byte

/-- FREE VALUE: the content of an arena entry that no rule has written (U2, log 7). -/
opaque freeNode : Nat → Node

end Sys2Proof.Config
end

