-- ==== Sys2Proof/Syntax.lean ====
section
/-! DEFINITION. The commands: one constructor for each row of the opcode map (30_encoding.md R65). -/

namespace Sys2Proof

/-- A command (30_encoding.md R65). NODECMP's operands are node indices, used unscaled (R68); every other operand
of a command is read from a register when it runs (R69). -/
inductive Instr where
  | clrfreq
  | build
  | teardown
  | nodecmp (a b : Nat)
  | gencodes
  | encode
  | decode
  | serialize
  | deserialize
deriving DecidableEq, Repr

end Sys2Proof
end

