-- ==== Sys2Proof/WellFormed.lean ====
section
/-! DEFINITION. Which commands the format CW32 can hold. -/

namespace Sys2Proof

/-- The operands a command word can carry: A is 9 bits, bits [16:8], and B is 9 bits, bits [25:17]
(30_encoding.md R63, R68). Index 511 (NIL) can be encoded; NODECMP refuses it when it runs (R68). -/
abbrev Instr.WellFormed : Instr → Prop
  | .clrfreq => True
  | .build => True
  | .teardown => True
  | .nodecmp a b => a < 512 ∧ b < 512
  | .gencodes => True
  | .encode => True
  | .decode => True
  | .serialize => True
  | .deserialize => True

end Sys2Proof
end

