-- ==== Sys2Proof/Decode.lean ====
section
/-! DEFINITION. The decoder of command words (30_encoding.md R74), total on every word, and the encoder. -/

namespace Sys2Proof

/-- The rows of the opcode map (30_encoding.md R65). -/
inductive Mnemonic where
  | clrfreq | build | teardown | nodecmp | gencodes | encode | decode | serialize | deserialize
deriving DecidableEq, Repr

/-- One row of the opcode map: a word w selects it when (w AND mask) = pattern (30_encoding.md R65). -/
structure Row where
  mnemonic : Mnemonic
  pattern : Word
  mask : Word
deriving DecidableEq, Repr

/-- The opcode map, row by row (30_encoding.md R65). -/
def opcodeTable : List Row :=
  [ ⟨.clrfreq,     0x00000001, 0xFFFFFFFF⟩,
    ⟨.build,       0x00000002, 0xFFFFFFFF⟩,
    ⟨.teardown,    0x00000003, 0xFFFFFFFF⟩,
    ⟨.nodecmp,     0x00000004, 0xFC0000FF⟩,
    ⟨.gencodes,    0x00000010, 0xFFFFFFFF⟩,
    ⟨.encode,      0x00000020, 0xFFFFFFFF⟩,
    ⟨.decode,      0x00000021, 0xFFFFFFFF⟩,
    ⟨.serialize,   0x00000030, 0xFFFFFFFF⟩,
    ⟨.deserialize, 0x00000031, 0xFFFFFFFF⟩ ]

/-- The row selects the word (30_encoding.md R65). -/
def Row.selects (row : Row) (w : Word) : Bool := w &&& row.mask = row.pattern

/-- OPC, bits [7:0] (30_encoding.md R63). -/
def opcField (w : Word) : Byte := w.extractLsb' 0 8

/-- A, bits [16:8], as a node index (30_encoding.md R63, R68). -/
def aField (w : Word) : Nat := (w.extractLsb' 8 9).toNat

/-- B, bits [25:17], as a node index (30_encoding.md R63, R68). -/
def bField (w : Word) : Nat := (w.extractLsb' 17 9).toNat

/-- Why a word is illegal (30_encoding.md R67). -/
inductive Illegal where
  /-- OPC is one of the reserved values of R66. -/
  | reservedOpcode
  /-- OPC is assigned and a must-be-zero bit of R64 is 1. -/
  | mustBeZero
deriving DecidableEq, Repr

/-- The command of a row's mnemonic in the word (30_encoding.md R74). -/
def instrOf (w : Word) : Mnemonic → Instr
  | .clrfreq => .clrfreq
  | .build => .build
  | .teardown => .teardown
  | .nodecmp => .nodecmp (aField w) (bField w)
  | .gencodes => .gencodes
  | .encode => .encode
  | .decode => .decode
  | .serialize => .serialize
  | .deserialize => .deserialize

/-- The name of an illegal word: its opcode is no row's, or a must-be-zero bit is set (30_encoding.md R66, R67). -/
def illegalReason (w : Word) : Illegal :=
  if opcodeTable.any (fun row => row.pattern.extractLsb' 0 8 = opcField w) then .mustBeZero else .reservedOpcode

/-- decodeCmd of 30_encoding.md R74; a word that matches no row is illegal, with the reason by name. -/
def decodeCmd (w : Word) : Except Illegal Instr :=
  match opcodeTable.find? (fun row => row.selects w) with
  | some row => .ok (instrOf w row.mnemonic)
  | none => .error (illegalReason w)

/-- The command word of a command, from the patterns of 30_encoding.md R65 and the formula of R72. -/
def encode : Instr → Word
  | .clrfreq => 0x00000001
  | .build => 0x00000002
  | .teardown => 0x00000003
  | .nodecmp a b => 0x00000004 ||| (BitVec.ofNat 32 a <<< 8) ||| (BitVec.ofNat 32 b <<< 17)
  | .gencodes => 0x00000010
  | .encode => 0x00000020
  | .decode => 0x00000021
  | .serialize => 0x00000030
  | .deserialize => 0x00000031

/-- The word whose bits spec/opcode_table.json numbers as w: every command is one 32-bit word, and a register write
moves it whole, so no byte order enters (30_encoding.md R70; 20_memory.md R52). -/
def tableWord (nbits w : Nat) : Word := BitVec.ofNat 32 (w % 2 ^ nbits)

/-- What the decoder reads from an instruction of nbits bits numbered as spec/opcode_table.json numbers them; no
command is longer than 32 bits (30_encoding.md R70). -/
def decodeTableWord (nbits w : Nat) : Option Instr :=
  if nbits ≤ 32 then
    match decodeCmd (tableWord nbits w) with
    | .ok i => some i
    | .error _ => none
  else none

end Sys2Proof
end

