-- ==== Sys2Proof/Machine/State.lean ====
section
/-! DEFINITION. The state of HTB (10_state.md R14), the model's own fields beside it, the reasons a step can stop, and
the state right after hard reset (70_reset_and_hazards.md R136, R137). -/

namespace Sys2Proof.Machine

/-- The outcomes of a command (60_exceptions.md R115): one name for each CODE that is ever written. -/
inductive ErrCode where
  | ok | illegalCmd | fatal | emptyFreq | freqOvf | noTree | badNode | dupLeaf | noCodes | lookupMiss | bounds
  | overlap | dstFull | markerCfg | stackUnderflow | stackImbalance | badMarker | truncLiteral | arenaFull
  | singleLeaf | badBit | truncatedCode | missingChild
deriving DecidableEq, Repr

/-- The width of a Host access: the three widths that 20_memory.md R47 and R48 name. DESIGN CHOICE, unsafe (log 22): the
spec lists no widths that can occur, and a transaction of another width cannot be expressed. -/
inductive Width where
  | w8 | w16 | w32
deriving DecidableEq, Repr

/-- What the Host does next (00_scope.md R6; 30_encoding.md R73). Offsets are relative to HTB_BASE (log 10). -/
inductive HostOp where
  /-- One bus read; the Host records the data. -/
  | read (w : Width) (off : Offset)
  /-- One bus write; a narrow access uses the low bits of `val` (log 19). -/
  | write (w : Width) (off : Offset) (val : Word)
  /-- POLL: reads STATUS again and again until bit 0 (BUSY) reads 0 (30_encoding.md R73). -/
  | poll
deriving DecidableEq, Repr

/-- Who moves next (00_scope.md R6; 70_reset_and_hazards.md R135). DESIGN CHOICE (log 2): the interleaving is data. -/
inductive Turn where
  | host | engine | hardReset
deriving DecidableEq, Repr

/-- The state of HTB. The fields down to `pend` are the spec's (10_state.md R14); ID and CMD have no storage
(R18, R22; log 11) and STATUS.ERR and IRQ are views (R21, R37). The fields after `pend` are the model's own. -/
structure State where
  /-- PARAMS.LMEM_LOG2 (10_state.md R19); no step changes it (log 9). -/
  lmemLog2 : Config.LmemLog2
  /-- CTRL.IRQ_EN (10_state.md R20). -/
  irqEn : Bool
  /-- STATUS.BUSY (10_state.md R21). -/
  busy : Bool
  /-- STATUS.DONE (10_state.md R21). -/
  done : Bool
  /-- STATUS.FATAL (10_state.md R21; 60_exceptions.md R120). -/
  fatal : Bool
  /-- STATUS.WHB (10_state.md R21; 60_exceptions.md R128). -/
  whb : Bool
  /-- STATUS.TREE_VALID (10_state.md R24). -/
  treeValid : Bool
  /-- STATUS.TABLE_VALID (10_state.md R33). -/
  tableValid : Bool
  /-- ERRCODE, CODE and KIND (10_state.md R23). -/
  errcode : ErrCode
  /-- SRC (10_state.md R25). -/
  src : Word
  /-- SLEN (10_state.md R25). -/
  slen : Word
  /-- DST (10_state.md R25). -/
  dst : Word
  /-- DCAP (10_state.md R25). -/
  dcap : Word
  /-- RLEN (10_state.md R28). -/
  rlen : Word
  /-- RESULT bit 0 (10_state.md R28). -/
  result : Bool
  /-- MARKERS.LIT (10_state.md R26). -/
  lit : Byte
  /-- MARKERS.BR (10_state.md R26). -/
  br : Byte
  /-- ROOT (10_state.md R30). -/
  root : NodeIdx
  /-- NCOUNT (10_state.md R30). -/
  ncount : BitVec 10
  /-- NLEAVES (10_state.md R30). -/
  nleaves : BitVec 10
  /-- FREQ[0..255] (10_state.md R27). -/
  freq : Vector Word 256
  /-- NODE: the entries whose content is specified, entry i at position i (10_state.md R29, log 7). -/
  nodes : List Node
  /-- CT[0..255]: no code (valid = 0) or one code (10_state.md R32, log 12). -/
  ct : Vector (Option Code) 256
  /-- LMEM: the bytes that hold a specified value, addresses strictly rising (20_memory.md R53, log 5). -/
  lmem : List Host.Cell
  /-- PEND, the pending command word (10_state.md R34). -/
  pend : Word
  /-- The model's own: the Host's transactions still to come (log 3). -/
  host : List HostOp
  /-- The model's own: the data the Host has read, newest first (log 3). -/
  reads : List Word
  /-- The model's own: which agent moves next (log 2). -/
  turns : List Turn
  /-- The model's own: how many free values have been drawn (log 6). -/
  draws : Nat
  /-- The model's own: the draw that gave LMEM its unspecified bytes (log 5). -/
  lmemEpoch : Nat
deriving DecidableEq, Repr

/-- The reasons the machine stops. -/
inductive Fault where
  /-- Raised by a Host transaction that 20_memory.md R47, R48 or R49 refuses: a fault of the host program, never
  cleared (R50; log 4). Safe: the run ends and nothing is claimed of what follows. -/
  | busError
  /-- Raised by GENCODES and SERIALIZE when the entries reachable from ROOT form no tree (they go deeper than an arena
  of 511 entries can, or, for SERIALIZE, a child is absent): the traversals of 41_code_table.md R90 and
  43_tree_codec.md R102 then have no result. No state that meets 10_state.md R31 raises it (log 13). Safe. -/
  | arenaNotATree
deriving DecidableEq, Repr

/-- The reasons an instruction has no meaning. -/
inductive Refusal where
  /-- Raised by an arm of exec whose instruction has no meaning yet; no arm is left so. Safe. -/
  | notModelled (mnemonic : String)
deriving DecidableEq, Repr

/-- The state right after hard reset (70_reset_and_hazards.md R136, 10_state.md R38), LMEM_SIZE at the spec's value
(log 9), PEND the free word 0 (log 8), no Host transaction pending and nothing read (log 3). -/
def State.reset : State where
  lmemLog2 := Config.lmemLog2Spec
  irqEn := false
  busy := false
  done := false
  fatal := false
  whb := false
  treeValid := false
  tableValid := false
  errcode := .ok
  src := 0
  slen := 0
  dst := 0
  dcap := 0
  rlen := 0
  result := false
  lit := Config.litReset
  br := Config.brReset
  root := Config.nil
  ncount := 0
  nleaves := 0
  freq := Vector.replicate 256 0
  nodes := []
  ct := Vector.replicate 256 none
  lmem := []
  pend := Config.freeWord 0
  host := []
  reads := []
  turns := []
  draws := 1
  lmemEpoch := 0

end Sys2Proof.Machine
end

