-- ==== Sys2Proof/Machine/Ops.lean ====
section
/-! DEFINITION. The named operations over memory, the arena, the code table and the command handshake that the
meanings and the bus share. -/

namespace Sys2Proof.Machine

/-! ### Local memory as data -/

/-- The byte listed at an address, or none (log 5). -/
def Memory.get? : List Host.Cell → Nat → Option Byte
  | [], _ => none
  | (k, v) :: rest, a => if k = a then some v else Memory.get? rest a

/-- Consecutive cells from an address up. -/
def Memory.cells : Nat → List Byte → List Host.Cell
  | _, [] => []
  | a, v :: vs => (a, v) :: Memory.cells (a + 1) vs

/-- Stores consecutive bytes from address `a` up: MemWrite of 00_scope.md R9, one byte or many. -/
def Memory.writeBytes (m : List Host.Cell) (a : Nat) (vs : List Byte) : List Host.Cell :=
  m.filter (fun c => c.1 < a) ++ Memory.cells a vs ++ m.filter (fun c => a + vs.length ≤ c.1)

/-- The canonical form: addresses strictly rising and inside LMEM. An unlisted address has no value as data, so no
entry can equal it (log 5). -/
abbrev Memory.wf (size : Nat) (m : List Host.Cell) : Prop :=
  m.Pairwise (fun c d => c.1 < d.1) ∧ ∀ c ∈ m, c.1 < size

/-! ### Little-endian values (20_memory.md R52) -/

/-- The value of bytes, the byte at the lowest address least significant. -/
def leValue : List Byte → Nat
  | [] => 0
  | v :: vs => v.toNat + 256 * leValue vs

/-- The n low bytes of a value, the least significant first. -/
def leBytes : Nat → Nat → List Byte
  | 0, _ => []
  | n + 1, v => BitVec.ofNat 8 v :: leBytes n (v / 256)

/-! ### Local memory as the machine reads and writes it -/

/-- LMEM_SIZE (00_scope.md R5). -/
def State.lmemSize (s : State) : Nat := 2 ^ s.lmemLog2.1

/-- What an address that lists no byte reads as: the free byte of the draw that left it unspecified
(70_reset_and_hazards.md R137, log 5). -/
def State.unlistedByte (s : State) (a : Nat) : Byte := Config.freeByte s.lmemEpoch a

/-- MemRead(a, 1) (00_scope.md R9). -/
def State.readByte (s : State) (a : Nat) : Byte := (Memory.get? s.lmem a).getD (s.unlistedByte a)

/-- The n bytes from address a up, in ascending order. -/
def State.readBytes (s : State) (a : Nat) : Nat → List Byte
  | 0 => []
  | n + 1 => s.readByte a :: s.readBytes (a + 1) n

/-- MemRead(a, n): little-endian (00_scope.md R9; 20_memory.md R52). -/
def State.memRead (s : State) (a n : Nat) : Word := BitVec.ofNat 32 (leValue (s.readBytes a n))

/-- Stores bytes from address a up. -/
def State.writeBytes (s : State) (a : Nat) (vs : List Byte) : State :=
  { s with lmem := Memory.writeBytes s.lmem a vs }

/-- MemWrite(a, n, v): little-endian (00_scope.md R9; 20_memory.md R52). -/
def State.memWrite (s : State) (a n : Nat) (v : Word) : State := s.writeBytes a (leBytes n v.toNat)

/-- The n free bytes that draw number d gives the addresses from a up. -/
def freeBytes (d a : Nat) : Nat → List Byte
  | 0 => []
  | n + 1 => Config.freeByte d a :: freeBytes d (a + 1) n

/-- havoc(a, a + n): each byte of the range takes any value, by a fresh draw (00_scope.md R9, log 6). -/
def State.havoc (s : State) (a n : Nat) : State :=
  { s.writeBytes a (freeBytes s.draws a n) with draws := s.draws + 1 }

/-- havoc(DST, DST + DCAP): the destination window after a scan error (60_exceptions.md R119). -/
def State.havocDst (s : State) : State := s.havoc s.dst.toNat s.dcap.toNat

/-! ### The node arena (10_state.md R29) -/

/-- NODE[i] of an arena; an entry that no rule has written is a free value (log 7). -/
def arenaAt (nodes : List Node) (i : Nat) : Node := nodes.getD i (Config.freeNode i)

/-- NODE[i]. -/
def State.nodeAt (s : State) (i : Nat) : Node := arenaAt s.nodes i

/-- The tree of arena entries reachable from an index (00_scope.md R11): the traversal state of GENCODES and
SERIALIZE (10_state.md R35). `absent` stands where a child is NIL (41_code_table.md R90). -/
inductive Tree where
  | absent
  | leaf (sym : Symbol) (freq : Word)
  | branch (freq : Word) (left right : Tree)
deriving DecidableEq, Repr

/-- Unfolds the entries reachable from index i, at most `depth` levels; none where they go deeper (log 13). -/
def unfoldTree (nodes : List Node) : Nat → NodeIdx → Option Tree
  | 0, _ => none
  | depth + 1, i =>
    if i = Config.nil then some .absent
    else
      match arenaAt nodes i.toNat with
      | .leaf sym freq => some (.leaf sym freq)
      | .branch freq left right =>
        match unfoldTree nodes depth left, unfoldTree nodes depth right with
        | some l, some r => some (.branch freq l r)
        | _, _ => none

/-- The current tree, unfolded from ROOT (10_state.md R24). No tree of 511 entries is deeper than the bound. -/
def State.currentTree (s : State) : Option Tree := unfoldTree s.nodes (Config.nodeMax + 1) s.root

/-- Clears the code table: every CT[s].valid and TABLE_VALID (10_state.md R33). -/
def State.clearTable (s : State) : State :=
  { s with ct := Vector.replicate 256 none, tableValid := false }

/-- No current tree: TREE_VALID, ROOT, NCOUNT, NLEAVES as TEARDOWN leaves them, NODE unspecified, and the code table
cleared (40_tree_builder.md R84; 43_tree_codec.md R105). -/
def State.clearTree (s : State) : State :=
  { s.clearTable with treeValid := false, root := Config.nil, ncount := 0, nleaves := 0, nodes := [] }

/-- A new current tree replaces the old one: the root is the entry allocated last, and the code table is cleared
(40_tree_builder.md R81; 43_tree_codec.md R106). -/
def State.installTree (s : State) (nodes : List Node) (leaves : Nat) : State :=
  { s.clearTable with
    treeValid := true
    root := BitVec.ofNat 9 (nodes.length - 1)
    ncount := BitVec.ofNat 10 nodes.length
    nleaves := BitVec.ofNat 10 leaves
    nodes := nodes }

/-! ### The command handshake -/

/-- Acceptance of the command word w (60_exceptions.md R121). -/
def State.accept (s : State) (w : Word) : State :=
  { s with pend := w, busy := true, done := false, errcode := .ok, rlen := 0 }

/-- Completion in either outcome (60_exceptions.md R122). HTB has no traps: this is what every error takes. -/
def State.finish (s : State) (e : ErrCode) : State :=
  { s with errcode := e, busy := false, done := true }

/-- complete(): the Engine step ends in the Success outcome (00_scope.md R9). -/
def complete (s : State) : Host.Outcome State Fault Refusal := .next (s.finish .ok)

/-- raise Error(e): the Engine step ends in the Error outcome; the effects the rule lists are already in s
(00_scope.md R9). RLEN stays as the acceptance left it (log 16). -/
def raiseError (e : ErrCode) (s : State) : Host.Outcome State Fault Refusal := .next (s.finish e)

end Sys2Proof.Machine
end

