-- ==== Sys2Proof/Machine/Operands.lean ====
section
/-! DEFINITION. Every operand form of the commands: the LMEM windows that SRC, SLEN, DST and DCAP name (20_memory.md
R55, R56), the fields of an arena entry (10_state.md R29) and the marker pair (43_tree_codec.md R99). NODECMP's node
indices are immediates (30_encoding.md R68) and need no form of their own. -/

namespace Sys2Proof

/-! ### The fields of an arena entry (10_state.md R29) -/

/-- NODE[i].kind = 1: the entry is a branch (10_state.md R29). -/
def Node.isBranch : Node → Bool
  | .leaf _ _ => false
  | .branch _ _ _ => true

/-- NODE[i].sym; 0 for a branch (10_state.md R29). -/
def Node.sym : Node → Symbol
  | .leaf sym _ => sym
  | .branch _ _ _ => 0

/-- NODE[i].freq (10_state.md R29). -/
def Node.freq : Node → Word
  | .leaf _ freq => freq
  | .branch freq _ _ => freq

/-- NODE[i].left; NIL for a leaf (10_state.md R29). -/
def Node.left : Node → NodeIdx
  | .leaf _ _ => Config.nil
  | .branch _ left _ => left

/-- NODE[i].right; NIL for a leaf (10_state.md R29). -/
def Node.right : Node → NodeIdx
  | .leaf _ _ => Config.nil
  | .branch _ _ right => right

end Sys2Proof

namespace Sys2Proof.Machine

/-! ### Windows and markers -/

/-- src_ok: the source window lies in LMEM, computed without wrap-around (20_memory.md R55). -/
def State.srcOk (s : State) : Bool := s.src.toNat + s.slen.toNat ≤ s.lmemSize

/-- dst_ok: the destination window lies in LMEM, computed without wrap-around (20_memory.md R55). -/
def State.dstOk (s : State) : Bool := s.dst.toNat + s.dcap.toNat ≤ s.lmemSize

/-- The two windows overlap (20_memory.md R56). -/
def State.overlaps (s : State) : Bool :=
  s.slen.toNat ≠ 0 && s.dcap.toNat ≠ 0 && s.src.toNat < s.dst.toNat + s.dcap.toNat &&
    s.dst.toNat < s.src.toNat + s.slen.toNat

/-- The bytes of the source window in ascending address order (20_memory.md R54). No command writes its source
window, so reading it before the writes reads the same bytes (log 14). -/
def State.sourceBytes (s : State) : List Byte := s.readBytes s.src.toNat s.slen.toNat

/-- MARKERS.LIT = MARKERS.BR: the configuration SERIALIZE and DESERIALIZE refuse (43_tree_codec.md R100). -/
def State.markersClash (s : State) : Bool := s.lit = s.br

/-- A command's output is in place: the bytes at DST upwards and RLEN (42_compressor.md R96, 43_tree_codec.md R102,
44_decompressor.md R111). -/
def State.putOutput (s : State) (out : List Byte) : State :=
  { s.writeBytes s.dst.toNat out with rlen := BitVec.ofNat 32 out.length }

end Sys2Proof.Machine
end

