-- ==== Sys2Proof/Machine/Flags.lean ====
section
/-! DEFINITION. The flags and status words: ERRCODE's codes and kinds (60_exceptions.md R115, R116), the STATUS, CTRL,
MARKERS and PARAMS words (10_state.md R19 to R26), the code-table and arena words (R29, R32) and IRQ (R37). -/

namespace Sys2Proof

/-- The INFO word of an arena entry: kind [0], sym [15:8] (10_state.md R29). -/
def Node.infoWord (n : Node) : Word := BitVec.ofNat 32 (n.isBranch.toNat + 256 * n.sym.toNat)

/-- The four words of an arena entry in offset order: INFO, FREQ, LEFT, RIGHT (10_state.md R29). -/
def Node.word (n : Node) (k : Nat) : Word :=
  match k with
  | 0 => n.infoWord
  | 1 => n.freq
  | 2 => n.left.setWidth 32
  | _ => n.right.setWidth 32

end Sys2Proof

namespace Sys2Proof.Machine

/-- One bit as a word, at a bit position. -/
def bitAt (b : Bool) (pos : Nat) : Word := if b then BitVec.ofNat 32 (2 ^ pos) else 0

/-- ERRCODE.CODE (60_exceptions.md R115). -/
def ErrCode.code : ErrCode → Byte
  | .ok => 0x00
  | .illegalCmd => 0x01
  | .fatal => 0x02
  | .emptyFreq => 0x03
  | .freqOvf => 0x04
  | .noTree => 0x05
  | .badNode => 0x06
  | .dupLeaf => 0x07
  | .noCodes => 0x08
  | .lookupMiss => 0x09
  | .bounds => 0x0A
  | .overlap => 0x0B
  | .dstFull => 0x0C
  | .markerCfg => 0x0D
  | .stackUnderflow => 0x0E
  | .stackImbalance => 0x0F
  | .badMarker => 0x10
  | .truncLiteral => 0x11
  | .arenaFull => 0x12
  | .singleLeaf => 0x13
  | .badBit => 0x14
  | .truncatedCode => 0x15
  | .missingChild => 0x16

/-- ERRCODE.KIND: 0 none, 1 precondition violation, 2 malformed input, 3 lookup-miss (60_exceptions.md R115, R116). -/
def ErrCode.kind : ErrCode → BitVec 2
  | .ok => 0
  | .illegalCmd => 1
  | .fatal => 3
  | .emptyFreq => 1
  | .freqOvf => 1
  | .noTree => 1
  | .badNode => 1
  | .dupLeaf => 2
  | .noCodes => 1
  | .lookupMiss => 3
  | .bounds => 1
  | .overlap => 1
  | .dstFull => 1
  | .markerCfg => 1
  | .stackUnderflow => 2
  | .stackImbalance => 2
  | .badMarker => 2
  | .truncLiteral => 2
  | .arenaFull => 1
  | .singleLeaf => 2
  | .badBit => 2
  | .truncatedCode => 2
  | .missingChild => 2

/-- The ERRCODE word: CODE [7:0], KIND [9:8] (10_state.md R23). -/
def ErrCode.word (e : ErrCode) : Word := BitVec.ofNat 32 (e.code.toNat + 256 * e.kind.toNat)

/-- STATUS.ERR, a view of ERRCODE (10_state.md R21). -/
def State.err (s : State) : Bool := s.errcode.code ≠ 0

/-- The STATUS word (10_state.md R21). -/
def State.statusWord (s : State) : Word :=
  bitAt s.busy 0 ||| bitAt s.done 1 ||| bitAt s.err 2 ||| bitAt s.fatal 3 ||| bitAt s.whb 4 |||
    bitAt s.treeValid 8 ||| bitAt s.tableValid 9

/-- The CTRL word: SRST always reads 0 (10_state.md R20). -/
def State.ctrlWord (s : State) : Word := bitAt s.irqEn 0

/-- The PARAMS word (10_state.md R19). -/
def State.paramsWord (s : State) : Word := BitVec.ofNat 32 s.lmemLog2.1

/-- The MARKERS word: LIT [7:0], BR [15:8] (10_state.md R26). -/
def State.markersWord (s : State) : Word := BitVec.ofNat 32 (s.lit.toNat + 256 * s.br.toNat)

/-- The interrupt output (10_state.md R37; 60_exceptions.md R123). -/
def State.irq (s : State) : Bool := s.done && s.irqEn

/-- The bits of a code as a number, c[i] at bit i (10_state.md R32). -/
def codeBits : Code → Nat
  | [] => 0
  | b :: bs => b.toNat + 2 * codeBits bs

/-- CTINFO: len [7:0], valid [31]; 0 when there is no code (10_state.md R32). -/
def ctInfoWord : Option Code → Word
  | none => 0
  | some code => BitVec.ofNat 32 (code.length % 256 + 2 ^ 31)

/-- BITS_w = bits[32*w+31 : 32*w]; 0 when there is no code (10_state.md R32). -/
def ctBitsWord : Option Code → Nat → Word
  | none, _ => 0
  | some code, w => BitVec.ofNat 32 (codeBits code / 2 ^ (32 * w))

/-- The words of a code-table entry in offset order: CTINFO, then BITS_0 to BITS_7 (10_state.md R32). -/
def ctWord (entry : Option Code) (k : Nat) : Word :=
  match k with
  | 0 => ctInfoWord entry
  | w + 1 => ctBitsWord entry w

end Sys2Proof.Machine
end

