-- ==== Sys2Proof/Machine/Reset.lean ====
section
/-! DEFINITION. The two resets (70_reset_and_hazards.md R135 to R139). -/

namespace Sys2Proof.Machine

/-- Every register, FREQ and CT at its reset value, no tree, and PEND and NODE unspecified; LMEM, LMEM_SIZE and the
model's own fields stay (70_reset_and_hazards.md R136, R138; log 8). -/
def State.resetRegisters (s : State) : State :=
  { State.reset with
    lmemLog2 := s.lmemLog2
    lmem := s.lmem
    lmemEpoch := s.lmemEpoch
    pend := Config.freeWord s.draws
    host := s.host
    reads := s.reads
    turns := s.turns
    draws := s.draws + 1 }

/-- The pending word is a command with a destination window (70_reset_and_hazards.md R138). -/
def abandonsWindow (w : Word) : Bool :=
  match decodeCmd w with
  | .ok .encode => true
  | .ok .decode => true
  | .ok .serialize => true
  | .ok .clrfreq => false
  | .ok .build => false
  | .ok .teardown => false
  | .ok (.nodecmp _ _) => false
  | .ok .gencodes => false
  | .ok .deserialize => false
  | .error _ => false

/-- Soft reset: an abandoned command's destination window is havocked if dst_ok held; then every register is reset and
LMEM keeps its other bytes (70_reset_and_hazards.md R138, log 21). -/
def State.softReset (s : State) : State :=
  if s.busy && abandonsWindow s.pend && s.dstOk then s.havocDst.resetRegisters else s.resetRegisters

/-- Hard reset: the registers are reset and every LMEM byte is unspecified, by a fresh draw
(70_reset_and_hazards.md R136, R137; log 5, log 18). -/
def State.hardReset (s : State) : State :=
  { s.resetRegisters with lmem := [], lmemEpoch := s.draws + 1, draws := s.draws + 2 }

end Sys2Proof.Machine
end

