-- ==== Sys2Proof/Machine/Bus.lean ====
section
/-! DEFINITION. The Host port: the address map, the accesses it refuses, reads and writes (20_memory.md R46 to R52,
10_state.md R16 to R32, 60_exceptions.md R128, 70_reset_and_hazards.md R142). -/

namespace Sys2Proof.Machine

/-- The 16 control and status registers in offset order (10_state.md R38). -/
inductive Reg where
  | id | params | ctrl | status | cmd | errcode | src | slen | dst | dcap | rlen | result | markers | root
  | ncount | nleaves
deriving DecidableEq, Repr

/-- The register at word index k of the register window (10_state.md R38). -/
def Reg.ofIndex : Nat → Reg
  | 0 => .id
  | 1 => .params
  | 2 => .ctrl
  | 3 => .status
  | 4 => .cmd
  | 5 => .errcode
  | 6 => .src
  | 7 => .slen
  | 8 => .dst
  | 9 => .dcap
  | 10 => .rlen
  | 11 => .result
  | 12 => .markers
  | 13 => .root
  | 14 => .ncount
  | _ => .nleaves

/-- What a permitted access reaches (20_memory.md R46). -/
inductive Target where
  | reg (r : Reg)
  | freq (sym : Symbol)
  /-- Word k of NODE[i]. -/
  | node (i k : Nat)
  /-- Word k of CT[sym]. -/
  | ct (sym : Symbol) (k : Nat)
  /-- LMEM from byte address a. -/
  | lmem (a : Nat)
deriving DecidableEq, Repr

/-- The bytes an access moves. -/
def Width.bytes : Width → Nat
  | .w8 => 1
  | .w16 => 2
  | .w32 => 4

/-- A word window takes 32-bit accesses at multiples of 4 only (20_memory.md R47). -/
def wordAccess (w : Width) (o : Nat) : Bool := w = .w32 && o % 4 = 0

/-- The address map (20_memory.md R46): what an access reaches, or none where R47, R48 or R49 refuses it. -/
def classify (size : Nat) (w : Width) (off : Offset) : Option Target :=
  let o := off.toNat
  if o < 0x40 then
    if wordAccess w o then some (.reg (Reg.ofIndex (o / 4))) else none
  else if o < 0x400 then none
  else if o < 0x800 then
    if wordAccess w o then some (.freq (BitVec.ofNat 8 ((o - 0x400) / 4))) else none
  else if o < 0x2000 then none
  else if o < 0x3FF0 then
    if wordAccess w o then some (.node ((o - 0x2000) / 16) (o % 16 / 4)) else none
  else if o < 0x4000 then none
  else if o < 0x8000 then
    if wordAccess w o && o % 64 < 0x24 then some (.ct (BitVec.ofNat 8 ((o - 0x4000) / 64)) (o % 64 / 4)) else none
  else if o < 0x10000 then none
  else if o < 0x10000 + size then
    if o % w.bytes = 0 then some (.lmem (o - 0x10000)) else none
  else none

/-- The offset of a platform address, if it lies in the aperture at HTB_BASE (20_memory.md R46, log 10). -/
def offsetOf (addr : Nat) : Option Offset :=
  if Config.htbBase ≤ addr ∧ addr < Config.htbBase + Config.apertureSize then
    some (BitVec.ofNat 17 (addr - Config.htbBase))
  else none

/-! ### Reads -/

/-- The value a register reads as (10_state.md R18 to R30). -/
def State.regWord (s : State) : Reg → Word
  | .id => Config.idValue
  | .params => s.paramsWord
  | .ctrl => s.ctrlWord
  | .status => s.statusWord
  | .cmd => 0
  | .errcode => s.errcode.word
  | .src => s.src
  | .slen => s.slen
  | .dst => s.dst
  | .dcap => s.dcap
  | .rlen => s.rlen
  | .result => bitAt s.result 0
  | .markers => s.markersWord
  | .root => s.root.setWidth 32
  | .ncount => s.ncount.setWidth 32
  | .nleaves => s.nleaves.setWidth 32

/-- How many low bits of a register are a draw while BUSY = 1: the bits its rule names, of the registers whose reads
are draws (70_reset_and_hazards.md R142; 10_state.md R28, R30), and none of the other registers. -/
def Reg.drawnBits : Reg → Nat
  | .rlen => 32
  | .result => 1
  | .root => 9
  | .ncount => 10
  | .nleaves => 10
  | .id => 0
  | .params => 0
  | .ctrl => 0
  | .status => 0
  | .cmd => 0
  | .errcode => 0
  | .src => 0
  | .slen => 0
  | .dst => 0
  | .dcap => 0
  | .markers => 0

/-- The registers whose reads are draws while BUSY = 1 (70_reset_and_hazards.md R142). -/
def Reg.drawnWhileBusy (r : Reg) : Bool := r.drawnBits ≠ 0

/-- The data of a permitted read; none where the spec says any value: results while BUSY = 1
(70_reset_and_hazards.md R142) and arena entries that hold no current tree (10_state.md R29). -/
def State.readTarget (s : State) (w : Width) : Target → Option Word
  | .reg r => if s.busy && r.drawnWhileBusy then none else some (s.regWord r)
  | .freq sym => if s.busy then none else some (s.freq[sym.toNat]'sym.isLt)
  | .node i k =>
    if s.busy || s.treeValid = false || s.ncount.toNat ≤ i then none else some ((s.nodeAt i).word k)
  | .ct sym k => if s.busy then none else some (ctWord (s.ct[sym.toNat]'sym.isLt) k)
  | .lmem a => if s.busy then none else some (s.memRead a w.bytes)

/-- How many low bits of a read are a draw where the spec says any value. A register's reserved bits are none of them
(10_state.md R16; 93_implementation_defined.md U10); NODE and CT words are drawn whole (log 15). -/
def Target.drawnBits (w : Width) : Target → Nat
  | .reg r => r.drawnBits
  | .freq _ => 32
  | .node _ _ => 32
  | .ct _ _ => 32
  | .lmem _ => 8 * w.bytes

/-- Any value of the bits that are a draw, every other bit 0, by a fresh draw (93_implementation_defined.md U4, U5,
U10). -/
def State.drawnWord (s : State) (w : Width) (t : Target) : Word :=
  BitVec.ofNat 32 ((Config.freeWord s.draws).toNat % 2 ^ t.drawnBits w)

/-- A permitted read: the Host records the data, and nothing else of the block changes (20_memory.md R53, log 3). -/
def State.hostRead (s : State) (w : Width) (t : Target) : State :=
  match s.readTarget w t with
  | some v => { s with reads := v :: s.reads }
  | none => { s with reads := s.drawnWord w t :: s.reads, draws := s.draws + 1 }

/-! ### Writes -/

/-- A write while BUSY = 1 is dropped and sets WHB (60_exceptions.md R128). -/
def State.droppedWrite (s : State) : State := { s with whb := true }

/-- A write of CTRL: SRST performs the soft reset and the write's other bits are ignored; else IRQ_EN takes bit 0
(10_state.md R20; 70_reset_and_hazards.md R138). -/
def State.writeCtrl (s : State) (v : Word) : State :=
  if v.getLsbD 1 then s.softReset else { s with irqEn := v.getLsbD 0 }

/-- A write of STATUS: a 1 clears DONE (bit 1) and WHB (bit 4) (10_state.md R16, R21). -/
def State.writeStatus (s : State) (v : Word) : State :=
  { s with done := s.done && !v.getLsbD 1, whb := s.whb && !v.getLsbD 4 }

/-- A write that the block takes only while idle (60_exceptions.md R128). -/
def State.whenIdle (s : State) (written : State) : State := if s.busy then s.droppedWrite else written

/-- A permitted write of a register (10_state.md R16 to R30). A write of an RO register is ignored (20_memory.md R51). -/
def State.writeReg (s : State) (v : Word) : Reg → State
  | .ctrl => s.writeCtrl v
  | .status => s.writeStatus v
  | .cmd => s.whenIdle (s.accept v)
  | .src => s.whenIdle { s with src := v }
  | .slen => s.whenIdle { s with slen := v }
  | .dst => s.whenIdle { s with dst := v }
  | .dcap => s.whenIdle { s with dcap := v }
  | .markers => s.whenIdle { s with lit := v.extractLsb' 0 8, br := v.extractLsb' 8 8 }
  | .id => s
  | .params => s
  | .errcode => s
  | .rlen => s
  | .result => s
  | .root => s
  | .ncount => s
  | .nleaves => s

/-- A permitted write. Writes to NODE and CT are ignored (20_memory.md R51). -/
def State.hostWrite (s : State) (w : Width) (v : Word) : Target → State
  | .reg r => s.writeReg v r
  | .freq sym => s.whenIdle { s with freq := s.freq.set sym.toNat v sym.isLt }
  | .node _ _ => s
  | .ct _ _ => s
  | .lmem a => s.whenIdle (s.memWrite a w.bytes v)

/-! ### The Host's turn -/

/-- One bus transaction (00_scope.md R6, R7): completed, or a bus error (20_memory.md R50). With no transaction left
the Host does nothing. POLL reads STATUS and stays until BUSY reads 0 (30_encoding.md R73). -/
def hostTurn (s : State) : Host.Outcome State Fault Refusal :=
  match s.host with
  | [] => .next s
  | .poll :: rest =>
    .next { s with reads := s.statusWord :: s.reads, host := if s.busy then s.host else rest }
  | .read w off :: rest =>
    match classify s.lmemSize w off with
    | none => .fault .busError
    | some t => .next ({ s with host := rest }.hostRead w t)
  | .write w off v :: rest =>
    match classify s.lmemSize w off with
    | none => .fault .busError
    | some t => .next ({ s with host := rest }.hostWrite w v t)

end Sys2Proof.Machine
end

