-- ==== Sys2Proof/Machine/CodeTable.lean ====
section
/-! DEFINITION. The code table generator: GENCODES (41_code_table.md). -/

namespace Sys2Proof.Machine

/-- GENCODES's working table and its dup flag (41_code_table.md R90). -/
abbrev WorkTable := Vector (Option Code) 256 × Bool

/-- Records a leaf's path as its symbol's code, or notes a second leaf with that symbol (41_code_table.md R90). -/
def recordCode (sym : Symbol) (path : Code) (w : WorkTable) : WorkTable :=
  match w.1[sym.toNat]'sym.isLt with
  | none => (w.1.set sym.toNat (some path) sym.isLt, w.2)
  | some _ => (w.1, true)

/-- visit of 41_code_table.md R90: pre-order, left before right, the path as it stands; an absent child ends it. -/
def visitTree : Tree → Code → WorkTable → WorkTable
  | .absent, _, w => w
  | .leaf sym _, path, w => recordCode sym path w
  | .branch _ l r, path, w => visitTree r (path ++ [true]) (visitTree l (path ++ [false]) w)

/-- The table and the dup flag of a tree (41_code_table.md R90). -/
def tableOf (t : Tree) : WorkTable := visitTree t [] (Vector.replicate 256 none, false)

/-- GENCODES (41_code_table.md R90, R92). -/
def execGencodes (s : State) : Host.Outcome State Fault Refusal :=
  if s.treeValid = false then raiseError .noTree s
  else
    match s.currentTree with
    | none => .fault .arenaNotATree
    | some t =>
      match tableOf t with
      | (_, true) => raiseError .dupLeaf s.clearTable
      | (table, false) => complete { s with ct := table, tableValid := true }

end Sys2Proof.Machine
end

