-- ==== Sys2Proof/Machine/Compressor.lean ====
section
/-! DEFINITION. The compressor: ENCODE (42_compressor.md). -/

namespace Sys2Proof.Machine

/-- The byte of a code symbol (42_compressor.md R94). -/
def codeByte (b : Bool) : Byte := if b then Config.oneByte else Config.zeroByte

/-- CT[s], none when CT[s].valid = 0 (10_state.md R32). -/
def codeOf (ct : Vector (Option Code) 256) (sym : Symbol) : Option Code := ct[sym.toNat]'sym.isLt

/-- ENCODE's scan of 42_compressor.md R96 with `room` bytes left before DCAP: the bytes it writes, or the first error
it meets. A code that does not fit meets j = DCAP at one of its own symbols. -/
def encodeStream (ct : Vector (Option Code) 256) : Nat → List Byte → Except ErrCode (List Byte)
  | _, [] => .ok []
  | room, sym :: rest =>
    match codeOf ct sym with
    | none => .error .lookupMiss
    | some code =>
      if room < code.length then .error .dstFull
      else
        match encodeStream ct (room - code.length) rest with
        | .ok out => .ok (code.map codeByte ++ out)
        | .error e => .error e

/-- A scan error of ENCODE: the destination window is havocked, and a lookup miss sets FATAL (42_compressor.md R96,
R97). -/
def encodeFailed (e : ErrCode) (s : State) : Host.Outcome State Fault Refusal :=
  raiseError e { s.havocDst with fatal := s.fatal || e = .lookupMiss }

/-- ENCODE (42_compressor.md R95, R96). -/
def execEncode (s : State) : Host.Outcome State Fault Refusal :=
  if s.tableValid = false then raiseError .noCodes s
  else if s.srcOk = false ∨ s.dstOk = false then raiseError .bounds s
  else if s.overlaps then raiseError .overlap s
  else
    match encodeStream s.ct s.dcap.toNat s.sourceBytes with
    | .ok out => complete (s.putOutput out)
    | .error e => encodeFailed e s

end Sys2Proof.Machine
end

