-- ==== Sys2Proof/Machine/Decompressor.lean ====
section
/-! DEFINITION. The decompressor: DECODE (44_decompressor.md). -/

namespace Sys2Proof.Machine

/-- The move a source byte makes from the cursor: left on '0', right on '1', none for any other byte
(44_decompressor.md R111). -/
def moveOn (n : Node) (b : Byte) : Option NodeIdx :=
  if b = Config.zeroByte then some n.left
  else if b = Config.oneByte then some n.right
  else none

/-- DECODE's walk of 44_decompressor.md R111 from the cursor `cur`, with `room` bytes left before DCAP: the symbols it
writes, or the first error it meets. -/
def decodeStream (nodes : List Node) (root : NodeIdx) : NodeIdx → Nat → List Byte → Except ErrCode (List Byte)
  | cur, _, [] => if cur = root then .ok [] else .error .truncatedCode
  | cur, room, b :: rest =>
    match moveOn (arenaAt nodes cur.toNat) b with
    | none => .error .badBit
    | some nxt =>
      if nxt = Config.nil then .error .missingChild
      else
        match arenaAt nodes nxt.toNat with
        | .branch _ _ _ => decodeStream nodes root nxt room rest
        | .leaf sym _ =>
          match room with
          | 0 => .error .dstFull
          | room' + 1 =>
            match decodeStream nodes root root room' rest with
            | .ok out => .ok (sym :: out)
            | .error e => .error e

/-- DECODE (44_decompressor.md R110, R111). -/
def execDecode (s : State) : Host.Outcome State Fault Refusal :=
  if s.treeValid = false then raiseError .noTree s
  else if (s.nodeAt s.root.toNat).isBranch = false then raiseError .singleLeaf s
  else if s.srcOk = false ∨ s.dstOk = false then raiseError .bounds s
  else if s.overlaps then raiseError .overlap s
  else
    match decodeStream s.nodes s.root s.root s.dcap.toNat s.sourceBytes with
    | .ok out => complete (s.putOutput out)
    | .error e => raiseError e s.havocDst

end Sys2Proof.Machine
end

