-- ==== Sys2Proof/Machine/TreeBuilder.lean ====
section
/-! DEFINITION. The tree builder with its priority selector: CLRFREQ, BUILD, TEARDOWN, NODECMP (40_tree_builder.md). -/

namespace Sys2Proof.Machine

/-! ### The priority selector (40_tree_builder.md R75, R76) -/

/-- key(i) of the priority order: freq, kind, a leaf's symbol or 0, the index (40_tree_builder.md R75). -/
def nodeKey (nodes : List Node) (i : Nat) : List Nat :=
  let n := arenaAt nodes i
  [n.freq.toNat, n.isBranch.toNat, n.sym.toNat, i]

/-- Lexicographic order on keys, each component an unsigned integer (40_tree_builder.md R75). -/
def keyLt : List Nat → List Nat → Bool
  | x :: xs, y :: ys => x < y || (x = y && keyLt xs ys)
  | _, _ => false

/-- Index i precedes index j (40_tree_builder.md R75). -/
def precedes (nodes : List Node) (i j : Nat) : Bool := keyLt (nodeKey nodes i) (nodeKey nodes j)

/-- peekMin(Q): the element of Q that precedes every other (40_tree_builder.md R76). -/
def peekMin (nodes : List Node) : List Nat → Option Nat
  | [] => none
  | i :: rest =>
    match peekMin nodes rest with
    | none => some i
    | some m => if precedes nodes i m then some i else some m

/-- removeMin(Q): the least element and the rest of Q (40_tree_builder.md R76). -/
def removeMin (nodes : List Node) (q : List Nat) : Option (Nat × List Nat) :=
  match peekMin nodes q with
  | none => none
  | some m => some (m, q.erase m)

/-! ### CLRFREQ -/

/-- CLRFREQ (40_tree_builder.md R77). -/
def execClrfreq (s : State) : Host.Outcome State Fault Refusal :=
  complete { s with freq := Vector.replicate 256 0 }

/-! ### BUILD -/

/-- The present symbols with their frequencies, in ascending symbol order, from symbol k up (10_state.md R27). -/
def presentFrom : Nat → List Word → List (Symbol × Word)
  | _, [] => []
  | k, f :: fs => if f = 0 then presentFrom (k + 1) fs else (BitVec.ofNat 8 k, f) :: presentFrom (k + 1) fs

/-- The frequency mapping BUILD reads (40_tree_builder.md R78). -/
def State.present (s : State) : List (Symbol × Word) := presentFrom 0 s.freq.toList

/-- The exact sum of the frequencies; absent symbols add 0 (40_tree_builder.md R79). -/
def freqTotal : List (Symbol × Word) → Nat
  | [] => 0
  | (_, f) :: rest => f.toNat + freqTotal rest

/-- One leaf a present symbol: the seeding of 40_tree_builder.md R80. -/
def seedLeaves (present : List (Symbol × Word)) : List Node := present.map (fun p => Node.leaf p.1 p.2)

/-- The branch over a, extracted first, and b, extracted second (40_tree_builder.md R80). -/
def mergeNode (nodes : List Node) (a b : Nat) : Node :=
  .branch ((arenaAt nodes a).freq + (arenaAt nodes b).freq) (BitVec.ofNat 9 a) (BitVec.ofNat 9 b)

/-- The merging loop while more than one root is in Q, at most `fuel` rounds; each round makes Q one shorter, so the
length of Q is enough (40_tree_builder.md R80). -/
def mergeRoots : Nat → List Node → List Nat → List Node
  | 0, nodes, _ => nodes
  | fuel + 1, nodes, q =>
    match removeMin nodes q with
    | none => nodes
    | some (a, q1) =>
      match removeMin nodes q1 with
      | none => nodes
      | some (b, q2) => mergeRoots fuel (nodes ++ [mergeNode nodes a b]) (nodes.length :: q2)

/-- The arena BUILD makes of a frequency mapping (40_tree_builder.md R80). -/
def buildArena (present : List (Symbol × Word)) : List Node :=
  mergeRoots present.length (seedLeaves present) (List.range present.length)

/-- BUILD (40_tree_builder.md R78 to R82). -/
def execBuild (s : State) : Host.Outcome State Fault Refusal :=
  if s.present = [] then raiseError .emptyFreq s
  else if freqTotal s.present > Config.freqMax then raiseError .freqOvf s
  else complete (s.installTree (buildArena s.present) s.present.length)

/-! ### TEARDOWN -/

/-- TEARDOWN (40_tree_builder.md R84). -/
def execTeardown (s : State) : Host.Outcome State Fault Refusal := complete s.clearTree

/-! ### NODECMP -/

/-- NODECMP a, b (40_tree_builder.md R85). -/
def execNodecmp (a b : Nat) (s : State) : Host.Outcome State Fault Refusal :=
  if s.treeValid = false then raiseError .noTree { s with result := false }
  else if s.ncount.toNat ≤ a ∨ s.ncount.toNat ≤ b then raiseError .badNode { s with result := false }
  else complete { s with result := precedes s.nodes a b }

end Sys2Proof.Machine
end

