-- ==== Sys2Proof/Machine/TreeCodec.lean ====
section
/-! DEFINITION. The tree codec: SERIALIZE and DESERIALIZE (43_tree_codec.md). -/

namespace Sys2Proof.Machine

/-! ### SERIALIZE -/

/-- ser of 43_tree_codec.md R102: post-order, left, right, then the branch marker; a leaf is its marker and its
symbol. None where a child is absent, which no current tree has (log 13). -/
def serializeTree (lit br : Byte) : Tree → Option (List Byte)
  | .absent => none
  | .leaf sym _ => some [lit, sym]
  | .branch _ l r =>
    match serializeTree lit br l, serializeTree lit br r with
    | some x, some y => some (x ++ y ++ [br])
    | _, _ => none

/-- The string SERIALIZE writes for the current tree. -/
def State.serialized (s : State) : Option (List Byte) :=
  match s.currentTree with
  | none => none
  | some t => serializeTree s.lit s.br t

/-- SERIALIZE (43_tree_codec.md R101, R102). -/
def execSerialize (s : State) : Host.Outcome State Fault Refusal :=
  if s.treeValid = false then raiseError .noTree s
  else if s.markersClash then raiseError .markerCfg s
  else if s.dstOk = false then raiseError .bounds s
  else
    match s.serialized with
    | none => .fault .arenaNotATree
    | some out =>
      if s.dcap.toNat < out.length then raiseError .dstFull s.havocDst
      else complete (s.putOutput out)

/-! ### DESERIALIZE -/

/-- The scan's arena, its leaf count L and its stack S, top first (43_tree_codec.md R105). -/
structure ScanState where
  nodes : List Node
  leaves : Nat
  stack : List Nat
deriving DecidableEq, Repr

/-- A new leaf of frequency 0 is allocated and pushed (43_tree_codec.md R105). -/
def ScanState.pushLeaf (c : ScanState) (sym : Symbol) : ScanState where
  nodes := c.nodes ++ [.leaf sym 0]
  leaves := c.leaves + 1
  stack := c.nodes.length :: c.stack

/-- A new branch over the two popped nodes is allocated and pushed on what is left of the stack; its frequency is the
sum of theirs (43_tree_codec.md R105). -/
def ScanState.pushBranch (c : ScanState) (lf rt : Nat) (rest : List Nat) : ScanState where
  nodes := c.nodes ++ [.branch ((arenaAt c.nodes lf).freq + (arenaAt c.nodes rt).freq)
    (BitVec.ofNat 9 lf) (BitVec.ofNat 9 rt)]
  leaves := c.leaves
  stack := c.nodes.length :: rest

/-- The left-to-right scan of 43_tree_codec.md R105: what it has built at the end of the string, or the first error. -/
def scanTopology (lit br : Byte) : List Byte → ScanState → Except ErrCode ScanState
  | [], c => .ok c
  | m :: rest, c =>
    if m = lit then
      match rest with
      | [] => .error .truncLiteral
      | v :: rest' =>
        if c.nodes.length = Config.nodeMax then .error .arenaFull else scanTopology lit br rest' (c.pushLeaf v)
    else if m = br then
      match c.stack with
      | rt :: lf :: stack' =>
        if c.nodes.length = Config.nodeMax then .error .arenaFull
        else scanTopology lit br rest (c.pushBranch lf rt stack')
      | _ => .error .stackUnderflow
    else .error .badMarker

/-- DESERIALIZE's whole scan: exactly one node must be left on the stack (43_tree_codec.md R105). -/
def deserializeBytes (lit br : Byte) (bytes : List Byte) : Except ErrCode ScanState :=
  match scanTopology lit br bytes ⟨[], 0, []⟩ with
  | .error e => .error e
  | .ok c => if c.stack.length = 1 then .ok c else .error .stackImbalance

/-- DESERIALIZE (43_tree_codec.md R104 to R107). -/
def execDeserialize (s : State) : Host.Outcome State Fault Refusal :=
  if s.markersClash then raiseError .markerCfg s
  else if s.srcOk = false then raiseError .bounds s
  else
    match deserializeBytes s.lit s.br s.sourceBytes with
    | .error e => raiseError e s.clearTree
    | .ok c => complete (s.installTree c.nodes c.leaves)

end Sys2Proof.Machine
end

