-- ==== Sys2Proof/Machine/Dispatch.lean ====
section
/-! DEFINITION. The dispatch: one arm for each command of the opcode map (60_exceptions.md R117, "perform cmd by its
rule"). -/

namespace Sys2Proof.Machine

def exec (i : Instr) (s : State) : Host.Outcome State Fault Refusal :=
  match i with
  | .clrfreq => Sys2Proof.Machine.execClrfreq s
  | .build => Sys2Proof.Machine.execBuild s
  | .teardown => Sys2Proof.Machine.execTeardown s
  | .nodecmp a b => Sys2Proof.Machine.execNodecmp a b s
  | .gencodes => Sys2Proof.Machine.execGencodes s
  | .encode => Sys2Proof.Machine.execEncode s
  | .decode => Sys2Proof.Machine.execDecode s
  | .serialize => Sys2Proof.Machine.execSerialize s
  | .deserialize => Sys2Proof.Machine.execDeserialize s

end Sys2Proof.Machine
end

