-- ==== Sys2Proof/Machine/Engine.lean ====
section
/-! DEFINITION. The Engine's step: the common checks, then the pending command (60_exceptions.md R117). -/

namespace Sys2Proof.Machine

/-- One Engine step (60_exceptions.md R117): FATAL first, then legality, then the command in PEND. -/
def engineStep (s : State) : Host.Outcome State Fault Refusal :=
  if s.fatal then raiseError .fatal s
  else
    match decodeCmd s.pend with
    | .error _ => raiseError .illegalCmd s
    | .ok i => exec i s

/-- The Engine's turn: it steps only while a command is pending (00_scope.md R6); else its turn passes (log 17). -/
def engineTurn (s : State) : Host.Outcome State Fault Refusal :=
  if s.busy then engineStep s else .next s

end Sys2Proof.Machine
end

