-- ==== Sys2Proof/Machine/Step.lean ====
section
/-! DEFINITION. One step of the machine: the agent whose turn it is moves (00_scope.md R6). -/

namespace Sys2Proof.Machine

/-- One step. `turns` says who moves, so that every interleaving is some list; when it is used up the Engine runs a
pending command first and else the Host moves, so that every pending command is run (70_reset_and_hazards.md R149,
log 2). -/
def step (s : State) : Host.Outcome State Fault Refusal :=
  match s.turns with
  | .engine :: rest => engineTurn { s with turns := rest }
  | .host :: rest => hostTurn { s with turns := rest }
  | .hardReset :: rest => .next { s with turns := rest }.hardReset
  | [] => if s.busy then engineTurn s else hostTurn s

/-- The state in which the command word has just been accepted and the next turn is the Engine's (log 1). -/
def State.withFetchWord (s : State) (nbits w : Nat) : State :=
  { s.accept (tableWord nbits w) with turns := .engine :: s.turns }

end Sys2Proof.Machine
end

