-- ==== Sys2Proof/Safety.lean ====
section
/-! DEFINITION. The terms claims use: the invariants of the state (10_state.md R31, R33), trees, paths and strings as
the spec speaks of them (00_scope.md R10, R11; 43_tree_codec.md R99), and what counts as a safe run. -/

namespace Sys2Proof.Machine

/-! ### Trees and paths -/

/-- The node a code leads to from an index, moving left on '0' and right on '1' through branches only
(00_scope.md R11). -/
def walkPath (nodes : List Node) : NodeIdx → Code → Option NodeIdx
  | i, [] => some i
  | i, b :: path =>
    match arenaAt nodes i.toNat with
    | .leaf _ _ => none
    | .branch _ l r =>
      let next := if b then r else l
      if next = Config.nil then none else walkPath nodes next path

/-- The code leads from the index to a leaf of that symbol. -/
def LeadsTo (nodes : List Node) (start : NodeIdx) (path : Code) (sym : Symbol) : Prop :=
  ∃ i f, walkPath nodes start path = some i ∧ arenaAt nodes i.toNat = .leaf sym f

/-- The number of leaves of a tree. -/
def Tree.leafCount : Tree → Nat
  | .absent => 0
  | .leaf _ _ => 1
  | .branch _ l r => l.leafCount + r.leafCount

/-- The tree with every frequency 0: what a serialization keeps (43_tree_codec.md R99, R108). -/
def Tree.zeroFreq : Tree → Tree
  | .absent => .absent
  | .leaf sym _ => .leaf sym 0
  | .branch _ l r => .branch 0 l.zeroFreq r.zeroFreq

/-- The grammar of the serialized topology: the string spells the tree (43_tree_codec.md R99). -/
inductive Spells (lit br : Byte) : Tree → List Byte → Prop where
  | leaf (sym : Symbol) (freq : Word) : Spells lit br (.leaf sym freq) [lit, sym]
  | branch (freq : Word) {l r : Tree} {x y : List Byte} :
      Spells lit br l x → Spells lit br r y → Spells lit br (.branch freq l r) (x ++ y ++ [br])

/-- The entries of a tree in post-order, numbered from k up: left, right, then the branch with its children's numbers.
It is the numbering of the scan of 43_tree_codec.md R105 (R108). -/
def Tree.postOrder : Tree → Nat → List Node
  | .absent, _ => []
  | .leaf sym freq, _ => [.leaf sym freq]
  | .branch freq l r, k =>
    let x := l.postOrder k
    let y := r.postOrder (k + x.length)
    x ++ y ++ [.branch freq (BitVec.ofNat 9 (k + x.length - 1)) (BitVec.ofNat 9 (k + x.length + y.length - 1))]

/-- The string is made of whole tokens that a scan of 43_tree_codec.md R105 takes without an error, and leaves `depth`
nodes on the stack and `count` entries allocated. -/
inductive ScansTo (lit br : Byte) : List Byte → Nat → Nat → Prop where
  | start : ScansTo lit br [] 0 0
  | literal {x : List Byte} {depth count : Nat} (sym : Symbol) :
      ScansTo lit br x depth count → count < Config.nodeMax → ScansTo lit br (x ++ [lit, sym]) (depth + 1) (count + 1)
  | branch {x : List Byte} {depth count : Nat} :
      ScansTo lit br x (depth + 2) count → count < Config.nodeMax → ScansTo lit br (x ++ [br]) (depth + 1) (count + 1)

/-- The priority order as 40_tree_builder.md R75 words it: frequency, then leaf before branch, then a leaf's symbol,
then the index, each compared as an unsigned number. -/
def KeyBefore (nodes : List Node) (i j : Nat) : Prop :=
  let n := arenaAt nodes i
  let m := arenaAt nodes j
  n.freq.toNat < m.freq.toNat ∨
    n.freq = m.freq ∧
      (n.isBranch = false ∧ m.isBranch = true ∨
        n.isBranch = m.isBranch ∧ (n.sym.toNat < m.sym.toNat ∨ n.sym = m.sym ∧ i < j))

/-! ### The arena invariants (10_state.md R31) -/

/-- The children of all branches, as indices. -/
def childrenOf : List Node → List Nat
  | [] => []
  | .leaf _ _ :: rest => childrenOf rest
  | .branch _ l r :: rest => l.toNat :: r.toNat :: childrenOf rest

/-- The number of leaf entries. -/
def leafEntries : List Node → Nat
  | [] => 0
  | .leaf _ _ :: rest => leafEntries rest + 1
  | .branch _ _ _ :: rest => leafEntries rest

/-- Items 1 and 2 of 10_state.md R31 for the entry at index i: a branch's children are two different earlier entries
(so neither is NIL), and its frequency is the exact sum of theirs. -/
def entryOk (nodes : List Node) (i : Nat) : Node → Bool
  | .leaf _ _ => true
  | .branch f l r =>
    l.toNat < i && r.toNat < i && l ≠ r &&
      f.toNat = (arenaAt nodes l.toNat).freq.toNat + (arenaAt nodes r.toNat).freq.toNat

/-- Items 1, 2, 3, 5 and 6 of 10_state.md R31: every entry but the last is the child of exactly one branch, and the
last of none. -/
abbrev ArenaOk (nodes : List Node) : Prop :=
  1 ≤ nodes.length ∧ nodes.length ≤ Config.nodeMax ∧
    (∀ i < nodes.length, entryOk nodes i (arenaAt nodes i) = true) ∧
    (childrenOf nodes).Perm (List.range (nodes.length - 1)) ∧
    nodes.length + 1 = 2 * leafEntries nodes

/-- The current tree's registers and arena (10_state.md R24, R30, R31). -/
abbrev State.TreeOk (s : State) : Prop :=
  (s.treeValid = true →
    ArenaOk s.nodes ∧ s.ncount.toNat = s.nodes.length ∧ s.root.toNat + 1 = s.nodes.length ∧
      s.nleaves.toNat = leafEntries s.nodes) ∧
  (s.treeValid = false → s.nodes = [] ∧ s.root = Config.nil ∧ s.ncount = 0 ∧ s.nleaves = 0)

/-- The code table is the current tree's, or holds no code (10_state.md R33). -/
abbrev State.TableOk (s : State) : Prop :=
  (s.tableValid = true → s.treeValid = true ∧ s.currentTree.map tableOf = some (s.ct, false)) ∧
  (s.tableValid = false → s.ct = Vector.replicate 256 none)

/-- What the handshake keeps: a pending command has not ended (60_exceptions.md R121), and RLEN is 0 after every error
(60_exceptions.md R119). -/
abbrev State.HandshakeOk (s : State) : Prop :=
  (s.busy = true → s.done = false ∧ s.errcode = .ok ∧ s.rlen = 0) ∧ (s.errcode ≠ .ok → s.rlen = 0)

/-- The invariant of every state a run from reset reaches. -/
abbrev State.Inv (s : State) : Prop :=
  Memory.wf s.lmemSize s.lmem ∧ s.TreeOk ∧ s.TableOk ∧ s.HandshakeOk

/-! ### Safe runs -/

/-- A run of k steps is safe when it meets no fault and no refusal. -/
def SafeFor (k : Nat) (s : State) : Prop := ∃ t, Sys2Proof.core.run k s = .next t

end Sys2Proof.Machine
end

