-- ==== Sys2Proof/Certificates/Slice0/Obligations.lean ====
section
/-! DEFINITION. The statements about HTB, each from the numbered rules its docstring names. -/

open Sys2Proof Sys2Proof.Machine

/-! ### Command words -/

/-- Some words written out from the patterns of 30_encoding.md R65 decode to their commands, and three words with a
reserved opcode or a must-be-zero bit set are illegal (95_test_vectors.md V-BLD-15, V-ERR-1 to V-ERR-4). -/
def Obligations.DecodesWrittenWords : Prop :=
  decodeCmd 0b00000000000000000000000000000001#32 = .ok .clrfreq ∧
  decodeCmd 0b00000000000000000000000000000010#32 = .ok .build ∧
  decodeCmd 0b00000000000000000000000000000011#32 = .ok .teardown ∧
  decodeCmd 0b00000000000010100000010000000100#32 = .ok (.nodecmp 4 5) ∧
  decodeCmd 0b00000000000000000000000000010000#32 = .ok .gencodes ∧
  decodeCmd 0b00000000000000000000000000100000#32 = .ok .encode ∧
  decodeCmd 0b00000000000000000000000000100001#32 = .ok .decode ∧
  decodeCmd 0b00000000000000000000000000110000#32 = .ok .serialize ∧
  decodeCmd 0b00000000000000000000000000110001#32 = .ok .deserialize ∧
  decodeCmd 0x00000000#32 = .error .reservedOpcode ∧
  decodeCmd 0x00000102#32 = .error .mustBeZero ∧
  decodeCmd 0x04000004#32 = .error .mustBeZero

/-- Decoding the word of a well-formed command gives the command back, NODECMP with every value of its two operands
(30_encoding.md R65, R68, R72). -/
def Obligations.DecodeInvertsEncode : Prop :=
  ∀ i : Instr, i.WellFormed → decodeCmd (encode i) = .ok i

/-- A word that decodes is the word of the command it decodes to, and that command is well-formed: no two words stand
for one command (30_encoding.md R64, R65). -/
def Obligations.EncodeInvertsDecode : Prop :=
  ∀ (w : Word) (i : Instr), decodeCmd w = .ok i → i.WellFormed ∧ encode i = w

/-- 30_encoding.md R66: every word whose OPC is one of the listed values is illegal, whatever its other bits. -/
def Obligations.ReservedOpcodesAreIllegal : Prop :=
  ∀ w : Word,
    let opc := w.toNat % 256
    (opc = 0x00 ∨ (0x05 ≤ opc ∧ opc ≤ 0x0F) ∨ (0x11 ≤ opc ∧ opc ≤ 0x1F) ∨ (0x22 ≤ opc ∧ opc ≤ 0x2F) ∨ 0x32 ≤ opc) →
      decodeCmd w = .error .reservedOpcode

/-- 30_encoding.md R64: for NODECMP bits [31:26] must be 0 and bits [16:8] and [25:17] are its operands; for every
other opcode bits [31:8] must be 0; a word that breaks this is illegal. -/
def Obligations.MustBeZeroBitsAreChecked : Prop :=
  ∀ w : Word,
    (w.toNat % 256 = 0x04 →
      (w.toNat < 2 ^ 26 → decodeCmd w = .ok (.nodecmp (w.toNat / 2 ^ 8 % 2 ^ 9) (w.toNat / 2 ^ 17 % 2 ^ 9))) ∧
      (2 ^ 26 ≤ w.toNat → decodeCmd w = .error .mustBeZero)) ∧
    (w.toNat % 256 ≠ 0x04 → 2 ^ 8 ≤ w.toNat → ∃ why, decodeCmd w = .error why)

/-! ### Steps and the common checks -/

/-- Who moves is what the head of the turns says, its turn used up; with no turn left a pending command runs, else the
Host moves; an Engine turn with no command pending passes; and one with a pending legal command outside the fatal state
is exec of that command (00_scope.md R6, 60_exceptions.md R117). That the order is a list of turns (log 2), that an idle
Engine turn passes (log 17) and that a hard reset is a turn (log 18) are the model's choices. -/
def Obligations.StepFollowsTheTurns : Prop :=
  ∀ s : State,
    (∀ ts, s.turns = .host :: ts → step s = hostTurn { s with turns := ts }) ∧
    (∀ ts, s.turns = .hardReset :: ts → step s = .next { s with turns := ts }.hardReset) ∧
    (∀ ts, s.turns = .engine :: ts → s.busy = false → step s = .next { s with turns := ts }) ∧
    (s.turns = [] → s.busy = false → step s = hostTurn s) ∧
    (∀ i, s.busy = true → s.fatal = false → decodeCmd s.pend = .ok i →
      (s.turns = [] → step s = exec i s) ∧
      (∀ ts, s.turns = .engine :: ts → step s = exec i { s with turns := ts }))

/-- 60_exceptions.md R117: an Engine step checks FATAL, then legality, and each of those errors changes nothing but
ERRCODE, BUSY and DONE; else it performs the command in PEND. -/
def Obligations.EngineStepMakesTheCommonChecks : Prop :=
  ∀ s : State,
    (s.fatal = true → engineStep s = .next { s with errcode := .fatal, busy := false, done := true }) ∧
    (s.fatal = false → ∀ why, decodeCmd s.pend = .error why →
      engineStep s = .next { s with errcode := .illegalCmd, busy := false, done := true }) ∧
    (s.fatal = false → ∀ i, decodeCmd s.pend = .ok i → engineStep s = exec i s)

/-- An Engine step ends every command, whatever the word and the outcome: it never faults, BUSY is 0 and DONE is 1
(00_scope.md R7, 60_exceptions.md R122), and every error has RLEN = 0 (R119). The premise is the invariant that
StepKeepsTheInvariant states, with a pending command. -/
def Obligations.EngineStepEndsTheCommand : Prop :=
  ∀ s : State, s.Inv → s.busy = true →
    ∃ t, engineStep s = .next t ∧ t.busy = false ∧ t.done = true ∧ (t.errcode ≠ .ok → t.rlen = 0)

/-- The ERRCODE word of every code: CODE in bits [7:0] and KIND in bits [9:8] (60_exceptions.md R115,
10_state.md R23). -/
def Obligations.ErrorWordsFollowTheTable : Prop :=
  ErrCode.ok.word = 0x000 ∧ ErrCode.illegalCmd.word = 0x101 ∧ ErrCode.fatal.word = 0x302 ∧
  ErrCode.emptyFreq.word = 0x103 ∧ ErrCode.freqOvf.word = 0x104 ∧ ErrCode.noTree.word = 0x105 ∧
  ErrCode.badNode.word = 0x106 ∧ ErrCode.dupLeaf.word = 0x207 ∧ ErrCode.noCodes.word = 0x108 ∧
  ErrCode.lookupMiss.word = 0x309 ∧ ErrCode.bounds.word = 0x10A ∧ ErrCode.overlap.word = 0x10B ∧
  ErrCode.dstFull.word = 0x10C ∧ ErrCode.markerCfg.word = 0x10D ∧ ErrCode.stackUnderflow.word = 0x20E ∧
  ErrCode.stackImbalance.word = 0x20F ∧ ErrCode.badMarker.word = 0x210 ∧ ErrCode.truncLiteral.word = 0x211 ∧
  ErrCode.arenaFull.word = 0x112 ∧ ErrCode.singleLeaf.word = 0x213 ∧ ErrCode.badBit.word = 0x214 ∧
  ErrCode.truncatedCode.word = 0x215 ∧ ErrCode.missingChild.word = 0x216

/-! ### Tree builder -/

/-- 40_tree_builder.md R77: CLRFREQ, the word 0x00000001, sets every FREQ[s] to 0 and ends in success; nothing else
changes. -/
def Obligations.ClrfreqClearsEveryFrequency : Prop :=
  decodeCmd 0x00000001 = .ok .clrfreq ∧
  ∀ s : State, ∃ t, exec .clrfreq s = .next t ∧
    t = { s with freq := t.freq, errcode := .ok, busy := false, done := true } ∧
    ∀ sym : Symbol, t.freq[sym.toNat]'sym.isLt = 0

/-- 40_tree_builder.md R79: with no present symbol BUILD raises E_EMPTY_FREQ, with a total over 0xFFFFFFFF it raises
E_FREQ_OVF, and nothing else changes. -/
def Obligations.BuildRefusesBadMappings : Prop :=
  ∀ s : State,
    ((∀ sym : Symbol, s.freq[sym.toNat]'sym.isLt = 0) →
      exec .build s = .next { s with errcode := .emptyFreq, busy := false, done := true }) ∧
    (0xFFFFFFFF < (s.freq.toList.map BitVec.toNat).sum →
      exec .build s = .next { s with errcode := .freqOvf, busy := false, done := true })

/-- 40_tree_builder.md R81 and R87: with n present symbols, n at least 1, and a total that fits, BUILD succeeds with
NCOUNT = 2n - 1, ROOT = 2n - 2 and NLEAVES = n, TREE_VALID set, the code table cleared, the total at the root, every
present symbol in exactly one leaf, the invariants of 10_state.md R31 with every entry reached from ROOT, and nothing
else changed. -/
def Obligations.BuildMakesTheTree : Prop :=
  ∀ s : State, (∃ sym : Symbol, s.freq[sym.toNat]'sym.isLt ≠ 0) →
    (s.freq.toList.map BitVec.toNat).sum ≤ 0xFFFFFFFF →
    let n := (s.freq.toList.filter (fun f => f ≠ 0)).length
    ∃ t, exec .build s = .next t ∧
      t = { s with
        nodes := t.nodes, root := BitVec.ofNat 9 (2 * n - 2), ncount := BitVec.ofNat 10 (2 * n - 1),
        nleaves := BitVec.ofNat 10 n, treeValid := true, tableValid := false, ct := Vector.replicate 256 none,
        errcode := .ok, busy := false, done := true } ∧
      t.nodes.length = 2 * n - 1 ∧
      (arenaAt t.nodes (2 * n - 2)).freq.toNat = (s.freq.toList.map BitVec.toNat).sum ∧
      (∀ sym : Symbol, s.freq[sym.toNat]'sym.isLt ≠ 0 →
        ∃! i, i < t.nodes.length ∧ ∃ f, arenaAt t.nodes i = .leaf sym f) ∧
      ArenaOk t.nodes ∧
      ∀ i < t.nodes.length, ∃ path idx, walkPath t.nodes t.root path = some idx ∧ idx.toNat = i

/-- The seeding of 40_tree_builder.md R80: after a BUILD that succeeds with n present symbols, entries 0 to n-1 are
their leaves in ascending symbol order, each with its frequency, and every later entry is a branch. -/
def Obligations.BuildSeedsLeavesInSymbolOrder : Prop :=
  ∀ s t : State, exec .build s = .next t → t.errcode = .ok →
    let n := (s.freq.toList.filter (fun f => f ≠ 0)).length
    (∀ i < n, ∃ sym : Symbol, s.freq[sym.toNat]'sym.isLt ≠ 0 ∧
      arenaAt t.nodes i = .leaf sym (s.freq[sym.toNat]'sym.isLt)) ∧
    (∀ i j, i < j → j < n → (arenaAt t.nodes i).sym.toNat < (arenaAt t.nodes j).sym.toNat) ∧
    ∀ i, n ≤ i → i < t.nodes.length → (arenaAt t.nodes i).isBranch = true

/-- The merging of 40_tree_builder.md R80 under the order of R75: when branch k is made, its left child a and its right
child b are the two least of the roots there are (the entries below k that no branch below k has as a child), a before
b, and its frequency is the exact sum of theirs. -/
def Obligations.BuildMergesTheTwoLeastRoots : Prop :=
  ∀ s t : State, exec .build s = .next t → t.errcode = .ok →
    ∀ k f l r, k < t.nodes.length → arenaAt t.nodes k = .branch f l r →
      let isRoot := fun c => c < k ∧
        ∀ j < k, ∀ g a b, arenaAt t.nodes j = .branch g a b → a.toNat ≠ c ∧ b.toNat ≠ c
      isRoot l.toNat ∧ isRoot r.toNat ∧ KeyBefore t.nodes l.toNat r.toNat ∧
        (∀ c, isRoot c → c ≠ l.toNat → c ≠ r.toNat → KeyBefore t.nodes r.toNat c) ∧
        f.toNat = (arenaAt t.nodes l.toNat).freq.toNat + (arenaAt t.nodes r.toNat).freq.toNat

/-- 40_tree_builder.md R88: two BUILDs from the same FREQ give the same arena, ROOT, NCOUNT and NLEAVES, whatever was
there before, and GENCODES after each gives the same code table. -/
def Obligations.BuildDependsOnFreqAlone : Prop :=
  ∀ s s' t t' : State, s.freq = s'.freq → exec .build s = .next t → exec .build s' = .next t' →
    t.errcode = t'.errcode ∧
    (t.errcode = .ok →
      t.nodes = t'.nodes ∧ t.root = t'.root ∧ t.ncount = t'.ncount ∧ t.nleaves = t'.nleaves ∧
      ∀ u u', exec .gencodes t = .next u → exec .gencodes t' = .next u' → u.ct = u'.ct)

/-- 40_tree_builder.md R84: TEARDOWN, the word 0x00000003, leaves no tree and no table and changes nothing else; with no
current tree it changes nothing. -/
def Obligations.TeardownReleasesTheTree : Prop :=
  decodeCmd 0x00000003 = .ok .teardown ∧
  ∀ s : State,
    exec .teardown s = .next { s with
      treeValid := false, root := 0x1FF, ncount := 0, nleaves := 0, nodes := [], tableValid := false,
      ct := Vector.replicate 256 none, errcode := .ok, busy := false, done := true } ∧
    (s.Inv → s.treeValid = false →
      exec .teardown s = .next { s with errcode := .ok, busy := false, done := true })

/-- 40_tree_builder.md R85: NODECMP without a tree, or with an operand that is no entry, sets RESULT to 0 and raises its
error; else RESULT says whether node a precedes node b, 0 for a = b, and for a and b different exactly one of the two
orders gives 1. Nothing else changes. Its word holds a in bits [16:8] and b in bits [25:17]. -/
def Obligations.NodecmpComparesTwoNodes : Prop :=
  ∀ (s : State) (a b : Nat),
    (a < 512 → b < 512 → decodeCmd (BitVec.ofNat 32 (2 ^ 17 * b + 2 ^ 8 * a + 4)) = .ok (.nodecmp a b)) ∧
    (s.treeValid = false →
      exec (.nodecmp a b) s = .next { s with result := false, errcode := .noTree, busy := false, done := true }) ∧
    (s.treeValid = true → s.ncount.toNat ≤ a ∨ s.ncount.toNat ≤ b →
      exec (.nodecmp a b) s = .next { s with result := false, errcode := .badNode, busy := false, done := true }) ∧
    (s.treeValid = true → a < s.ncount.toNat → b < s.ncount.toNat →
      ∃ t t', exec (.nodecmp a b) s = .next t ∧ exec (.nodecmp b a) s = .next t' ∧
        t = { s with result := t.result, errcode := .ok, busy := false, done := true } ∧
        (t.result = true ↔ KeyBefore s.nodes a b) ∧
        (a = b → t.result = false) ∧ (a ≠ b → t.result ≠ t'.result))

/-- 40_tree_builder.md R75: the selector's order is the one the rule words, and it is a strict total order on
distinct indices. -/
def Obligations.PriorityOrderIsStrictAndTotal : Prop :=
  ∀ (nodes : List Node) (i j k : Nat),
    (precedes nodes i j = true ↔ KeyBefore nodes i j) ∧
    precedes nodes i i = false ∧
    (precedes nodes i j = true → precedes nodes j k = true → precedes nodes i k = true) ∧
    (i ≠ j → precedes nodes i j = true ∨ precedes nodes j i = true)

/-! ### Code table -/

/-- A current tree without two leaves of one symbol: GENCODES succeeds, and CT[s] then holds exactly the path from ROOT
to the leaf with symbol s, and nothing where there is none (41_code_table.md R90, R91); nothing else changes. -/
def Obligations.GencodesRecordsEveryPath : Prop :=
  ∀ s : State, s.TreeOk → s.treeValid = true →
    (∀ i j sym f g, i < s.nodes.length → j < s.nodes.length → arenaAt s.nodes i = .leaf sym f →
      arenaAt s.nodes j = .leaf sym g → i = j) →
    ∃ t, exec .gencodes s = .next t ∧
      t = { s with ct := t.ct, tableValid := true, errcode := .ok, busy := false, done := true } ∧
      ∀ (sym : Symbol) (path : Code),
        t.ct[sym.toNat]'sym.isLt = some path ↔ LeadsTo s.nodes s.root path sym

/-- 41_code_table.md R92: without a tree GENCODES raises E_NO_TREE and changes nothing; with two leaves of one symbol
it raises E_DUP_LEAF, clears the table and keeps the tree. -/
def Obligations.GencodesRefuses : Prop :=
  ∀ s : State,
    (s.treeValid = false →
      exec .gencodes s = .next { s with errcode := .noTree, busy := false, done := true }) ∧
    (s.TreeOk → s.treeValid = true →
      (∃ i j sym f g, i < j ∧ j < s.nodes.length ∧ arenaAt s.nodes i = .leaf sym f ∧
        arenaAt s.nodes j = .leaf sym g) →
      exec .gencodes s = .next { s with
        ct := Vector.replicate 256 none, tableValid := false, errcode := .dupLeaf, busy := false, done := true })

/-- The code table of a tree of two or more leaves: every code is non-empty and no code is a prefix of another symbol's
code (41_code_table.md R91). -/
def Obligations.CodesArePrefixFree : Prop :=
  ∀ s : State, s.Inv → s.tableValid = true → 2 ≤ s.nleaves.toNat →
    ∀ sym sym' path path', codeOf s.ct sym = some path → codeOf s.ct sym' = some path' →
      path ≠ [] ∧ (sym ≠ sym' → ¬path <+: path')

/-- After BUILD and GENCODES exactly the present symbols have codes (40_tree_builder.md R87, 41_code_table.md R91; the
property 90_conflicts.md C7 keeps). -/
def Obligations.BuildAndGencodesCodeEveryPresentSymbol : Prop :=
  ∀ s : State, (∃ sym : Symbol, s.freq[sym.toNat]'sym.isLt ≠ 0) →
    (s.freq.toList.map BitVec.toNat).sum ≤ 0xFFFFFFFF →
    ∃ t u, exec .build s = .next t ∧ exec .gencodes t = .next u ∧ u.errcode = .ok ∧ u.tableValid = true ∧
      ∀ sym : Symbol, (codeOf u.ct sym).isSome ↔ s.freq[sym.toNat]'sym.isLt ≠ 0

/-! ### Compressor -/

/-- 42_compressor.md R95: ENCODE's checks in their order, each changing nothing else. -/
def Obligations.EncodeChecksComeFirst : Prop :=
  ∀ s : State,
    let inLmem := s.src.toNat + s.slen.toNat ≤ s.lmemSize ∧ s.dst.toNat + s.dcap.toNat ≤ s.lmemSize
    (s.tableValid = false →
      exec .encode s = .next { s with errcode := .noCodes, busy := false, done := true }) ∧
    (s.tableValid = true → ¬inLmem →
      exec .encode s = .next { s with errcode := .bounds, busy := false, done := true }) ∧
    (s.tableValid = true → inLmem →
      s.slen ≠ 0 ∧ s.dcap ≠ 0 ∧ s.src.toNat < s.dst.toNat + s.dcap.toNat ∧
        s.dst.toNat < s.src.toNat + s.slen.toNat →
      exec .encode s = .next { s with errcode := .overlap, busy := false, done := true })

/-- ENCODE of an input whose symbols all have codes that fit DCAP together: success, RLEN the total length, the code
symbols at DST upwards as bytes 0x30 and 0x31, every other byte and everything else unchanged (42_compressor.md R94,
R96). -/
def Obligations.EncodeWritesTheCodes : Prop :=
  ∀ (s : State) (codes : List Code), s.tableValid = true → s.srcOk = true → s.dstOk = true →
    s.overlaps = false → s.sourceBytes.map (codeOf s.ct) = codes.map some →
    codes.flatten.length ≤ s.dcap.toNat →
    ∃ t, exec .encode s = .next t ∧
      t = { s with lmem := t.lmem, rlen := t.rlen, errcode := .ok, busy := false, done := true } ∧
      t.rlen.toNat = codes.flatten.length ∧
      (∀ j b, codes.flatten[j]? = some b → t.readByte (s.dst.toNat + j) = if b then 0x31 else 0x30) ∧
      ∀ a, ¬(s.dst.toNat ≤ a ∧ a < s.dst.toNat + codes.flatten.length) → t.readByte a = s.readByte a

/-- ENCODE's scan errors: after symbols whose codes fit, a symbol with no code raises E_LOOKUP_MISS and sets FATAL, and a
code that exceeds DCAP raises E_DST_FULL; bytes outside the destination window and everything else are unchanged
(42_compressor.md R96, R97; 60_exceptions.md R119). The window's own bytes are free values (log 6). -/
def Obligations.EncodeScanErrors : Prop :=
  ∀ (s : State) (pre post : List Byte) (sym : Symbol) (codes : List Code), s.tableValid = true →
    s.srcOk = true → s.dstOk = true → s.overlaps = false → s.sourceBytes = pre ++ sym :: post →
    pre.map (codeOf s.ct) = codes.map some → codes.flatten.length ≤ s.dcap.toNat →
    (codeOf s.ct sym = none →
      ∃ t, exec .encode s = .next t ∧
        t = { s with
          lmem := t.lmem, draws := t.draws, fatal := true, errcode := .lookupMiss, busy := false, done := true } ∧
        ∀ a, ¬(s.dst.toNat ≤ a ∧ a < s.dst.toNat + s.dcap.toNat) → t.readByte a = s.readByte a) ∧
    (∀ code, codeOf s.ct sym = some code → s.dcap.toNat < codes.flatten.length + code.length →
      ∃ t, exec .encode s = .next t ∧
        t = { s with lmem := t.lmem, draws := t.draws, errcode := .dstFull, busy := false, done := true } ∧
        ∀ a, ¬(s.dst.toNat ≤ a ∧ a < s.dst.toNat + s.dcap.toNat) → t.readByte a = s.readByte a)

/-! ### Tree codec -/

/-- SERIALIZE of a current tree with room for it: success, RLEN = 3 * NLEAVES - 1, the string the grammar gives the
tree at DST upwards, every other byte and everything else unchanged (43_tree_codec.md R99, R102, R103). -/
def Obligations.SerializeWritesTheTopology : Prop :=
  ∀ s : State, s.TreeOk → s.treeValid = true → s.lit ≠ s.br → s.dstOk = true →
    3 * s.nleaves.toNat - 1 ≤ s.dcap.toNat →
    ∃ t tree out, exec .serialize s = .next t ∧ s.currentTree = some tree ∧ Spells s.lit s.br tree out ∧
      t = { s with lmem := t.lmem, rlen := t.rlen, errcode := .ok, busy := false, done := true } ∧
      t.rlen.toNat = 3 * s.nleaves.toNat - 1 ∧ out.length = 3 * s.nleaves.toNat - 1 ∧
      (∀ j v, out[j]? = some v → t.readByte (s.dst.toNat + j) = v) ∧
      ∀ a, ¬(s.dst.toNat ≤ a ∧ a < s.dst.toNat + out.length) → t.readByte a = s.readByte a

/-- 43_tree_codec.md R101: SERIALIZE's checks in their order, each changing nothing else; and with too little room
E_DST_FULL, bytes outside the destination window unchanged (R102). -/
def Obligations.SerializeRefuses : Prop :=
  ∀ s : State,
    (s.treeValid = false →
      exec .serialize s = .next { s with errcode := .noTree, busy := false, done := true }) ∧
    (s.treeValid = true → s.lit = s.br →
      exec .serialize s = .next { s with errcode := .markerCfg, busy := false, done := true }) ∧
    (s.treeValid = true → s.lit ≠ s.br → s.lmemSize < s.dst.toNat + s.dcap.toNat →
      exec .serialize s = .next { s with errcode := .bounds, busy := false, done := true }) ∧
    (s.TreeOk → s.treeValid = true → s.lit ≠ s.br → s.dst.toNat + s.dcap.toNat ≤ s.lmemSize →
      s.dcap.toNat < 3 * s.nleaves.toNat - 1 →
      ∃ t, exec .serialize s = .next t ∧
        t = { s with lmem := t.lmem, draws := t.draws, errcode := .dstFull, busy := false, done := true } ∧
        ∀ a, ¬(s.dst.toNat ≤ a ∧ a < s.dst.toNat + s.dcap.toNat) → t.readByte a = s.readByte a)

/-- 43_tree_codec.md R104: DESERIALIZE's checks in their order, each changing nothing else: the current tree is kept. -/
def Obligations.DeserializeChecksComeFirst : Prop :=
  ∀ s : State,
    (s.lit = s.br →
      exec .deserialize s = .next { s with errcode := .markerCfg, busy := false, done := true }) ∧
    (s.lit ≠ s.br → s.lmemSize < s.src.toNat + s.slen.toNat →
      exec .deserialize s = .next { s with errcode := .bounds, busy := false, done := true })

/-- DESERIALIZE of a string the grammar gives a tree of at most 256 leaves: success, the current tree is that tree with
every frequency 0, its entries stand in post-order, which is the scan's order of allocation, NCOUNT, NLEAVES and ROOT
follow its leaf count, the table is cleared, and nothing else changes (43_tree_codec.md R99, R105, R106, R108). -/
def Obligations.DeserializeRebuildsTheTree : Prop :=
  ∀ (s : State) (tree : Tree), s.lit ≠ s.br → s.srcOk = true → Spells s.lit s.br tree s.sourceBytes →
    tree.leafCount ≤ 256 →
    ∃ t, exec .deserialize s = .next t ∧ t.currentTree = some tree.zeroFreq ∧
      t = { s with
        nodes := tree.zeroFreq.postOrder 0, root := BitVec.ofNat 9 (2 * tree.leafCount - 2),
        ncount := BitVec.ofNat 10 (2 * tree.leafCount - 1), nleaves := BitVec.ofNat 10 tree.leafCount,
        treeValid := true, tableValid := false, ct := Vector.replicate 256 none, errcode := .ok, busy := false,
        done := true } ∧
      t.nodes.length = 2 * tree.leafCount - 1

/-- Every other string is refused with a scan error of 43_tree_codec.md R107, and the current tree and table are torn
down (R105); LMEM and everything else are unchanged. The first error the scan meets, after tokens it takes without one,
gives the code (60_exceptions.md R118): a literal marker at the end E_TRUNC_LITERAL, a branch marker with fewer than two
nodes stacked E_STACK_UNDERFLOW, a byte that is no marker E_BAD_MARKER, a 512th node E_ARENA_FULL, and an end with other
than one node stacked E_STACK_IMBALANCE. -/
def Obligations.DeserializeRejectsEverythingElse : Prop :=
  ∀ s : State, s.lit ≠ s.br → s.srcOk = true →
    let tornDown := fun e => { s with
      treeValid := false, root := 0x1FF, ncount := 0, nleaves := 0, nodes := [], tableValid := false,
      ct := Vector.replicate 256 none, errcode := e, busy := false, done := true }
    ((¬∃ tree, Spells s.lit s.br tree s.sourceBytes ∧ tree.leafCount ≤ 256) →
      ∃ e ∈ [ErrCode.truncLiteral, .stackUnderflow, .badMarker, .arenaFull, .stackImbalance],
        exec .deserialize s = .next (tornDown e)) ∧
    ∀ x depth count e, ScansTo s.lit s.br x depth count →
      (s.sourceBytes = x ++ [s.lit] ∧ e = .truncLiteral) ∨
        (∃ post, s.sourceBytes = x ++ s.br :: post ∧ depth < 2 ∧ e = .stackUnderflow) ∨
        (∃ m post, s.sourceBytes = x ++ m :: post ∧ m ≠ s.lit ∧ m ≠ s.br ∧ e = .badMarker) ∨
        (∃ sym post, s.sourceBytes = x ++ s.lit :: sym :: post ∧ count = 511 ∧ e = .arenaFull) ∨
        (∃ post, s.sourceBytes = x ++ s.br :: post ∧ 2 ≤ depth ∧ count = 511 ∧ e = .arenaFull) ∨
        (s.sourceBytes = x ∧ depth ≠ 1 ∧ e = .stackImbalance) →
      exec .deserialize s = .next (tornDown e)

/-- 43_tree_codec.md R108 item 1: a DESERIALIZE of what a SERIALIZE wrote, with the same markers, succeeds and gives a
tree of the same shape with the same leaf symbols at the same positions, every frequency 0, the entries renumbered in
post-order. -/
def Obligations.DeserializeInvertsSerialize : Prop :=
  ∀ s t : State, s.TreeOk → exec .serialize s = .next t → t.errcode = .ok →
    ∃ v tree, exec .deserialize { t with src := t.dst, slen := t.rlen } = .next v ∧ v.errcode = .ok ∧
      s.currentTree = some tree ∧ v.currentTree = some tree.zeroFreq ∧ v.nodes = tree.zeroFreq.postOrder 0

/-- 43_tree_codec.md R108 item 2: a SERIALIZE, with room and the same markers, of what a DESERIALIZE accepted writes
exactly the bytes it was given. -/
def Obligations.SerializeInvertsDeserialize : Prop :=
  ∀ (s t : State) (dst dcap : Word), exec .deserialize s = .next t → t.errcode = .ok →
    dst.toNat + dcap.toNat ≤ s.lmemSize → s.slen.toNat ≤ dcap.toNat →
    ∃ v, exec .serialize { t with dst := dst, dcap := dcap } = .next v ∧ v.errcode = .ok ∧ v.rlen = s.slen ∧
      ∀ j < s.slen.toNat, v.readByte (dst.toNat + j) = s.readByte (s.src.toNat + j)

/-! ### Decompressor -/

/-- 44_decompressor.md R110: DECODE's checks in their order, each changing nothing else; a root that is a leaf is refused
whatever the windows. -/
def Obligations.DecodeChecksComeFirst : Prop :=
  ∀ s : State,
    let inLmem := s.src.toNat + s.slen.toNat ≤ s.lmemSize ∧ s.dst.toNat + s.dcap.toNat ≤ s.lmemSize
    let rootIsLeaf := (s.nodeAt s.root.toNat).isBranch = false
    (s.treeValid = false →
      exec .decode s = .next { s with errcode := .noTree, busy := false, done := true }) ∧
    (s.treeValid = true → rootIsLeaf →
      exec .decode s = .next { s with errcode := .singleLeaf, busy := false, done := true }) ∧
    (s.treeValid = true → ¬rootIsLeaf → ¬inLmem →
      exec .decode s = .next { s with errcode := .bounds, busy := false, done := true }) ∧
    (s.treeValid = true → ¬rootIsLeaf → inLmem →
      s.slen ≠ 0 ∧ s.dcap ≠ 0 ∧ s.src.toNat < s.dst.toNat + s.dcap.toNat ∧
        s.dst.toNat < s.src.toNat + s.slen.toNat →
      exec .decode s = .next { s with errcode := .overlap, busy := false, done := true })

/-- DECODE of the bytes of a sequence of root-to-leaf paths that fits DCAP: success, RLEN their number, the leaf symbols
at DST upwards in order, every other byte and everything else unchanged (44_decompressor.md R111). -/
def Obligations.DecodeWritesTheSymbols : Prop :=
  ∀ (s : State) (runs : List (Code × Symbol)), s.treeValid = true →
    (s.nodeAt s.root.toNat).isBranch = true → s.srcOk = true → s.dstOk = true → s.overlaps = false →
    (∀ p ∈ runs, LeadsTo s.nodes s.root p.1 p.2) →
    s.sourceBytes = ((runs.map Prod.fst).flatten).map codeByte → runs.length ≤ s.dcap.toNat →
    ∃ t, exec .decode s = .next t ∧
      t = { s with lmem := t.lmem, rlen := t.rlen, errcode := .ok, busy := false, done := true } ∧
      t.rlen.toNat = runs.length ∧
      (∀ j p, runs[j]? = some p → t.readByte (s.dst.toNat + j) = p.2) ∧
      ∀ a, ¬(s.dst.toNat ≤ a ∧ a < s.dst.toNat + runs.length) → t.readByte a = s.readByte a

/-- DECODE's scan errors after root-to-leaf paths that fit: a byte that is neither 0x30 nor 0x31 raises E_BAD_BIT, bits
that end away from the root raise E_TRUNCATED_CODE, one symbol too many raises E_DST_FULL; bytes outside the
destination window and everything else are unchanged (44_decompressor.md R111, R112). The window's own bytes are free
values (log 6). -/
def Obligations.DecodeScanErrors : Prop :=
  ∀ (s : State) (runs : List (Code × Symbol)) (part : Code) (tail : List Byte) (e : ErrCode), s.treeValid = true →
    (s.nodeAt s.root.toNat).isBranch = true → s.srcOk = true → s.dstOk = true → s.overlaps = false →
    (∀ p ∈ runs, LeadsTo s.nodes s.root p.1 p.2) → runs.length ≤ s.dcap.toNat →
    s.sourceBytes = ((runs.map Prod.fst).flatten ++ part).map codeByte ++ tail →
    ((∃ i b post, walkPath s.nodes s.root part = some i ∧ (arenaAt s.nodes i.toNat).isBranch = true ∧
        tail = b :: post ∧ b ≠ 0x30 ∧ b ≠ 0x31 ∧ e = .badBit) ∨
      (∃ i, walkPath s.nodes s.root part = some i ∧ (arenaAt s.nodes i.toNat).isBranch = true ∧ i ≠ s.root ∧
        tail = [] ∧ e = .truncatedCode) ∨
      (∃ sym, LeadsTo s.nodes s.root part sym ∧ runs.length = s.dcap.toNat ∧ e = .dstFull)) →
    ∃ t, exec .decode s = .next t ∧
      t = { s with lmem := t.lmem, draws := t.draws, errcode := e, busy := false, done := true } ∧
      ∀ a, ¬(s.dst.toNat ≤ a ∧ a < s.dst.toNat + s.dcap.toNat) → t.readByte a = s.readByte a

/-- E_MISSING_CHILD cannot be raised where the arena invariants hold (44_decompressor.md R113). -/
def Obligations.DecodeNeverMissesAChild : Prop :=
  ∀ s t : State, s.TreeOk → exec .decode s = .next t → t.errcode ≠ .missingChild

/-- The round trip of 44_decompressor.md R114: what ENCODE wrote with the table of a tree of two or more leaves, DECODE
turns back into the input, RLEN the input's length, for every destination window that has room and does not overlap;
and so it does with SERIALIZE and DESERIALIZE run between, where LIT and BR differ and the topology's window has room and
does not overlap the code. All of these commands succeed. -/
def Obligations.DecodeGivesTheEncodedInputBack : Prop :=
  ∀ (s t : State) (dst dcap : Word), s.Inv → 2 ≤ s.nleaves.toNat → exec .encode s = .next t → t.errcode = .ok →
    let u := { t with src := t.dst, slen := t.rlen, dst := dst, dcap := dcap }
    let givesBack := fun v : State => v.errcode = .ok ∧ v.rlen = s.slen ∧
      ∀ j < s.slen.toNat, v.readByte (dst.toNat + j) = s.readByte (s.src.toNat + j)
    u.dstOk = true → u.overlaps = false → s.slen.toNat ≤ dcap.toNat →
    (∃ v, exec .decode u = .next v ∧ givesBack v) ∧
    ∀ sdst sdcap : Word,
      let p := { t with src := t.dst, slen := t.rlen, dst := sdst, dcap := sdcap }
      s.lit ≠ s.br → p.dstOk = true → p.overlaps = false → 3 * s.nleaves.toNat - 1 ≤ sdcap.toNat →
      ∃ w x v, exec .serialize p = .next w ∧ w.errcode = .ok ∧
        exec .deserialize { w with src := w.dst, slen := w.rlen } = .next x ∧ x.errcode = .ok ∧
        exec .decode { x with src := t.dst, slen := t.rlen, dst := dst, dcap := dcap } = .next v ∧ givesBack v

/-! ### Frames -/

/-- What CLRFREQ, BUILD, TEARDOWN, NODECMP, GENCODES and DESERIALIZE leave unchanged in either outcome: every byte of
LMEM and every register and flag but those named (20_memory.md R55; the writes of R77, R81, R84, R85, R90, R105 and
R106; 10_state.md R36). -/
def Obligations.RegisterOnlyCommandsFrame : Prop :=
  ∀ (i : Instr) (s t : State), exec i s = .next t →
    (i = .clrfreq → t = { s with freq := t.freq, errcode := t.errcode, busy := false, done := true } ∧
      ∀ a, t.readByte a = s.readByte a) ∧
    (i = .build ∨ i = .teardown ∨ i = .deserialize →
      t = { s with
        nodes := t.nodes, root := t.root, ncount := t.ncount, nleaves := t.nleaves, treeValid := t.treeValid,
        tableValid := t.tableValid, ct := t.ct, errcode := t.errcode, busy := false, done := true } ∧
      ∀ a, t.readByte a = s.readByte a) ∧
    ((∃ a b, i = .nodecmp a b) →
      t = { s with result := t.result, errcode := t.errcode, busy := false, done := true } ∧
      ∀ a, t.readByte a = s.readByte a) ∧
    (i = .gencodes →
      t = { s with ct := t.ct, tableValid := t.tableValid, errcode := t.errcode, busy := false, done := true } ∧
      ∀ a, t.readByte a = s.readByte a)

/-- What ENCODE, DECODE and SERIALIZE leave unchanged: on success every byte outside the RLEN bytes at DST, after an
error every byte outside the destination window, FATAL but on ENCODE's lookup miss, RLEN on an error, and every other
register, table and flag (20_memory.md R54, R55; 60_exceptions.md R119). `draws` counts the model's free values. -/
def Obligations.StoringCommandsFrame : Prop :=
  ∀ (i : Instr) (s t : State), i = .encode ∨ i = .decode ∨ i = .serialize → exec i s = .next t →
    t = { s with
      lmem := t.lmem, draws := t.draws, rlen := t.rlen, fatal := t.fatal, errcode := t.errcode, busy := false,
      done := true } ∧
    (t.fatal ≠ s.fatal → i = .encode ∧ t.errcode = .lookupMiss) ∧
    (t.errcode = .ok → ∀ a, ¬(s.dst.toNat ≤ a ∧ a < s.dst.toNat + t.rlen.toNat) → t.readByte a = s.readByte a) ∧
    (t.errcode ≠ .ok → t.rlen = s.rlen ∧
      ∀ a, ¬(s.dst.toNat ≤ a ∧ a < s.dst.toNat + s.dcap.toNat) → t.readByte a = s.readByte a)

/-! ### The Host port -/

/-- From 20_memory.md R46 to R49: an 8-, 16- or 32-bit Host access is a bus error exactly where the map refuses it:
anything but an aligned 32-bit access in the register, FREQ, NODE and CT windows, a misaligned access in LMEM, and every
reserved offset, CT +0x24 to +0x3F and offsets past LMEM among them, whether BUSY is 0 or 1. That a Host access has one
of these three widths is the model's choice (log 22); R47 and R49 speak of any width. -/
def Obligations.AccessesOutsideTheMapAreBusErrors : Prop :=
  ∀ (s : State) (w : Width) (off : Offset) (v : Word) (rest : List HostOp),
    let o := off.toNat
    let inWordWindow := o < 0x40 ∨ (0x400 ≤ o ∧ o < 0x800) ∨ (0x2000 ≤ o ∧ o < 0x3FF0) ∨
      (0x4000 ≤ o ∧ o < 0x8000 ∧ o % 64 < 0x24)
    let permitted := (inWordWindow ∧ w = .w32 ∧ o % 4 = 0) ∨
      (0x10000 ≤ o ∧ o < 0x10000 + s.lmemSize ∧ (w = .w8 ∨ (w = .w16 ∧ o % 2 = 0) ∨ (w = .w32 ∧ o % 4 = 0)))
    (s.host = .read w off :: rest → (hostTurn s = .fault .busError ↔ ¬permitted)) ∧
    (s.host = .write w off v :: rest → (hostTurn s = .fault .busError ↔ ¬permitted))

/-- A Host read that completes gives the Host one word and changes nothing of the block (20_memory.md R53, R51); `draws`
counts the model's free values (log 6). -/
def Obligations.ReadsHaveNoSideEffect : Prop :=
  ∀ (s t : State) (w : Width) (off : Offset) (rest : List HostOp), s.host = .read w off :: rest →
    hostTurn s = .next t →
    t = { s with host := rest, reads := t.reads, draws := t.draws } ∧ ∃ v, t.reads = v :: s.reads

/-- The STATUS word: the seven bits at their places, ERR a view of ERRCODE.CODE, every reserved bit 0 (10_state.md
R21). -/
def Obligations.StatusWordShowsTheFlags : Prop :=
  ∀ s : State, s.statusWord.toNat =
    s.busy.toNat + 2 * s.done.toNat + 4 * (decide (s.errcode.word.toNat % 256 ≠ 0)).toNat + 8 * s.fatal.toNat +
      16 * s.whb.toNat + 256 * s.treeValid.toNat + 512 * s.tableValid.toNat

/-- What a Host read of each register and of each FREQ word gives, by its offset. While BUSY = 0 it gives all 16
registers' current values and FREQ[s] at 0x400 + 4*s (10_state.md R16, R18 to R23, R25 to R28, R30). While BUSY = 1 it
still gives the current values of ID, PARAMS, CTRL, STATUS, SRC, SLEN, DST, DCAP and MARKERS, and ERRCODE and CMD read 0
(70_reset_and_hazards.md R142), and RLEN, RESULT, ROOT, NCOUNT and NLEAVES give any value whose reserved bits are 0
(R16, R28, R30; 93_implementation_defined.md U10), `draws` counting the free values; it says nothing of FREQ then. -/
def Obligations.StableRegistersReadWhileBusy : Prop :=
  ∀ (s : State) (off : Offset) (rest : List HostOp), s.host = .read .w32 off :: rest →
    let stable : List (Offset × Word) :=
      [(0x000, 0x48544231), (0x004, BitVec.ofNat 32 s.lmemLog2.1), (0x008, BitVec.ofNat 32 s.irqEn.toNat),
        (0x00C, s.statusWord), (0x010, 0), (0x018, s.src), (0x01C, s.slen), (0x020, s.dst), (0x024, s.dcap),
        (0x030, BitVec.ofNat 32 (s.lit.toNat + 256 * s.br.toNat))]
    let idleOnly : List (Offset × Word) :=
      [(0x014, s.errcode.word), (0x028, s.rlen), (0x02C, BitVec.ofNat 32 s.result.toNat),
        (0x034, BitVec.ofNat 32 s.root.toNat), (0x038, BitVec.ofNat 32 s.ncount.toNat),
        (0x03C, BitVec.ofNat 32 s.nleaves.toNat)]
    let busyDraws : List (Offset × Nat) := [(0x028, 32), (0x02C, 1), (0x034, 9), (0x038, 10), (0x03C, 10)]
    let gives := fun v => hostTurn s = .next { s with host := rest, reads := v :: s.reads }
    (∀ v, (off, v) ∈ stable → gives v) ∧
    (s.Inv → s.busy = true → off = 0x014 → gives 0) ∧
    (∀ v, s.busy = false → (off, v) ∈ idleOnly → gives v) ∧
    (∀ bits, s.busy = true → (off, bits) ∈ busyDraws → ∃ t v, hostTurn s = .next t ∧
      t = { s with host := rest, reads := v :: s.reads, draws := t.draws } ∧ v.toNat < 2 ^ bits) ∧
    ∀ sym : Symbol, s.busy = false → off.toNat = 0x400 + 4 * sym.toNat → gives (s.freq[sym.toNat]'sym.isLt)

/-- Host accesses of LMEM while BUSY = 0 are little-endian: the byte at address a + i is byte i of the bus value, in a
read and in a write of 1, 2 or 4 bytes, and a write changes no other byte (20_memory.md R52, R53). That a narrow read
gives its data zero-extended and a narrow write stores the low bits of its value is the model's choice (log 19). -/
def Obligations.LmemAccessesAreLittleEndian : Prop :=
  ∀ (s : State) (w : Width) (a : Nat) (off : Offset) (v : Word) (rest : List HostOp), s.busy = false →
    off.toNat = 0x10000 + a → a < s.lmemSize → a % w.bytes = 0 →
    (s.host = .read w off :: rest →
      ∃ x, hostTurn s = .next { s with host := rest, reads := x :: s.reads } ∧ x.toNat < 256 ^ w.bytes ∧
        ∀ i < w.bytes, s.readByte (a + i) = BitVec.ofNat 8 (x.toNat / 256 ^ i)) ∧
    (s.host = .write w off v :: rest →
      ∃ t, hostTurn s = .next t ∧ t = { s with host := rest, lmem := t.lmem } ∧
        (∀ i < w.bytes, t.readByte (a + i) = BitVec.ofNat 8 (v.toNat / 256 ^ i)) ∧
        ∀ b, ¬(a ≤ b ∧ b < a + w.bytes) → t.readByte b = s.readByte b)

/-- 60_exceptions.md R121: a Host write of w to CMD while BUSY = 0 puts w into PEND, sets BUSY, clears DONE, ERRCODE and
RLEN, and checks nothing else. -/
def Obligations.CmdWriteIsTheAcceptance : Prop :=
  ∀ (s : State) (w : Word) (rest : List HostOp), s.busy = false → s.host = .write .w32 0x010 w :: rest →
    hostTurn s = .next { s with
      host := rest, pend := w, busy := true, done := false, errcode := .ok, rlen := 0 }

/-- 60_exceptions.md R128: while BUSY = 1 a permitted write to CMD, SRC, SLEN, DST, DCAP, MARKERS, FREQ or LMEM changes
nothing and sets WHB; writes to CTRL and STATUS take effect as usual; a write to an RO location is ignored, and a
refused access is a bus error, whether BUSY is 0 or 1. -/
def Obligations.WritesWhileBusyAreDropped : Prop :=
  ∀ (s : State) (w : Width) (off : Offset) (v : Word) (rest : List HostOp), s.host = .write w off v :: rest →
    let o := off.toNat
    let s' := { s with host := rest }
    (classify s.lmemSize w off ≠ none →
      (s.busy = true →
        o ∈ [0x010, 0x018, 0x01C, 0x020, 0x024, 0x030] ∨ (0x400 ≤ o ∧ o < 0x800) ∨ 0x10000 ≤ o →
        hostTurn s = .next { s' with whb := true }) ∧
      (o = 0x008 →
        (v.getLsbD 1 = false → hostTurn s = .next { s' with irqEn := v.getLsbD 0 }) ∧
        (v.getLsbD 1 = true → hostTurn s = .next s'.softReset)) ∧
      (o = 0x00C →
        hostTurn s = .next { s' with done := s.done && !v.getLsbD 1, whb := s.whb && !v.getLsbD 4 }) ∧
      (o ∈ [0x000, 0x004, 0x014, 0x028, 0x02C, 0x034, 0x038, 0x03C] ∨ (0x2000 ≤ o ∧ o < 0x8000) →
        hostTurn s = .next s')) ∧
    (classify s.lmemSize w off = none → hostTurn s = .fault .busError)

/-- While BUSY = 0 a Host write of SRC, SLEN, DST, DCAP, MARKERS or FREQ[s] stores the value and changes nothing else;
of MARKERS only bits [15:0] are stored (10_state.md R16, R25, R26, R27). -/
def Obligations.IdleWritesStoreTheValue : Prop :=
  ∀ (s : State) (v : Word) (sym : Symbol) (off : Offset) (rest : List HostOp), s.busy = false →
    s.host = .write .w32 off v :: rest →
    (off = 0x018 → hostTurn s = .next { s with host := rest, src := v }) ∧
    (off = 0x01C → hostTurn s = .next { s with host := rest, slen := v }) ∧
    (off = 0x020 → hostTurn s = .next { s with host := rest, dst := v }) ∧
    (off = 0x024 → hostTurn s = .next { s with host := rest, dcap := v }) ∧
    (off = 0x030 → hostTurn s = .next { s with
      host := rest, lit := BitVec.ofNat 8 v.toNat, br := BitVec.ofNat 8 (v.toNat / 256) }) ∧
    (off.toNat = 0x400 + 4 * sym.toNat → ∃ t, hostTurn s = .next t ∧
      t = { s with host := rest, freq := t.freq } ∧ t.freq[sym.toNat]'sym.isLt = v ∧
      ∀ sym' : Symbol, sym' ≠ sym → t.freq[sym'.toNat]'sym'.isLt = s.freq[sym'.toNat]'sym'.isLt)

/-- 60_exceptions.md R123 and R124: IRQ is high exactly while DONE = 1 and IRQ_EN = 1; it goes high with the completion
of any command when enabled; a write of 1 to DONE, an acceptance, a write of IRQ_EN = 0 (which keeps DONE) and both
resets lower it; enabling it while DONE = 1 raises it. -/
def Obligations.IrqFollowsDoneAndEnable : Prop :=
  ∀ s : State,
    (s.irq = true ↔ s.done = true ∧ s.irqEn = true) ∧
    (∀ t, s.irqEn = true → engineStep s = .next t → t.irq = true) ∧
    (∀ v rest, s.host = .write .w32 0x00C v :: rest → v.getLsbD 1 = true →
      ∃ t, hostTurn s = .next t ∧ t.irq = false ∧ t.done = false) ∧
    (∀ v rest, s.busy = false → s.host = .write .w32 0x010 v :: rest →
      ∃ t, hostTurn s = .next t ∧ t.irq = false ∧ t.done = false) ∧
    (∀ v rest, s.host = .write .w32 0x008 v :: rest → v.getLsbD 1 = false →
      ∃ t, hostTurn s = .next t ∧ t.done = s.done ∧ t.irq = (s.done && v.getLsbD 0)) ∧
    s.softReset.irq = false ∧ s.hardReset.irq = false

/-- 70_reset_and_hazards.md R138: a write of CTRL with bit 1 = 1 puts every register, FREQ and CT at its reset value,
whether BUSY is 0 or 1, and LMEM keeps every byte but those of the destination window of an abandoned ENCODE, DECODE
or SERIALIZE whose window lies in LMEM. PEND and the window's bytes are free values (log 6, log 8). -/
def Obligations.SoftResetRestoresTheRegisters : Prop :=
  ∀ (s : State) (v : Word) (rest : List HostOp), s.host = .write .w32 0x008 v :: rest → v.getLsbD 1 = true →
    ∃ t, hostTurn s = .next t ∧
      t = { State.reset with
        lmemLog2 := s.lmemLog2, lmem := t.lmem, lmemEpoch := s.lmemEpoch, pend := t.pend, host := rest,
        reads := s.reads, turns := s.turns, draws := t.draws } ∧
      ∀ a, (s.busy = true →
          decodeCmd s.pend = .ok .encode ∨ decodeCmd s.pend = .ok .decode ∨ decodeCmd s.pend = .ok .serialize →
          s.dst.toNat + s.dcap.toNat ≤ s.lmemSize → ¬(s.dst.toNat ≤ a ∧ a < s.dst.toNat + s.dcap.toNat)) →
        t.readByte a = s.readByte a

/-- 70_reset_and_hazards.md R136: after a hard reset every register, FREQ and CT is at its reset value and there is no
tree. That it is a turn that keeps the Host's transactions, its reads and the turns (log 18), that LMEM then lists no
byte (log 5) and that PEND is a free word (log 8) are the model's choices. -/
def Obligations.HardResetRestoresTheRegisters : Prop :=
  ∀ (s : State) (ts : List Turn), s.turns = .hardReset :: ts →
    ∃ t, step s = .next t ∧
      t = { State.reset with
        lmemLog2 := s.lmemLog2, lmemEpoch := t.lmemEpoch, pend := t.pend, host := s.host, reads := s.reads,
        turns := ts, draws := t.draws }

/-- The words the 16 registers read as right after reset, and every FREQ word 0, every code-table word 0 and IRQ low
(10_state.md R38; PARAMS with the spec's LMEM_SIZE, log 9). -/
def Obligations.RegistersReadTheirResetValues : Prop :=
  (List.range 16).map (fun k => State.reset.regWord (Reg.ofIndex k)) =
    [0x48544231, 0x00000010, 0, 0, 0, 0, 0, 0, 0, 0, 0, 0, 0x0000424C, 0x000001FF, 0, 0] ∧
  (∀ sym : Symbol, State.reset.readTarget .w32 (.freq sym) = some 0) ∧
  (∀ (sym : Symbol) (k : Nat), State.reset.readTarget .w32 (.ct sym k) = some 0) ∧
  State.reset.irq = false

/-- The Host's view of the arena while idle: for an entry of the current tree the words at +0x0, +0x4, +0x8 and +0xC are
INFO, FREQ, LEFT and RIGHT (10_state.md R29). -/
def Obligations.ArenaReadsShowTheNodes : Prop :=
  ∀ (s : State) (i : Nat) (off : Offset) (rest : List HostOp), s.busy = false → s.treeValid = true →
    i < s.ncount.toNat → i < 511 → s.host = .read .w32 off :: rest →
    let n := arenaAt s.nodes i
    (off.toNat = 0x2000 + 16 * i → ∃ x, hostTurn s = .next { s with host := rest, reads := x :: s.reads } ∧
      x.toNat = n.isBranch.toNat + 256 * n.sym.toNat) ∧
    (off.toNat = 0x2004 + 16 * i → hostTurn s = .next { s with host := rest, reads := n.freq :: s.reads }) ∧
    (off.toNat = 0x2008 + 16 * i →
      hostTurn s = .next { s with host := rest, reads := n.left.setWidth 32 :: s.reads }) ∧
    (off.toNat = 0x200C + 16 * i →
      hostTurn s = .next { s with host := rest, reads := n.right.setWidth 32 :: s.reads })

/-- The Host's view of the code table while idle, by offset: word k of CT[s] stands at 0x4000 + 64*s + 4*k; CTINFO, word
0, holds len in bits [7:0] and valid in bit 31, bit i of BITS_w, word w + 1, is code symbol 32*w + i, bits past the code
read 0, an invalid entry reads 0 in every word, and no code is longer than 255 code symbols (10_state.md R32,
20_memory.md R46, 41_code_table.md R90). -/
def Obligations.CodeTableReadsShowTheCodes : Prop :=
  ∀ (s : State) (sym : Symbol) (off : Offset) (rest : List HostOp), s.Inv → s.busy = false →
    s.host = .read .w32 off :: rest →
    let gives := fun v => hostTurn s = .next { s with host := rest, reads := v :: s.reads }
    (codeOf s.ct sym = none → ∀ k < 9, off.toNat = 0x4000 + 64 * sym.toNat + 4 * k → gives 0) ∧
    (∀ path, codeOf s.ct sym = some path → path.length ≤ 255 ∧
      (off.toNat = 0x4000 + 64 * sym.toNat → gives (BitVec.ofNat 32 (path.length + 2 ^ 31))) ∧
      ∀ w < 8, off.toNat = 0x4000 + 64 * sym.toNat + 4 * (w + 1) →
        ∃ v, gives v ∧ ∀ i < 32, v.getLsbD i = path.getD (32 * w + i) false)

/-! ### The whole machine -/

/-- The state right after reset meets the invariant (10_state.md R24, R30, R33; 70_reset_and_hazards.md R136). -/
def Obligations.InvariantHoldsAtReset : Prop := State.reset.Inv

/-- From every state that meets the invariant, a step gives a state that meets it: LMEM keeps its canonical form, the
arena and its registers hold a tree or nothing (10_state.md R24, R30, R31), the code table is the current tree's or
empty (R33), a pending command has not ended (60_exceptions.md R121), and RLEN is 0 after every error (R119). -/
def Obligations.StepKeepsTheInvariant : Prop :=
  ∀ s t : State, s.Inv → step s = .next t → t.Inv

/-- 60_exceptions.md R120: a command that ends with E_LOOKUP_MISS, and only that, sets FATAL, and only a hard reset or a
soft reset clears it; while it is 1 a pending command's Engine step ends with E_FATAL and changes nothing else. -/
def Obligations.FatalChangesOnlyByLookupMissAndReset : Prop :=
  ∀ s t : State, step s = .next t →
    (s.busy = true → t.busy = false → t.errcode = .lookupMiss → t.fatal = true) ∧
    (s.fatal = false → t.fatal = true → s.busy = true ∧ t.busy = false ∧ t.errcode = .lookupMiss) ∧
    (s.fatal = true → t.fatal = false →
      (∃ ts, s.turns = .hardReset :: ts) ∨
        ∃ v rest, s.host = .write .w32 0x008 v :: rest ∧ v.getLsbD 1 = true) ∧
    (s.fatal = true → s.busy = true → s.turns.head? ≠ some .host → s.turns.head? ≠ some .hardReset →
      t = { s with turns := s.turns.tail, errcode := .fatal, busy := false, done := true })

/-- 10_state.md R24: only BUILD and DESERIALIZE set TREE_VALID; only TEARDOWN, a DESERIALIZE that fails and a reset
clear it. -/
def Obligations.TreeValidChangesOnlyByItsCommands : Prop :=
  ∀ s t : State, step s = .next t →
    (s.treeValid = false → t.treeValid = true →
      s.busy = true ∧ t.errcode = .ok ∧ (decodeCmd s.pend = .ok .build ∨ decodeCmd s.pend = .ok .deserialize)) ∧
    (s.treeValid = true → t.treeValid = false →
      (s.busy = true ∧ t.errcode = .ok ∧ decodeCmd s.pend = .ok .teardown) ∨
      (s.busy = true ∧ t.errcode ≠ .ok ∧ decodeCmd s.pend = .ok .deserialize) ∨
      (∃ ts, s.turns = .hardReset :: ts) ∨
      ∃ v rest, s.host = .write .w32 0x008 v :: rest ∧ v.getLsbD 1 = true)

/-- Only a GENCODES that succeeds sets TABLE_VALID, and BUILD, DESERIALIZE, TEARDOWN, a GENCODES that fails with
E_DUP_LEAF and a reset alone clear it, each with every CT entry (10_state.md R33). -/
def Obligations.TableValidChangesOnlyByItsCommands : Prop :=
  ∀ s t : State, step s = .next t →
    (s.tableValid = false → t.tableValid = true →
      s.busy = true ∧ t.errcode = .ok ∧ decodeCmd s.pend = .ok .gencodes) ∧
    (s.tableValid = true → t.tableValid = false →
      t.ct = Vector.replicate 256 none ∧
      ((s.busy = true ∧ (decodeCmd s.pend = .ok .build ∨ decodeCmd s.pend = .ok .deserialize ∨
          decodeCmd s.pend = .ok .teardown ∨ (decodeCmd s.pend = .ok .gencodes ∧ t.errcode = .dupLeaf))) ∨
        (∃ ts, s.turns = .hardReset :: ts) ∨
        ∃ v rest, s.host = .write .w32 0x008 v :: rest ∧ v.getLsbD 1 = true))

/-- Every accepted command ends unless a reset abandons it: from a state with a pending command, within one step more
than there are turns, either BUSY is 0 or the Host program has met a bus error (70_reset_and_hazards.md R149's weak
fairness, which the model's turns give, log 2). -/
def Obligations.PendingCommandsAreRun : Prop :=
  ∀ s : State, s.Inv → s.busy = true →
    ∃ k ≤ s.turns.length + 1,
      (∃ t, Sys2Proof.core.run k s = .next t ∧ t.busy = false) ∨ Sys2Proof.core.run k s = .fault .busError

/-- 10_state.md R31 item 5, reachability: every entry of the current tree is reached from ROOT by some path. -/
def Obligations.EveryArenaEntryIsReachable : Prop :=
  ∀ s : State, s.TreeOk → s.treeValid = true → ∀ i < s.nodes.length,
    ∃ path idx, walkPath s.nodes s.root path = some idx ∧ idx.toNat = i
end

