-- ==== Sys2Proof/Laws/State.lean ====
section
/-! SUPPORT. What each named update of the state does to each field: one lemma a field and update, true by rfl. -/

namespace Sys2Proof.Machine

variable (s : State)

/-! `accept` -/
@[simp] theorem State.accept_lmemLog2 (w : Word) : (s.accept w).lmemLog2 = s.lmemLog2 := rfl
@[simp] theorem State.accept_irqEn (w : Word) : (s.accept w).irqEn = s.irqEn := rfl
@[simp] theorem State.accept_busy (w : Word) : (s.accept w).busy = true := rfl
@[simp] theorem State.accept_done (w : Word) : (s.accept w).done = false := rfl
@[simp] theorem State.accept_fatal (w : Word) : (s.accept w).fatal = s.fatal := rfl
@[simp] theorem State.accept_whb (w : Word) : (s.accept w).whb = s.whb := rfl
@[simp] theorem State.accept_treeValid (w : Word) : (s.accept w).treeValid = s.treeValid := rfl
@[simp] theorem State.accept_tableValid (w : Word) : (s.accept w).tableValid = s.tableValid := rfl
@[simp] theorem State.accept_errcode (w : Word) : (s.accept w).errcode = .ok := rfl
@[simp] theorem State.accept_src (w : Word) : (s.accept w).src = s.src := rfl
@[simp] theorem State.accept_slen (w : Word) : (s.accept w).slen = s.slen := rfl
@[simp] theorem State.accept_dst (w : Word) : (s.accept w).dst = s.dst := rfl
@[simp] theorem State.accept_dcap (w : Word) : (s.accept w).dcap = s.dcap := rfl
@[simp] theorem State.accept_rlen (w : Word) : (s.accept w).rlen = 0 := rfl
@[simp] theorem State.accept_result (w : Word) : (s.accept w).result = s.result := rfl
@[simp] theorem State.accept_lit (w : Word) : (s.accept w).lit = s.lit := rfl
@[simp] theorem State.accept_br (w : Word) : (s.accept w).br = s.br := rfl
@[simp] theorem State.accept_root (w : Word) : (s.accept w).root = s.root := rfl
@[simp] theorem State.accept_ncount (w : Word) : (s.accept w).ncount = s.ncount := rfl
@[simp] theorem State.accept_nleaves (w : Word) : (s.accept w).nleaves = s.nleaves := rfl
@[simp] theorem State.accept_freq (w : Word) : (s.accept w).freq = s.freq := rfl
@[simp] theorem State.accept_nodes (w : Word) : (s.accept w).nodes = s.nodes := rfl
@[simp] theorem State.accept_ct (w : Word) : (s.accept w).ct = s.ct := rfl
@[simp] theorem State.accept_lmem (w : Word) : (s.accept w).lmem = s.lmem := rfl
@[simp] theorem State.accept_pend (w : Word) : (s.accept w).pend = w := rfl
@[simp] theorem State.accept_host (w : Word) : (s.accept w).host = s.host := rfl
@[simp] theorem State.accept_reads (w : Word) : (s.accept w).reads = s.reads := rfl
@[simp] theorem State.accept_turns (w : Word) : (s.accept w).turns = s.turns := rfl
@[simp] theorem State.accept_draws (w : Word) : (s.accept w).draws = s.draws := rfl
@[simp] theorem State.accept_lmemEpoch (w : Word) : (s.accept w).lmemEpoch = s.lmemEpoch := rfl

/-! `finish` -/
@[simp] theorem State.finish_lmemLog2 (e : ErrCode) : (s.finish e).lmemLog2 = s.lmemLog2 := rfl
@[simp] theorem State.finish_irqEn (e : ErrCode) : (s.finish e).irqEn = s.irqEn := rfl
@[simp] theorem State.finish_busy (e : ErrCode) : (s.finish e).busy = false := rfl
@[simp] theorem State.finish_done (e : ErrCode) : (s.finish e).done = true := rfl
@[simp] theorem State.finish_fatal (e : ErrCode) : (s.finish e).fatal = s.fatal := rfl
@[simp] theorem State.finish_whb (e : ErrCode) : (s.finish e).whb = s.whb := rfl
@[simp] theorem State.finish_treeValid (e : ErrCode) : (s.finish e).treeValid = s.treeValid := rfl
@[simp] theorem State.finish_tableValid (e : ErrCode) : (s.finish e).tableValid = s.tableValid := rfl
@[simp] theorem State.finish_errcode (e : ErrCode) : (s.finish e).errcode = e := rfl
@[simp] theorem State.finish_src (e : ErrCode) : (s.finish e).src = s.src := rfl
@[simp] theorem State.finish_slen (e : ErrCode) : (s.finish e).slen = s.slen := rfl
@[simp] theorem State.finish_dst (e : ErrCode) : (s.finish e).dst = s.dst := rfl
@[simp] theorem State.finish_dcap (e : ErrCode) : (s.finish e).dcap = s.dcap := rfl
@[simp] theorem State.finish_rlen (e : ErrCode) : (s.finish e).rlen = s.rlen := rfl
@[simp] theorem State.finish_result (e : ErrCode) : (s.finish e).result = s.result := rfl
@[simp] theorem State.finish_lit (e : ErrCode) : (s.finish e).lit = s.lit := rfl
@[simp] theorem State.finish_br (e : ErrCode) : (s.finish e).br = s.br := rfl
@[simp] theorem State.finish_root (e : ErrCode) : (s.finish e).root = s.root := rfl
@[simp] theorem State.finish_ncount (e : ErrCode) : (s.finish e).ncount = s.ncount := rfl
@[simp] theorem State.finish_nleaves (e : ErrCode) : (s.finish e).nleaves = s.nleaves := rfl
@[simp] theorem State.finish_freq (e : ErrCode) : (s.finish e).freq = s.freq := rfl
@[simp] theorem State.finish_nodes (e : ErrCode) : (s.finish e).nodes = s.nodes := rfl
@[simp] theorem State.finish_ct (e : ErrCode) : (s.finish e).ct = s.ct := rfl
@[simp] theorem State.finish_lmem (e : ErrCode) : (s.finish e).lmem = s.lmem := rfl
@[simp] theorem State.finish_pend (e : ErrCode) : (s.finish e).pend = s.pend := rfl
@[simp] theorem State.finish_host (e : ErrCode) : (s.finish e).host = s.host := rfl
@[simp] theorem State.finish_reads (e : ErrCode) : (s.finish e).reads = s.reads := rfl
@[simp] theorem State.finish_turns (e : ErrCode) : (s.finish e).turns = s.turns := rfl
@[simp] theorem State.finish_draws (e : ErrCode) : (s.finish e).draws = s.draws := rfl
@[simp] theorem State.finish_lmemEpoch (e : ErrCode) : (s.finish e).lmemEpoch = s.lmemEpoch := rfl

/-! `clearTable` -/
@[simp] theorem State.clearTable_lmemLog2 : s.clearTable.lmemLog2 = s.lmemLog2 := rfl
@[simp] theorem State.clearTable_irqEn : s.clearTable.irqEn = s.irqEn := rfl
@[simp] theorem State.clearTable_busy : s.clearTable.busy = s.busy := rfl
@[simp] theorem State.clearTable_done : s.clearTable.done = s.done := rfl
@[simp] theorem State.clearTable_fatal : s.clearTable.fatal = s.fatal := rfl
@[simp] theorem State.clearTable_whb : s.clearTable.whb = s.whb := rfl
@[simp] theorem State.clearTable_treeValid : s.clearTable.treeValid = s.treeValid := rfl
@[simp] theorem State.clearTable_tableValid : s.clearTable.tableValid = false := rfl
@[simp] theorem State.clearTable_errcode : s.clearTable.errcode = s.errcode := rfl
@[simp] theorem State.clearTable_src : s.clearTable.src = s.src := rfl
@[simp] theorem State.clearTable_slen : s.clearTable.slen = s.slen := rfl
@[simp] theorem State.clearTable_dst : s.clearTable.dst = s.dst := rfl
@[simp] theorem State.clearTable_dcap : s.clearTable.dcap = s.dcap := rfl
@[simp] theorem State.clearTable_rlen : s.clearTable.rlen = s.rlen := rfl
@[simp] theorem State.clearTable_result : s.clearTable.result = s.result := rfl
@[simp] theorem State.clearTable_lit : s.clearTable.lit = s.lit := rfl
@[simp] theorem State.clearTable_br : s.clearTable.br = s.br := rfl
@[simp] theorem State.clearTable_root : s.clearTable.root = s.root := rfl
@[simp] theorem State.clearTable_ncount : s.clearTable.ncount = s.ncount := rfl
@[simp] theorem State.clearTable_nleaves : s.clearTable.nleaves = s.nleaves := rfl
@[simp] theorem State.clearTable_freq : s.clearTable.freq = s.freq := rfl
@[simp] theorem State.clearTable_nodes : s.clearTable.nodes = s.nodes := rfl
@[simp] theorem State.clearTable_ct : s.clearTable.ct = Vector.replicate 256 none := rfl
@[simp] theorem State.clearTable_lmem : s.clearTable.lmem = s.lmem := rfl
@[simp] theorem State.clearTable_pend : s.clearTable.pend = s.pend := rfl
@[simp] theorem State.clearTable_host : s.clearTable.host = s.host := rfl
@[simp] theorem State.clearTable_reads : s.clearTable.reads = s.reads := rfl
@[simp] theorem State.clearTable_turns : s.clearTable.turns = s.turns := rfl
@[simp] theorem State.clearTable_draws : s.clearTable.draws = s.draws := rfl
@[simp] theorem State.clearTable_lmemEpoch : s.clearTable.lmemEpoch = s.lmemEpoch := rfl

/-! `clearTree` -/
@[simp] theorem State.clearTree_lmemLog2 : s.clearTree.lmemLog2 = s.lmemLog2 := rfl
@[simp] theorem State.clearTree_irqEn : s.clearTree.irqEn = s.irqEn := rfl
@[simp] theorem State.clearTree_busy : s.clearTree.busy = s.busy := rfl
@[simp] theorem State.clearTree_done : s.clearTree.done = s.done := rfl
@[simp] theorem State.clearTree_fatal : s.clearTree.fatal = s.fatal := rfl
@[simp] theorem State.clearTree_whb : s.clearTree.whb = s.whb := rfl
@[simp] theorem State.clearTree_treeValid : s.clearTree.treeValid = false := rfl
@[simp] theorem State.clearTree_tableValid : s.clearTree.tableValid = false := rfl
@[simp] theorem State.clearTree_errcode : s.clearTree.errcode = s.errcode := rfl
@[simp] theorem State.clearTree_src : s.clearTree.src = s.src := rfl
@[simp] theorem State.clearTree_slen : s.clearTree.slen = s.slen := rfl
@[simp] theorem State.clearTree_dst : s.clearTree.dst = s.dst := rfl
@[simp] theorem State.clearTree_dcap : s.clearTree.dcap = s.dcap := rfl
@[simp] theorem State.clearTree_rlen : s.clearTree.rlen = s.rlen := rfl
@[simp] theorem State.clearTree_result : s.clearTree.result = s.result := rfl
@[simp] theorem State.clearTree_lit : s.clearTree.lit = s.lit := rfl
@[simp] theorem State.clearTree_br : s.clearTree.br = s.br := rfl
@[simp] theorem State.clearTree_root : s.clearTree.root = Config.nil := rfl
@[simp] theorem State.clearTree_ncount : s.clearTree.ncount = 0 := rfl
@[simp] theorem State.clearTree_nleaves : s.clearTree.nleaves = 0 := rfl
@[simp] theorem State.clearTree_freq : s.clearTree.freq = s.freq := rfl
@[simp] theorem State.clearTree_nodes : s.clearTree.nodes = [] := rfl
@[simp] theorem State.clearTree_ct : s.clearTree.ct = Vector.replicate 256 none := rfl
@[simp] theorem State.clearTree_lmem : s.clearTree.lmem = s.lmem := rfl
@[simp] theorem State.clearTree_pend : s.clearTree.pend = s.pend := rfl
@[simp] theorem State.clearTree_host : s.clearTree.host = s.host := rfl
@[simp] theorem State.clearTree_reads : s.clearTree.reads = s.reads := rfl
@[simp] theorem State.clearTree_turns : s.clearTree.turns = s.turns := rfl
@[simp] theorem State.clearTree_draws : s.clearTree.draws = s.draws := rfl
@[simp] theorem State.clearTree_lmemEpoch : s.clearTree.lmemEpoch = s.lmemEpoch := rfl

/-! `installTree` -/
@[simp] theorem State.installTree_lmemLog2 (nodes : List Node) (leaves : Nat) : (s.installTree nodes leaves).lmemLog2 = s.lmemLog2 := rfl
@[simp] theorem State.installTree_irqEn (nodes : List Node) (leaves : Nat) : (s.installTree nodes leaves).irqEn = s.irqEn := rfl
@[simp] theorem State.installTree_busy (nodes : List Node) (leaves : Nat) : (s.installTree nodes leaves).busy = s.busy := rfl
@[simp] theorem State.installTree_done (nodes : List Node) (leaves : Nat) : (s.installTree nodes leaves).done = s.done := rfl
@[simp] theorem State.installTree_fatal (nodes : List Node) (leaves : Nat) : (s.installTree nodes leaves).fatal = s.fatal := rfl
@[simp] theorem State.installTree_whb (nodes : List Node) (leaves : Nat) : (s.installTree nodes leaves).whb = s.whb := rfl
@[simp] theorem State.installTree_treeValid (nodes : List Node) (leaves : Nat) : (s.installTree nodes leaves).treeValid = true := rfl
@[simp] theorem State.installTree_tableValid (nodes : List Node) (leaves : Nat) : (s.installTree nodes leaves).tableValid = false := rfl
@[simp] theorem State.installTree_errcode (nodes : List Node) (leaves : Nat) : (s.installTree nodes leaves).errcode = s.errcode := rfl
@[simp] theorem State.installTree_src (nodes : List Node) (leaves : Nat) : (s.installTree nodes leaves).src = s.src := rfl
@[simp] theorem State.installTree_slen (nodes : List Node) (leaves : Nat) : (s.installTree nodes leaves).slen = s.slen := rfl
@[simp] theorem State.installTree_dst (nodes : List Node) (leaves : Nat) : (s.installTree nodes leaves).dst = s.dst := rfl
@[simp] theorem State.installTree_dcap (nodes : List Node) (leaves : Nat) : (s.installTree nodes leaves).dcap = s.dcap := rfl
@[simp] theorem State.installTree_rlen (nodes : List Node) (leaves : Nat) : (s.installTree nodes leaves).rlen = s.rlen := rfl
@[simp] theorem State.installTree_result (nodes : List Node) (leaves : Nat) : (s.installTree nodes leaves).result = s.result := rfl
@[simp] theorem State.installTree_lit (nodes : List Node) (leaves : Nat) : (s.installTree nodes leaves).lit = s.lit := rfl
@[simp] theorem State.installTree_br (nodes : List Node) (leaves : Nat) : (s.installTree nodes leaves).br = s.br := rfl
@[simp] theorem State.installTree_root (nodes : List Node) (leaves : Nat) : (s.installTree nodes leaves).root = BitVec.ofNat 9 (nodes.length - 1) := rfl
@[simp] theorem State.installTree_ncount (nodes : List Node) (leaves : Nat) : (s.installTree nodes leaves).ncount = BitVec.ofNat 10 nodes.length := rfl
@[simp] theorem State.installTree_nleaves (nodes : List Node) (leaves : Nat) : (s.installTree nodes leaves).nleaves = BitVec.ofNat 10 leaves := rfl
@[simp] theorem State.installTree_freq (nodes : List Node) (leaves : Nat) : (s.installTree nodes leaves).freq = s.freq := rfl
@[simp] theorem State.installTree_nodes (nodes : List Node) (leaves : Nat) : (s.installTree nodes leaves).nodes = nodes := rfl
@[simp] theorem State.installTree_ct (nodes : List Node) (leaves : Nat) : (s.installTree nodes leaves).ct = Vector.replicate 256 none := rfl
@[simp] theorem State.installTree_lmem (nodes : List Node) (leaves : Nat) : (s.installTree nodes leaves).lmem = s.lmem := rfl
@[simp] theorem State.installTree_pend (nodes : List Node) (leaves : Nat) : (s.installTree nodes leaves).pend = s.pend := rfl
@[simp] theorem State.installTree_host (nodes : List Node) (leaves : Nat) : (s.installTree nodes leaves).host = s.host := rfl
@[simp] theorem State.installTree_reads (nodes : List Node) (leaves : Nat) : (s.installTree nodes leaves).reads = s.reads := rfl
@[simp] theorem State.installTree_turns (nodes : List Node) (leaves : Nat) : (s.installTree nodes leaves).turns = s.turns := rfl
@[simp] theorem State.installTree_draws (nodes : List Node) (leaves : Nat) : (s.installTree nodes leaves).draws = s.draws := rfl
@[simp] theorem State.installTree_lmemEpoch (nodes : List Node) (leaves : Nat) : (s.installTree nodes leaves).lmemEpoch = s.lmemEpoch := rfl

/-! `writeBytes` -/
@[simp] theorem State.writeBytes_lmemLog2 (a : Nat) (vs : List Byte) : (s.writeBytes a vs).lmemLog2 = s.lmemLog2 := rfl
@[simp] theorem State.writeBytes_irqEn (a : Nat) (vs : List Byte) : (s.writeBytes a vs).irqEn = s.irqEn := rfl
@[simp] theorem State.writeBytes_busy (a : Nat) (vs : List Byte) : (s.writeBytes a vs).busy = s.busy := rfl
@[simp] theorem State.writeBytes_done (a : Nat) (vs : List Byte) : (s.writeBytes a vs).done = s.done := rfl
@[simp] theorem State.writeBytes_fatal (a : Nat) (vs : List Byte) : (s.writeBytes a vs).fatal = s.fatal := rfl
@[simp] theorem State.writeBytes_whb (a : Nat) (vs : List Byte) : (s.writeBytes a vs).whb = s.whb := rfl
@[simp] theorem State.writeBytes_treeValid (a : Nat) (vs : List Byte) : (s.writeBytes a vs).treeValid = s.treeValid := rfl
@[simp] theorem State.writeBytes_tableValid (a : Nat) (vs : List Byte) : (s.writeBytes a vs).tableValid = s.tableValid := rfl
@[simp] theorem State.writeBytes_errcode (a : Nat) (vs : List Byte) : (s.writeBytes a vs).errcode = s.errcode := rfl
@[simp] theorem State.writeBytes_src (a : Nat) (vs : List Byte) : (s.writeBytes a vs).src = s.src := rfl
@[simp] theorem State.writeBytes_slen (a : Nat) (vs : List Byte) : (s.writeBytes a vs).slen = s.slen := rfl
@[simp] theorem State.writeBytes_dst (a : Nat) (vs : List Byte) : (s.writeBytes a vs).dst = s.dst := rfl
@[simp] theorem State.writeBytes_dcap (a : Nat) (vs : List Byte) : (s.writeBytes a vs).dcap = s.dcap := rfl
@[simp] theorem State.writeBytes_rlen (a : Nat) (vs : List Byte) : (s.writeBytes a vs).rlen = s.rlen := rfl
@[simp] theorem State.writeBytes_result (a : Nat) (vs : List Byte) : (s.writeBytes a vs).result = s.result := rfl
@[simp] theorem State.writeBytes_lit (a : Nat) (vs : List Byte) : (s.writeBytes a vs).lit = s.lit := rfl
@[simp] theorem State.writeBytes_br (a : Nat) (vs : List Byte) : (s.writeBytes a vs).br = s.br := rfl
@[simp] theorem State.writeBytes_root (a : Nat) (vs : List Byte) : (s.writeBytes a vs).root = s.root := rfl
@[simp] theorem State.writeBytes_ncount (a : Nat) (vs : List Byte) : (s.writeBytes a vs).ncount = s.ncount := rfl
@[simp] theorem State.writeBytes_nleaves (a : Nat) (vs : List Byte) : (s.writeBytes a vs).nleaves = s.nleaves := rfl
@[simp] theorem State.writeBytes_freq (a : Nat) (vs : List Byte) : (s.writeBytes a vs).freq = s.freq := rfl
@[simp] theorem State.writeBytes_nodes (a : Nat) (vs : List Byte) : (s.writeBytes a vs).nodes = s.nodes := rfl
@[simp] theorem State.writeBytes_ct (a : Nat) (vs : List Byte) : (s.writeBytes a vs).ct = s.ct := rfl
@[simp] theorem State.writeBytes_lmem (a : Nat) (vs : List Byte) : (s.writeBytes a vs).lmem = Memory.writeBytes s.lmem a vs := rfl
@[simp] theorem State.writeBytes_pend (a : Nat) (vs : List Byte) : (s.writeBytes a vs).pend = s.pend := rfl
@[simp] theorem State.writeBytes_host (a : Nat) (vs : List Byte) : (s.writeBytes a vs).host = s.host := rfl
@[simp] theorem State.writeBytes_reads (a : Nat) (vs : List Byte) : (s.writeBytes a vs).reads = s.reads := rfl
@[simp] theorem State.writeBytes_turns (a : Nat) (vs : List Byte) : (s.writeBytes a vs).turns = s.turns := rfl
@[simp] theorem State.writeBytes_draws (a : Nat) (vs : List Byte) : (s.writeBytes a vs).draws = s.draws := rfl
@[simp] theorem State.writeBytes_lmemEpoch (a : Nat) (vs : List Byte) : (s.writeBytes a vs).lmemEpoch = s.lmemEpoch := rfl

/-! `havoc` -/
@[simp] theorem State.havoc_lmemLog2 (a n : Nat) : (s.havoc a n).lmemLog2 = s.lmemLog2 := rfl
@[simp] theorem State.havoc_irqEn (a n : Nat) : (s.havoc a n).irqEn = s.irqEn := rfl
@[simp] theorem State.havoc_busy (a n : Nat) : (s.havoc a n).busy = s.busy := rfl
@[simp] theorem State.havoc_done (a n : Nat) : (s.havoc a n).done = s.done := rfl
@[simp] theorem State.havoc_fatal (a n : Nat) : (s.havoc a n).fatal = s.fatal := rfl
@[simp] theorem State.havoc_whb (a n : Nat) : (s.havoc a n).whb = s.whb := rfl
@[simp] theorem State.havoc_treeValid (a n : Nat) : (s.havoc a n).treeValid = s.treeValid := rfl
@[simp] theorem State.havoc_tableValid (a n : Nat) : (s.havoc a n).tableValid = s.tableValid := rfl
@[simp] theorem State.havoc_errcode (a n : Nat) : (s.havoc a n).errcode = s.errcode := rfl
@[simp] theorem State.havoc_src (a n : Nat) : (s.havoc a n).src = s.src := rfl
@[simp] theorem State.havoc_slen (a n : Nat) : (s.havoc a n).slen = s.slen := rfl
@[simp] theorem State.havoc_dst (a n : Nat) : (s.havoc a n).dst = s.dst := rfl
@[simp] theorem State.havoc_dcap (a n : Nat) : (s.havoc a n).dcap = s.dcap := rfl
@[simp] theorem State.havoc_rlen (a n : Nat) : (s.havoc a n).rlen = s.rlen := rfl
@[simp] theorem State.havoc_result (a n : Nat) : (s.havoc a n).result = s.result := rfl
@[simp] theorem State.havoc_lit (a n : Nat) : (s.havoc a n).lit = s.lit := rfl
@[simp] theorem State.havoc_br (a n : Nat) : (s.havoc a n).br = s.br := rfl
@[simp] theorem State.havoc_root (a n : Nat) : (s.havoc a n).root = s.root := rfl
@[simp] theorem State.havoc_ncount (a n : Nat) : (s.havoc a n).ncount = s.ncount := rfl
@[simp] theorem State.havoc_nleaves (a n : Nat) : (s.havoc a n).nleaves = s.nleaves := rfl
@[simp] theorem State.havoc_freq (a n : Nat) : (s.havoc a n).freq = s.freq := rfl
@[simp] theorem State.havoc_nodes (a n : Nat) : (s.havoc a n).nodes = s.nodes := rfl
@[simp] theorem State.havoc_ct (a n : Nat) : (s.havoc a n).ct = s.ct := rfl
@[simp] theorem State.havoc_lmem (a n : Nat) : (s.havoc a n).lmem = Memory.writeBytes s.lmem a (freeBytes s.draws a n) := rfl
@[simp] theorem State.havoc_pend (a n : Nat) : (s.havoc a n).pend = s.pend := rfl
@[simp] theorem State.havoc_host (a n : Nat) : (s.havoc a n).host = s.host := rfl
@[simp] theorem State.havoc_reads (a n : Nat) : (s.havoc a n).reads = s.reads := rfl
@[simp] theorem State.havoc_turns (a n : Nat) : (s.havoc a n).turns = s.turns := rfl
@[simp] theorem State.havoc_draws (a n : Nat) : (s.havoc a n).draws = s.draws + 1 := rfl
@[simp] theorem State.havoc_lmemEpoch (a n : Nat) : (s.havoc a n).lmemEpoch = s.lmemEpoch := rfl

/-! `havocDst` -/
@[simp] theorem State.havocDst_lmemLog2 : s.havocDst.lmemLog2 = s.lmemLog2 := rfl
@[simp] theorem State.havocDst_irqEn : s.havocDst.irqEn = s.irqEn := rfl
@[simp] theorem State.havocDst_busy : s.havocDst.busy = s.busy := rfl
@[simp] theorem State.havocDst_done : s.havocDst.done = s.done := rfl
@[simp] theorem State.havocDst_fatal : s.havocDst.fatal = s.fatal := rfl
@[simp] theorem State.havocDst_whb : s.havocDst.whb = s.whb := rfl
@[simp] theorem State.havocDst_treeValid : s.havocDst.treeValid = s.treeValid := rfl
@[simp] theorem State.havocDst_tableValid : s.havocDst.tableValid = s.tableValid := rfl
@[simp] theorem State.havocDst_errcode : s.havocDst.errcode = s.errcode := rfl
@[simp] theorem State.havocDst_src : s.havocDst.src = s.src := rfl
@[simp] theorem State.havocDst_slen : s.havocDst.slen = s.slen := rfl
@[simp] theorem State.havocDst_dst : s.havocDst.dst = s.dst := rfl
@[simp] theorem State.havocDst_dcap : s.havocDst.dcap = s.dcap := rfl
@[simp] theorem State.havocDst_rlen : s.havocDst.rlen = s.rlen := rfl
@[simp] theorem State.havocDst_result : s.havocDst.result = s.result := rfl
@[simp] theorem State.havocDst_lit : s.havocDst.lit = s.lit := rfl
@[simp] theorem State.havocDst_br : s.havocDst.br = s.br := rfl
@[simp] theorem State.havocDst_root : s.havocDst.root = s.root := rfl
@[simp] theorem State.havocDst_ncount : s.havocDst.ncount = s.ncount := rfl
@[simp] theorem State.havocDst_nleaves : s.havocDst.nleaves = s.nleaves := rfl
@[simp] theorem State.havocDst_freq : s.havocDst.freq = s.freq := rfl
@[simp] theorem State.havocDst_nodes : s.havocDst.nodes = s.nodes := rfl
@[simp] theorem State.havocDst_ct : s.havocDst.ct = s.ct := rfl
@[simp] theorem State.havocDst_lmem : s.havocDst.lmem = Memory.writeBytes s.lmem s.dst.toNat (freeBytes s.draws s.dst.toNat s.dcap.toNat) := rfl
@[simp] theorem State.havocDst_pend : s.havocDst.pend = s.pend := rfl
@[simp] theorem State.havocDst_host : s.havocDst.host = s.host := rfl
@[simp] theorem State.havocDst_reads : s.havocDst.reads = s.reads := rfl
@[simp] theorem State.havocDst_turns : s.havocDst.turns = s.turns := rfl
@[simp] theorem State.havocDst_draws : s.havocDst.draws = s.draws + 1 := rfl
@[simp] theorem State.havocDst_lmemEpoch : s.havocDst.lmemEpoch = s.lmemEpoch := rfl

/-! `putOutput` -/
@[simp] theorem State.putOutput_lmemLog2 (out : List Byte) : (s.putOutput out).lmemLog2 = s.lmemLog2 := rfl
@[simp] theorem State.putOutput_irqEn (out : List Byte) : (s.putOutput out).irqEn = s.irqEn := rfl
@[simp] theorem State.putOutput_busy (out : List Byte) : (s.putOutput out).busy = s.busy := rfl
@[simp] theorem State.putOutput_done (out : List Byte) : (s.putOutput out).done = s.done := rfl
@[simp] theorem State.putOutput_fatal (out : List Byte) : (s.putOutput out).fatal = s.fatal := rfl
@[simp] theorem State.putOutput_whb (out : List Byte) : (s.putOutput out).whb = s.whb := rfl
@[simp] theorem State.putOutput_treeValid (out : List Byte) : (s.putOutput out).treeValid = s.treeValid := rfl
@[simp] theorem State.putOutput_tableValid (out : List Byte) : (s.putOutput out).tableValid = s.tableValid := rfl
@[simp] theorem State.putOutput_errcode (out : List Byte) : (s.putOutput out).errcode = s.errcode := rfl
@[simp] theorem State.putOutput_src (out : List Byte) : (s.putOutput out).src = s.src := rfl
@[simp] theorem State.putOutput_slen (out : List Byte) : (s.putOutput out).slen = s.slen := rfl
@[simp] theorem State.putOutput_dst (out : List Byte) : (s.putOutput out).dst = s.dst := rfl
@[simp] theorem State.putOutput_dcap (out : List Byte) : (s.putOutput out).dcap = s.dcap := rfl
@[simp] theorem State.putOutput_rlen (out : List Byte) : (s.putOutput out).rlen = BitVec.ofNat 32 out.length := rfl
@[simp] theorem State.putOutput_result (out : List Byte) : (s.putOutput out).result = s.result := rfl
@[simp] theorem State.putOutput_lit (out : List Byte) : (s.putOutput out).lit = s.lit := rfl
@[simp] theorem State.putOutput_br (out : List Byte) : (s.putOutput out).br = s.br := rfl
@[simp] theorem State.putOutput_root (out : List Byte) : (s.putOutput out).root = s.root := rfl
@[simp] theorem State.putOutput_ncount (out : List Byte) : (s.putOutput out).ncount = s.ncount := rfl
@[simp] theorem State.putOutput_nleaves (out : List Byte) : (s.putOutput out).nleaves = s.nleaves := rfl
@[simp] theorem State.putOutput_freq (out : List Byte) : (s.putOutput out).freq = s.freq := rfl
@[simp] theorem State.putOutput_nodes (out : List Byte) : (s.putOutput out).nodes = s.nodes := rfl
@[simp] theorem State.putOutput_ct (out : List Byte) : (s.putOutput out).ct = s.ct := rfl
@[simp] theorem State.putOutput_lmem (out : List Byte) : (s.putOutput out).lmem = Memory.writeBytes s.lmem s.dst.toNat out := rfl
@[simp] theorem State.putOutput_pend (out : List Byte) : (s.putOutput out).pend = s.pend := rfl
@[simp] theorem State.putOutput_host (out : List Byte) : (s.putOutput out).host = s.host := rfl
@[simp] theorem State.putOutput_reads (out : List Byte) : (s.putOutput out).reads = s.reads := rfl
@[simp] theorem State.putOutput_turns (out : List Byte) : (s.putOutput out).turns = s.turns := rfl
@[simp] theorem State.putOutput_draws (out : List Byte) : (s.putOutput out).draws = s.draws := rfl
@[simp] theorem State.putOutput_lmemEpoch (out : List Byte) : (s.putOutput out).lmemEpoch = s.lmemEpoch := rfl

/-! `droppedWrite` -/
@[simp] theorem State.droppedWrite_lmemLog2 : s.droppedWrite.lmemLog2 = s.lmemLog2 := rfl
@[simp] theorem State.droppedWrite_irqEn : s.droppedWrite.irqEn = s.irqEn := rfl
@[simp] theorem State.droppedWrite_busy : s.droppedWrite.busy = s.busy := rfl
@[simp] theorem State.droppedWrite_done : s.droppedWrite.done = s.done := rfl
@[simp] theorem State.droppedWrite_fatal : s.droppedWrite.fatal = s.fatal := rfl
@[simp] theorem State.droppedWrite_whb : s.droppedWrite.whb = true := rfl
@[simp] theorem State.droppedWrite_treeValid : s.droppedWrite.treeValid = s.treeValid := rfl
@[simp] theorem State.droppedWrite_tableValid : s.droppedWrite.tableValid = s.tableValid := rfl
@[simp] theorem State.droppedWrite_errcode : s.droppedWrite.errcode = s.errcode := rfl
@[simp] theorem State.droppedWrite_src : s.droppedWrite.src = s.src := rfl
@[simp] theorem State.droppedWrite_slen : s.droppedWrite.slen = s.slen := rfl
@[simp] theorem State.droppedWrite_dst : s.droppedWrite.dst = s.dst := rfl
@[simp] theorem State.droppedWrite_dcap : s.droppedWrite.dcap = s.dcap := rfl
@[simp] theorem State.droppedWrite_rlen : s.droppedWrite.rlen = s.rlen := rfl
@[simp] theorem State.droppedWrite_result : s.droppedWrite.result = s.result := rfl
@[simp] theorem State.droppedWrite_lit : s.droppedWrite.lit = s.lit := rfl
@[simp] theorem State.droppedWrite_br : s.droppedWrite.br = s.br := rfl
@[simp] theorem State.droppedWrite_root : s.droppedWrite.root = s.root := rfl
@[simp] theorem State.droppedWrite_ncount : s.droppedWrite.ncount = s.ncount := rfl
@[simp] theorem State.droppedWrite_nleaves : s.droppedWrite.nleaves = s.nleaves := rfl
@[simp] theorem State.droppedWrite_freq : s.droppedWrite.freq = s.freq := rfl
@[simp] theorem State.droppedWrite_nodes : s.droppedWrite.nodes = s.nodes := rfl
@[simp] theorem State.droppedWrite_ct : s.droppedWrite.ct = s.ct := rfl
@[simp] theorem State.droppedWrite_lmem : s.droppedWrite.lmem = s.lmem := rfl
@[simp] theorem State.droppedWrite_pend : s.droppedWrite.pend = s.pend := rfl
@[simp] theorem State.droppedWrite_host : s.droppedWrite.host = s.host := rfl
@[simp] theorem State.droppedWrite_reads : s.droppedWrite.reads = s.reads := rfl
@[simp] theorem State.droppedWrite_turns : s.droppedWrite.turns = s.turns := rfl
@[simp] theorem State.droppedWrite_draws : s.droppedWrite.draws = s.draws := rfl
@[simp] theorem State.droppedWrite_lmemEpoch : s.droppedWrite.lmemEpoch = s.lmemEpoch := rfl

/-! `resetRegisters` -/
@[simp] theorem State.resetRegisters_lmemLog2 : s.resetRegisters.lmemLog2 = s.lmemLog2 := rfl
@[simp] theorem State.resetRegisters_irqEn : s.resetRegisters.irqEn = false := rfl
@[simp] theorem State.resetRegisters_busy : s.resetRegisters.busy = false := rfl
@[simp] theorem State.resetRegisters_done : s.resetRegisters.done = false := rfl
@[simp] theorem State.resetRegisters_fatal : s.resetRegisters.fatal = false := rfl
@[simp] theorem State.resetRegisters_whb : s.resetRegisters.whb = false := rfl
@[simp] theorem State.resetRegisters_treeValid : s.resetRegisters.treeValid = false := rfl
@[simp] theorem State.resetRegisters_tableValid : s.resetRegisters.tableValid = false := rfl
@[simp] theorem State.resetRegisters_errcode : s.resetRegisters.errcode = .ok := rfl
@[simp] theorem State.resetRegisters_src : s.resetRegisters.src = 0 := rfl
@[simp] theorem State.resetRegisters_slen : s.resetRegisters.slen = 0 := rfl
@[simp] theorem State.resetRegisters_dst : s.resetRegisters.dst = 0 := rfl
@[simp] theorem State.resetRegisters_dcap : s.resetRegisters.dcap = 0 := rfl
@[simp] theorem State.resetRegisters_rlen : s.resetRegisters.rlen = 0 := rfl
@[simp] theorem State.resetRegisters_result : s.resetRegisters.result = false := rfl
@[simp] theorem State.resetRegisters_lit : s.resetRegisters.lit = Config.litReset := rfl
@[simp] theorem State.resetRegisters_br : s.resetRegisters.br = Config.brReset := rfl
@[simp] theorem State.resetRegisters_root : s.resetRegisters.root = Config.nil := rfl
@[simp] theorem State.resetRegisters_ncount : s.resetRegisters.ncount = 0 := rfl
@[simp] theorem State.resetRegisters_nleaves : s.resetRegisters.nleaves = 0 := rfl
@[simp] theorem State.resetRegisters_freq : s.resetRegisters.freq = Vector.replicate 256 0 := rfl
@[simp] theorem State.resetRegisters_nodes : s.resetRegisters.nodes = [] := rfl
@[simp] theorem State.resetRegisters_ct : s.resetRegisters.ct = Vector.replicate 256 none := rfl
@[simp] theorem State.resetRegisters_lmem : s.resetRegisters.lmem = s.lmem := rfl
@[simp] theorem State.resetRegisters_pend : s.resetRegisters.pend = Config.freeWord s.draws := rfl
@[simp] theorem State.resetRegisters_host : s.resetRegisters.host = s.host := rfl
@[simp] theorem State.resetRegisters_reads : s.resetRegisters.reads = s.reads := rfl
@[simp] theorem State.resetRegisters_turns : s.resetRegisters.turns = s.turns := rfl
@[simp] theorem State.resetRegisters_draws : s.resetRegisters.draws = s.draws + 1 := rfl
@[simp] theorem State.resetRegisters_lmemEpoch : s.resetRegisters.lmemEpoch = s.lmemEpoch := rfl

/-! `hardReset` -/
@[simp] theorem State.hardReset_lmemLog2 : s.hardReset.lmemLog2 = s.lmemLog2 := rfl
@[simp] theorem State.hardReset_irqEn : s.hardReset.irqEn = false := rfl
@[simp] theorem State.hardReset_busy : s.hardReset.busy = false := rfl
@[simp] theorem State.hardReset_done : s.hardReset.done = false := rfl
@[simp] theorem State.hardReset_fatal : s.hardReset.fatal = false := rfl
@[simp] theorem State.hardReset_whb : s.hardReset.whb = false := rfl
@[simp] theorem State.hardReset_treeValid : s.hardReset.treeValid = false := rfl
@[simp] theorem State.hardReset_tableValid : s.hardReset.tableValid = false := rfl
@[simp] theorem State.hardReset_errcode : s.hardReset.errcode = .ok := rfl
@[simp] theorem State.hardReset_src : s.hardReset.src = 0 := rfl
@[simp] theorem State.hardReset_slen : s.hardReset.slen = 0 := rfl
@[simp] theorem State.hardReset_dst : s.hardReset.dst = 0 := rfl
@[simp] theorem State.hardReset_dcap : s.hardReset.dcap = 0 := rfl
@[simp] theorem State.hardReset_rlen : s.hardReset.rlen = 0 := rfl
@[simp] theorem State.hardReset_result : s.hardReset.result = false := rfl
@[simp] theorem State.hardReset_lit : s.hardReset.lit = Config.litReset := rfl
@[simp] theorem State.hardReset_br : s.hardReset.br = Config.brReset := rfl
@[simp] theorem State.hardReset_root : s.hardReset.root = Config.nil := rfl
@[simp] theorem State.hardReset_ncount : s.hardReset.ncount = 0 := rfl
@[simp] theorem State.hardReset_nleaves : s.hardReset.nleaves = 0 := rfl
@[simp] theorem State.hardReset_freq : s.hardReset.freq = Vector.replicate 256 0 := rfl
@[simp] theorem State.hardReset_nodes : s.hardReset.nodes = [] := rfl
@[simp] theorem State.hardReset_ct : s.hardReset.ct = Vector.replicate 256 none := rfl
@[simp] theorem State.hardReset_lmem : s.hardReset.lmem = [] := rfl
@[simp] theorem State.hardReset_pend : s.hardReset.pend = Config.freeWord s.draws := rfl
@[simp] theorem State.hardReset_host : s.hardReset.host = s.host := rfl
@[simp] theorem State.hardReset_reads : s.hardReset.reads = s.reads := rfl
@[simp] theorem State.hardReset_turns : s.hardReset.turns = s.turns := rfl
@[simp] theorem State.hardReset_draws : s.hardReset.draws = s.draws + 2 := rfl
@[simp] theorem State.hardReset_lmemEpoch : s.hardReset.lmemEpoch = s.draws + 1 := rfl

/-! LMEM_SIZE is the same after every update, and a byte reads the same after every update that leaves LMEM. -/
theorem State.lmemSize_pos : 0 < s.lmemSize := Nat.two_pow_pos _
@[simp] theorem State.accept_lmemSize (w : Word) : (s.accept w).lmemSize = s.lmemSize := rfl
@[simp] theorem State.accept_readByte (w : Word) (addr : Nat) : (s.accept w).readByte addr = s.readByte addr := rfl
@[simp] theorem State.finish_lmemSize (e : ErrCode) : (s.finish e).lmemSize = s.lmemSize := rfl
@[simp] theorem State.finish_readByte (e : ErrCode) (addr : Nat) : (s.finish e).readByte addr = s.readByte addr := rfl
@[simp] theorem State.clearTable_lmemSize : s.clearTable.lmemSize = s.lmemSize := rfl
@[simp] theorem State.clearTable_readByte (addr : Nat) : s.clearTable.readByte addr = s.readByte addr := rfl
@[simp] theorem State.clearTree_lmemSize : s.clearTree.lmemSize = s.lmemSize := rfl
@[simp] theorem State.clearTree_readByte (addr : Nat) : s.clearTree.readByte addr = s.readByte addr := rfl
@[simp] theorem State.installTree_lmemSize (nodes : List Node) (leaves : Nat) : (s.installTree nodes leaves).lmemSize = s.lmemSize := rfl
@[simp] theorem State.installTree_readByte (nodes : List Node) (leaves : Nat) (addr : Nat) : (s.installTree nodes leaves).readByte addr = s.readByte addr := rfl
@[simp] theorem State.writeBytes_lmemSize (a : Nat) (vs : List Byte) : (s.writeBytes a vs).lmemSize = s.lmemSize := rfl
@[simp] theorem State.havoc_lmemSize (a n : Nat) : (s.havoc a n).lmemSize = s.lmemSize := rfl
@[simp] theorem State.havocDst_lmemSize : s.havocDst.lmemSize = s.lmemSize := rfl
@[simp] theorem State.putOutput_lmemSize (out : List Byte) : (s.putOutput out).lmemSize = s.lmemSize := rfl
@[simp] theorem State.droppedWrite_lmemSize : s.droppedWrite.lmemSize = s.lmemSize := rfl
@[simp] theorem State.droppedWrite_readByte (addr : Nat) : s.droppedWrite.readByte addr = s.readByte addr := rfl
@[simp] theorem State.resetRegisters_lmemSize : s.resetRegisters.lmemSize = s.lmemSize := rfl
@[simp] theorem State.resetRegisters_readByte (addr : Nat) : s.resetRegisters.readByte addr = s.readByte addr := rfl
@[simp] theorem State.hardReset_lmemSize : s.hardReset.lmemSize = s.lmemSize := rfl

end Sys2Proof.Machine

namespace Sys2Proof

/-! The fields of an arena entry, form by form (10_state.md R29). -/

@[simp] theorem Node.isBranch_leaf (sym : Symbol) (f : Word) : (Node.leaf sym f).isBranch = false := rfl
@[simp] theorem Node.isBranch_branch (f : Word) (l r : NodeIdx) : (Node.branch f l r).isBranch = true := rfl
@[simp] theorem Node.sym_leaf (sym : Symbol) (f : Word) : (Node.leaf sym f).sym = sym := rfl
@[simp] theorem Node.sym_branch (f : Word) (l r : NodeIdx) : (Node.branch f l r).sym = 0 := rfl
@[simp] theorem Node.freq_leaf (sym : Symbol) (f : Word) : (Node.leaf sym f).freq = f := rfl
@[simp] theorem Node.freq_branch (f : Word) (l r : NodeIdx) : (Node.branch f l r).freq = f := rfl
@[simp] theorem Node.left_leaf (sym : Symbol) (f : Word) : (Node.leaf sym f).left = Config.nil := rfl
@[simp] theorem Node.left_branch (f : Word) (l r : NodeIdx) : (Node.branch f l r).left = l := rfl
@[simp] theorem Node.right_leaf (sym : Symbol) (f : Word) : (Node.leaf sym f).right = Config.nil := rfl
@[simp] theorem Node.right_branch (f : Word) (l r : NodeIdx) : (Node.branch f l r).right = r := rfl

end Sys2Proof
end

