-- ==== Sys2Proof/Laws/Memory.lean ====
section
/-! SUPPORT. The laws of local memory: a read after a write, the canonical form, and byte sequences (20_memory.md R52
to R54). -/

namespace Sys2Proof.Machine

/-! ### Memory as data -/

@[simp] theorem Memory.cells_length (a : Nat) (vs : List Byte) : (Memory.cells a vs).length = vs.length := by
  induction vs generalizing a with
  | nil => rfl
  | cons v vs ih => simp [Memory.cells, ih]

theorem Memory.get?_cells (a b : Nat) (vs : List Byte) :
    Memory.get? (Memory.cells a vs) b = if a ≤ b then vs[b - a]? else none := by
  induction vs generalizing a with
  | nil => simp [Memory.cells, Memory.get?]
  | cons v vs ih =>
    simp only [Memory.cells, Memory.get?, ih]
    rcases Nat.lt_trichotomy a b with h | h | h
    · obtain ⟨k, rfl⟩ : ∃ k, b = a + 1 + k := ⟨b - (a + 1), by omega⟩
      simp [show a ≠ a + 1 + k by omega, show a + 1 + k - a = k + 1 by omega]
      omega
    · simp [h]
    · simp [show a ≠ b by omega, show ¬a + 1 ≤ b by omega, show ¬a ≤ b by omega]

theorem Memory.get?_append (m n : List Host.Cell) (b : Nat) :
    Memory.get? (m ++ n) b = (Memory.get? m b).or (Memory.get? n b) := by
  induction m with
  | nil => simp [Memory.get?]
  | cons c m ih =>
    obtain ⟨k, v⟩ := c
    by_cases h : k = b <;> simp [Memory.get?, h, ih]

theorem Memory.get?_filter (p : Nat → Bool) (m : List Host.Cell) (b : Nat) :
    Memory.get? (m.filter (fun c => p c.1)) b = if p b then Memory.get? m b else none := by
  induction m with
  | nil => simp [Memory.get?]
  | cons c m ih =>
    obtain ⟨k, v⟩ := c
    by_cases hk : p k
    · simp only [List.filter_cons, hk, if_true, Memory.get?, ih]
      by_cases h : k = b
      · subst h; simp [hk]
      · simp [h]
    · simp only [List.filter_cons, hk, Bool.false_eq_true, if_false, Memory.get?, ih]
      by_cases h : k = b
      · subst h; simp [hk]
      · simp [h]

/-- A read after a write: the written bytes inside the range, the old content outside it. -/
theorem Memory.get?_writeBytes (m : List Host.Cell) (a b : Nat) (vs : List Byte) :
    Memory.get? (Memory.writeBytes m a vs) b =
      if a ≤ b ∧ b < a + vs.length then vs[b - a]? else Memory.get? m b := by
  have h1 := Memory.get?_filter (fun k => decide (k < a)) m b
  have h2 := Memory.get?_filter (fun k => decide (a + vs.length ≤ k)) m b
  simp only [Memory.writeBytes, Memory.get?_append, h1, h2, Memory.get?_cells]
  by_cases hlo : a ≤ b
  · by_cases hhi : b < a + vs.length
    · simp [hlo, hhi, show ¬b < a by omega, show ¬a + vs.length ≤ b by omega]
    · simp [hlo, hhi, show ¬b < a by omega, show a + vs.length ≤ b by omega,
        List.getElem?_eq_none (show vs.length ≤ b - a by omega)]
  · simp [hlo, show b < a by omega, show ¬a + vs.length ≤ b by omega]

theorem Memory.cells_pairwise (a : Nat) (vs : List Byte) :
    (Memory.cells a vs).Pairwise (fun c d => c.1 < d.1) ∧
      ∀ c ∈ Memory.cells a vs, a ≤ c.1 ∧ c.1 < a + vs.length := by
  induction vs generalizing a with
  | nil => simp [Memory.cells]
  | cons v vs ih =>
    obtain ⟨hp, hr⟩ := ih (a + 1)
    refine ⟨?_, ?_⟩
    · simp only [Memory.cells, List.pairwise_cons]
      exact ⟨fun c hc => by have := hr c hc; omega, hp⟩
    · intro c hc
      simp only [Memory.cells, List.mem_cons] at hc
      rcases hc with rfl | hc
      · simp
      · have := hr c hc
        simp only [List.length_cons]
        omega

/-- Every write keeps the canonical form. -/
theorem Memory.wf_writeBytes {size : Nat} {m : List Host.Cell} (hm : Memory.wf size m) {a : Nat}
    {vs : List Byte} (hsize : a + vs.length ≤ size) : Memory.wf size (Memory.writeBytes m a vs) := by
  obtain ⟨hp, hlt⟩ := hm
  obtain ⟨cp, cr⟩ := Memory.cells_pairwise a vs
  refine ⟨?_, ?_⟩
  · simp only [Memory.writeBytes]
    rw [List.pairwise_append, List.pairwise_append]
    refine ⟨⟨hp.filter _, cp, ?_⟩, hp.filter _, ?_⟩
    · intro c hc d hd
      have := cr d hd
      simp only [List.mem_filter, decide_eq_true_eq] at hc
      omega
    · intro c hc d hd
      simp only [List.mem_filter, decide_eq_true_eq] at hd
      rcases List.mem_append.1 hc with hc | hc
      · simp only [List.mem_filter, decide_eq_true_eq] at hc
        omega
      · have := cr c hc
        omega
  · intro c hc
    simp only [Memory.writeBytes, List.append_assoc, List.mem_append, List.mem_filter,
      decide_eq_true_eq] at hc
    rcases hc with hc | hc | hc
    · exact hlt c hc.1
    · have := cr c hc
      omega
    · exact hlt c hc.1

theorem Memory.wf_nil (size : Nat) : Memory.wf size [] := by simp [Memory.wf]

theorem Memory.get?_eq_none_of_lt {m : List Host.Cell} {b : Nat} (h : ∀ c ∈ m, b < c.1) :
    Memory.get? m b = none := by
  induction m with
  | nil => rfl
  | cons c m ih =>
    have hb := h c (by simp)
    simp [Memory.get?, show c.1 ≠ b by omega, ih (fun d hd => h d (by simp [hd]))]

/-- Equal memories are equal data: the canonical form has one list for each content. -/
theorem Memory.ext {size : Nat} {m n : List Host.Cell} (hm : Memory.wf size m) (hn : Memory.wf size n)
    (h : ∀ a, Memory.get? m a = Memory.get? n a) : m = n := by
  replace hm := hm.1
  replace hn := hn.1
  revert h
  induction m generalizing n with
  | nil =>
    intro h
    cases n with
    | nil => rfl
    | cons d n => have := h d.1; simp [Memory.get?] at this
  | cons c m ih =>
    intro h
    cases n with
    | nil => have := h c.1; simp [Memory.get?] at this
    | cons d n =>
      obtain ⟨kc, vc⟩ := c
      obtain ⟨kd, vd⟩ := d
      rw [List.pairwise_cons] at hm hn
      have hc := h kc
      have hd := h kd
      have hkey : kc = kd := by
        rcases Nat.lt_trichotomy kc kd with hlt | heq | hlt
        · have hn0 : Memory.get? n kc = none :=
            Memory.get?_eq_none_of_lt fun e he => by have := hn.1 e he; simp only at this; omega
          simp [Memory.get?, show kd ≠ kc by omega, hn0] at hc
        · exact heq
        · have hm0 : Memory.get? m kd = none :=
            Memory.get?_eq_none_of_lt fun e he => by have := hm.1 e he; simp only at this; omega
          simp [Memory.get?, show kc ≠ kd by omega, hm0] at hd
      subst hkey
      have hval : vc = vd := by simpa [Memory.get?] using hc
      subst hval
      have htail : m = n := by
        refine ih hm.2 hn.2 fun a => ?_
        by_cases ha : kc = a
        · subst ha
          rw [Memory.get?_eq_none_of_lt fun e he => hm.1 e he, Memory.get?_eq_none_of_lt fun e he => hn.1 e he]
        · simpa [Memory.get?, ha] using h a
      rw [htail]

/-! ### Memory as the machine reads it -/

@[simp] theorem freeBytes_length (d a n : Nat) : (freeBytes d a n).length = n := by
  induction n generalizing a with
  | zero => rfl
  | succ n ih => simp [freeBytes, ih]

@[simp] theorem leBytes_length (n v : Nat) : (leBytes n v).length = n := by
  induction n generalizing v with
  | zero => rfl
  | succ n ih => simp [leBytes, ih]

/-- MemRead after MemWrite: the written bytes inside the range. -/
theorem State.readByte_writeBytes_inside (s : State) {a j : Nat} {vs : List Byte} (h : j < vs.length) :
    (s.writeBytes a vs).readByte (a + j) = vs[j] := by
  simp [State.readByte, State.writeBytes, Memory.get?_writeBytes, h]

/-- A write leaves every byte outside its range as it was. -/
theorem State.readByte_writeBytes_outside (s : State) {a b : Nat} {vs : List Byte}
    (h : ¬(a ≤ b ∧ b < a + vs.length)) : (s.writeBytes a vs).readByte b = s.readByte b := by
  simp [State.readByte, State.unlistedByte, State.writeBytes, Memory.get?_writeBytes, h]

theorem State.readByte_havoc_outside (s : State) {a n b : Nat} (h : ¬(a ≤ b ∧ b < a + n)) :
    (s.havoc a n).readByte b = s.readByte b := by
  have := s.readByte_writeBytes_outside (a := a) (b := b) (vs := freeBytes s.draws a n) (by simpa using h)
  simpa [State.havoc, State.readByte, State.unlistedByte] using this

/-- A scan error changes no byte outside the destination window (60_exceptions.md R119). -/
theorem State.readByte_havocDst_outside (s : State) {b : Nat}
    (h : ¬(s.dst.toNat ≤ b ∧ b < s.dst.toNat + s.dcap.toNat)) : s.havocDst.readByte b = s.readByte b :=
  s.readByte_havoc_outside h

/-! ### Every operation on LMEM keeps the canonical form -/

theorem State.wf_reset : Memory.wf State.reset.lmemSize State.reset.lmem := Memory.wf_nil _

theorem State.wf_memWrite {s : State} (h : Memory.wf s.lmemSize s.lmem) {a n : Nat} (v : Word)
    (hsize : a + n ≤ s.lmemSize) : Memory.wf (s.memWrite a n v).lmemSize (s.memWrite a n v).lmem :=
  Memory.wf_writeBytes h (by simpa using hsize)

theorem State.wf_havoc {s : State} (h : Memory.wf s.lmemSize s.lmem) {a n : Nat} (hsize : a + n ≤ s.lmemSize) :
    Memory.wf (s.havoc a n).lmemSize (s.havoc a n).lmem :=
  Memory.wf_writeBytes h (by simpa using hsize)

theorem State.wf_havocDst {s : State} (h : Memory.wf s.lmemSize s.lmem) (hdst : s.dstOk = true) :
    Memory.wf s.havocDst.lmemSize s.havocDst.lmem :=
  State.wf_havoc h (by simpa [State.dstOk] using hdst)

theorem State.wf_putOutput {s : State} (h : Memory.wf s.lmemSize s.lmem) (hdst : s.dstOk = true) {out : List Byte}
    (hout : out.length ≤ s.dcap.toNat) : Memory.wf (s.putOutput out).lmemSize (s.putOutput out).lmem := by
  have : s.dst.toNat + s.dcap.toNat ≤ s.lmemSize := by simpa [State.dstOk] using hdst
  exact Memory.wf_writeBytes h (by omega)

theorem State.readByte_putOutput_inside (s : State) {out : List Byte} {j : Nat} (h : j < out.length) :
    (s.putOutput out).readByte (s.dst.toNat + j) = out[j] :=
  s.readByte_writeBytes_inside h

theorem State.readByte_putOutput_outside (s : State) {out : List Byte} {b : Nat}
    (h : ¬(s.dst.toNat ≤ b ∧ b < s.dst.toNat + out.length)) : (s.putOutput out).readByte b = s.readByte b :=
  s.readByte_writeBytes_outside h

@[simp] theorem State.readBytes_length (s : State) (a n : Nat) : (s.readBytes a n).length = n := by
  induction n generalizing a with
  | zero => rfl
  | succ n ih => simp [State.readBytes, ih]

theorem State.readBytes_getElem? (s : State) (a n j : Nat) :
    (s.readBytes a n)[j]? = if j < n then some (s.readByte (a + j)) else none := by
  induction n generalizing a j with
  | zero => simp [State.readBytes]
  | succ n ih =>
    cases j with
    | zero => simp [State.readBytes]
    | succ j =>
      simp only [State.readBytes, List.getElem?_cons_succ, ih, Nat.add_lt_add_iff_right]
      rw [show a + 1 + j = a + (j + 1) by omega]

/-- The bytes of a range are a list when they agree position by position. -/
theorem State.readBytes_eq (s : State) {a n : Nat} {vs : List Byte} (hlen : vs.length = n)
    (h : ∀ j (hj : j < vs.length), s.readByte (a + j) = vs[j]) : s.readBytes a n = vs := by
  apply List.ext_getElem?
  intro j
  rw [State.readBytes_getElem?]
  by_cases hj : j < vs.length
  · rw [if_pos (by omega), List.getElem?_eq_getElem hj, h j hj]
  · rw [if_neg (by omega), List.getElem?_eq_none (by omega)]

/-- The output of a command reads back from DST. -/
theorem State.readBytes_putOutput (s : State) (out : List Byte) :
    (s.putOutput out).readBytes s.dst.toNat out.length = out :=
  State.readBytes_eq _ rfl fun _ hj => s.readByte_putOutput_inside hj

@[simp] theorem State.sourceBytes_length (s : State) : s.sourceBytes.length = s.slen.toNat := by
  simp [State.sourceBytes]

/-! ### Little-endian values -/

theorem leValue_leBytes (n v : Nat) : leValue (leBytes n v) = v % 256 ^ n := by
  induction n generalizing v with
  | zero => simp [leBytes, leValue, Nat.mod_one]
  | succ n ih =>
    simp only [leBytes, leValue, ih, BitVec.toNat_ofNat]
    rw [show 256 ^ (n + 1) = 256 * 256 ^ n by ring, Nat.mod_mul]

theorem leValue_lt (vs : List Byte) : leValue vs < 256 ^ vs.length := by
  induction vs with
  | nil => simp [leValue]
  | cons v vs ih =>
    simp only [leValue, List.length_cons, Nat.pow_succ]
    have := v.isLt
    omega

end Sys2Proof.Machine
end

