-- ==== Sys2Proof/Laws/Arena.lean ====
section
/-! SUPPORT. The laws of the node arena: a forest of roots grows by a leaf or by a branch over two of its roots, and a
forest with one root is a tree in the sense of 10_state.md R31. -/

namespace Sys2Proof.Machine

/-! ### Entries of an arena -/

theorem arenaAt_append_left {nodes : List Node} {i : Nat} (n : Node) (h : i < nodes.length) :
    arenaAt (nodes ++ [n]) i = arenaAt nodes i := by
  simp [arenaAt, List.getElem?_append_left h]

@[simp] theorem arenaAt_append_last (nodes : List Node) (n : Node) :
    arenaAt (nodes ++ [n]) nodes.length = n := by
  simp [arenaAt]

theorem arenaAt_eq_getElem {nodes : List Node} {i : Nat} (h : i < nodes.length) : arenaAt nodes i = nodes[i] := by
  simp [arenaAt, h]

theorem childrenOf_append (m n : List Node) : childrenOf (m ++ n) = childrenOf m ++ childrenOf n := by
  induction m with
  | nil => rfl
  | cons x m ih => cases x <;> simp [childrenOf, ih]

theorem leafEntries_append (m n : List Node) : leafEntries (m ++ n) = leafEntries m + leafEntries n := by
  induction m with
  | nil => simp [leafEntries]
  | cons x m ih =>
    cases x with
    | leaf => simp only [List.cons_append, leafEntries, ih]; omega
    | branch => simp only [List.cons_append, leafEntries, ih]

theorem entryOk_append {nodes : List Node} {i : Nat} (n : Node) (h : i < nodes.length) (e : Node) :
    entryOk (nodes ++ [n]) i e = entryOk nodes i e := by
  cases e with
  | leaf => rfl
  | branch f l r =>
    simp only [entryOk]
    by_cases hl : l.toNat < i
    · by_cases hr : r.toNat < i
      · rw [arenaAt_append_left n (by omega), arenaAt_append_left n (by omega)]
      · simp [hr]
    · simp [hl]

/-- A branch entry of a good arena has its children below it. -/
theorem entryOk_branch {nodes : List Node} {i : Nat} {f : Word} {l r : NodeIdx}
    (h : entryOk nodes i (.branch f l r) = true) :
    l.toNat < i ∧ r.toNat < i ∧ l ≠ r ∧
      f.toNat = (arenaAt nodes l.toNat).freq.toNat + (arenaAt nodes r.toNat).freq.toNat := by
  simpa [entryOk, and_assoc] using h

/-! ### Forests -/

/-- The state of BUILD's and DESERIALIZE's loops: every entry is good, and each is a root of q or the child of exactly
one branch. -/
structure Forest (nodes : List Node) (q : List Nat) : Prop where
  entries : ∀ i < nodes.length, entryOk nodes i (arenaAt nodes i) = true
  cover : (q ++ childrenOf nodes).Perm (List.range nodes.length)
  count : nodes.length + q.length = 2 * leafEntries nodes

theorem Forest.nil : Forest [] [] := ⟨by simp, by simp [childrenOf], rfl⟩

theorem Forest.root_lt {nodes : List Node} {q : List Nat} (h : Forest nodes q) {i : Nat} (hi : i ∈ q) :
    i < nodes.length := by
  have : i ∈ List.range nodes.length := h.cover.subset (List.mem_append_left _ hi)
  simpa using this

theorem Forest.nodup {nodes : List Node} {q : List Nat} (h : Forest nodes q) : q.Nodup := by
  have hn : (q ++ childrenOf nodes).Nodup := h.cover.nodup_iff.2 List.nodup_range
  exact (List.nodup_append.1 hn).1

theorem Forest.perm {nodes : List Node} {q q' : List Nat} (h : Forest nodes q) (hq : q.Perm q') :
    Forest nodes q' :=
  ⟨h.entries, (hq.symm.append_right _).trans h.cover, by rw [← hq.length_eq]; exact h.count⟩

theorem Forest.add_leaf {nodes : List Node} {q : List Nat} (h : Forest nodes q) (sym : Symbol) (freq : Word) :
    Forest (nodes ++ [.leaf sym freq]) (nodes.length :: q) := by
  refine ⟨?_, ?_, ?_⟩
  · intro i hi
    simp only [List.length_append, List.length_singleton] at hi
    rcases Nat.lt_succ_iff_lt_or_eq.1 hi with hlt | rfl
    · rw [arenaAt_append_left _ hlt, entryOk_append _ hlt]
      exact h.entries i hlt
    · simp [entryOk]
  · simp only [childrenOf_append, childrenOf, List.append_nil, List.length_append, List.length_singleton,
      List.range_succ, List.cons_append]
    exact (h.cover.cons _).trans (List.perm_append_singleton _ _).symm
  · have := h.count
    simp only [leafEntries_append, leafEntries, List.length_append, List.length_cons, List.length_nil]
    omega

theorem Forest.add_branch {nodes : List Node} {a b : Nat} {q : List Nat} (h : Forest nodes (a :: b :: q))
    (hsize : nodes.length ≤ Config.nodeMax)
    (hsum : (arenaAt nodes a).freq.toNat + (arenaAt nodes b).freq.toNat < 2 ^ 32) :
    Forest (nodes ++ [.branch ((arenaAt nodes a).freq + (arenaAt nodes b).freq) (BitVec.ofNat 9 a)
      (BitVec.ofNat 9 b)]) (nodes.length :: q) := by
  have ha : a < nodes.length := h.root_lt (by simp)
  have hb : b < nodes.length := h.root_lt (by simp)
  have hab : a ≠ b := by
    have := h.nodup
    simp only [List.nodup_cons, List.mem_cons, not_or] at this
    exact this.1.1
  have ha9 : (BitVec.ofNat 9 a).toNat = a := by
    simp only [BitVec.toNat_ofNat, Config.nodeMax] at *
    exact Nat.mod_eq_of_lt (by omega)
  have hb9 : (BitVec.ofNat 9 b).toNat = b := by
    simp only [BitVec.toNat_ofNat, Config.nodeMax] at *
    exact Nat.mod_eq_of_lt (by omega)
  refine ⟨?_, ?_, ?_⟩
  · intro i hi
    simp only [List.length_append, List.length_singleton] at hi
    rcases Nat.lt_succ_iff_lt_or_eq.1 hi with hlt | rfl
    · rw [arenaAt_append_left _ hlt, entryOk_append _ hlt]
      exact h.entries i hlt
    · rw [arenaAt_append_last]
      simp only [entryOk, ha9, hb9, arenaAt_append_left _ ha, arenaAt_append_left _ hb]
      have hne : BitVec.ofNat 9 a ≠ BitVec.ofNat 9 b := fun he => hab (by rw [← ha9, ← hb9, he])
      simp [ha, hb, hne, BitVec.toNat_add]
      omega
  · simp only [childrenOf_append, childrenOf, List.length_append, List.length_singleton, List.range_succ,
      ha9, hb9, List.cons_append]
    refine List.Perm.trans (List.Perm.cons _ ?_) (List.perm_append_singleton _ _).symm
    refine List.Perm.trans ?_ h.cover
    rw [← List.append_assoc]
    exact (List.perm_append_comm (l₂ := [a, b])).trans (by simp)
  · have := h.count
    simp only [leafEntries_append, leafEntries, List.length_append, List.length_cons, List.length_nil] at *
    omega

/-- A forest whose only root is the entry allocated last is a tree (10_state.md R31). -/
theorem Forest.arenaOk {nodes : List Node} (h : Forest nodes [nodes.length - 1]) (hpos : 1 ≤ nodes.length)
    (hsize : nodes.length ≤ Config.nodeMax) : ArenaOk nodes := by
  refine ⟨hpos, hsize, h.entries, ?_, h.count⟩
  have hc := h.cover
  obtain ⟨n, hn⟩ : ∃ n, nodes.length = n + 1 := ⟨nodes.length - 1, by omega⟩
  rw [hn, List.range_succ] at hc
  rw [hn]
  simp only [Nat.add_sub_cancel, List.cons_append, List.nil_append] at *
  exact (List.perm_cons n).1 (hc.trans (List.perm_append_singleton _ _))

end Sys2Proof.Machine
end

