-- ==== Sys2Proof/Laws/Build.lean ====
section
/-! SUPPORT. The laws of the priority selector and of BUILD's merging loop (40_tree_builder.md R76, R80, R86). -/

namespace Sys2Proof.Machine

/-! ### The selector -/

theorem peekMin_mem {nodes : List Node} {q : List Nat} {m : Nat} (h : peekMin nodes q = some m) : m ∈ q := by
  induction q generalizing m with
  | nil => simp [peekMin] at h
  | cons i q ih =>
    rw [peekMin] at h
    split at h
    · simp_all
    next m' hm' =>
      split at h
      · simp_all
      · obtain rfl : m' = m := by simpa using h
        exact List.mem_cons_of_mem _ (ih hm')

theorem peekMin_eq_none {nodes : List Node} {q : List Nat} : peekMin nodes q = none ↔ q = [] := by
  cases q with
  | nil => simp [peekMin]
  | cons i q =>
    rw [peekMin]
    split
    · simp
    · split <;> simp

/-- Removing takes exactly one element out of Q (40_tree_builder.md R76). -/
theorem removeMin_perm {nodes : List Node} {q q' : List Nat} {m : Nat} (h : removeMin nodes q = some (m, q')) :
    q.Perm (m :: q') := by
  rw [removeMin] at h
  split at h
  · simp at h
  next k hk =>
    obtain ⟨rfl, rfl⟩ : k = m ∧ q.erase k = q' := by simpa using h
    exact List.perm_cons_erase (peekMin_mem hk)

theorem removeMin_eq_none {nodes : List Node} {q : List Nat} : removeMin nodes q = none ↔ q = [] := by
  rw [removeMin]
  split
  next h => simpa using peekMin_eq_none.1 h
  next m h =>
    have : q ≠ [] := fun he => by simp [peekMin_eq_none.2 he] at h
    simpa using this

/-! ### Merging -/

/-- The sum of the frequencies of the roots. -/
def rootSum (nodes : List Node) (q : List Nat) : Nat := (q.map (fun i => (arenaAt nodes i).freq.toNat)).sum

theorem rootSum_perm {nodes : List Node} {q q' : List Nat} (h : q.Perm q') : rootSum nodes q = rootSum nodes q' :=
  (h.map _).sum_eq

theorem rootSum_append {nodes : List Node} {q : List Nat} (n : Node) (h : ∀ i ∈ q, i < nodes.length) :
    rootSum (nodes ++ [n]) q = rootSum nodes q := by
  simp only [rootSum]
  congr 1
  exact List.map_congr_left fun i hi => by rw [arenaAt_append_left n (h i hi)]

/-- What the merging loop makes of a forest that still fits: one root, the entry allocated last, whose frequency is
the total, over the same leaves (40_tree_builder.md R80, R86, R87). -/
theorem mergeRoots_forest {fuel : Nat} {nodes : List Node} {q : List Nat} (h : Forest nodes q)
    (hlast : nodes.length - 1 ∈ q) (hfuel : q.length ≤ fuel + 1)
    (hsize : nodes.length + q.length ≤ Config.nodeMax + 1) (hsum : rootSum nodes q < 2 ^ 32) :
    let res := mergeRoots fuel nodes q
    Forest res [res.length - 1] ∧ res.length + 1 = nodes.length + q.length ∧
      rootSum res [res.length - 1] = rootSum nodes q ∧ leafEntries res = leafEntries nodes ∧
      nodes <+: res := by
  induction fuel generalizing nodes q with
  | zero =>
    obtain ⟨x, rfl⟩ : ∃ x, q = [x] := by
      match q, hlast, hfuel with
      | [x], _, _ => exact ⟨x, rfl⟩
    obtain rfl : nodes.length - 1 = x := by simpa using hlast
    simpa [mergeRoots] using h
  | succ fuel ih =>
    rw [mergeRoots]
    split
    next hn => simp [removeMin_eq_none.1 hn] at hlast
    next a q1 ha =>
      have hp1 := removeMin_perm ha
      split
      next hn =>
        obtain rfl := removeMin_eq_none.1 hn
        have hq : q = [a] := List.perm_singleton.1 hp1
        subst hq
        obtain rfl : nodes.length - 1 = a := by simpa using hlast
        simpa using h
      next b q2 hb =>
        have hp : q.Perm (a :: b :: q2) := hp1.trans ((removeMin_perm hb).cons a)
        have hf := h.perm hp
        have hlen := hp.length_eq
        simp only [List.length_cons] at hlen
        have hs := rootSum_perm (nodes := nodes) hp
        have hab : rootSum nodes q =
            (arenaAt nodes a).freq.toNat + ((arenaAt nodes b).freq.toNat + rootSum nodes q2) := by
          rw [hs]; simp [rootSum]
        have hnew := hf.add_branch (by omega) (by omega)
        have hsum' : rootSum (nodes ++ [mergeNode nodes a b]) (nodes.length :: q2) = rootSum nodes q := by
          have h2 := rootSum_append (q := q2) (mergeNode nodes a b) fun i hi => hf.root_lt (by simp [hi])
          have hf' : (mergeNode nodes a b).freq.toNat =
              (arenaAt nodes a).freq.toNat + (arenaAt nodes b).freq.toNat := by
            rw [mergeNode, Node.freq, BitVec.toNat_add]
            exact Nat.mod_eq_of_lt (by omega)
          rw [show rootSum (nodes ++ [mergeNode nodes a b]) (nodes.length :: q2) =
            (mergeNode nodes a b).freq.toNat + rootSum (nodes ++ [mergeNode nodes a b]) q2 by simp [rootSum],
            h2, hf', hab, Nat.add_assoc]
        have := ih (nodes := nodes ++ [mergeNode nodes a b]) (q := nodes.length :: q2) hnew
          (by simp) (by simp only [List.length_cons]; omega)
          (by simp only [List.length_append, List.length_cons, List.length_nil]; omega) (by omega)
        obtain ⟨r1, r2, r3, r4, r5⟩ := this
        refine ⟨r1, ?_, r3.trans hsum', ?_, (List.prefix_append _ _).trans r5⟩
        · simp only [List.length_append, List.length_cons, List.length_nil] at r2
          omega
        · rw [r4]; simp [leafEntries_append, leafEntries, mergeNode]

/-! ### The frequency mapping and the seeding -/

/-- Every entry of the mapping is a symbol from k up, in ascending order, with its non-zero frequency. -/
theorem presentFrom_spec (k : Nat) (fs : List Word) (hk : k + fs.length ≤ 256) :
    (∀ p ∈ presentFrom k fs, k ≤ p.1.toNat ∧ p.1.toNat < k + fs.length ∧ p.2 ≠ 0 ∧
      fs[p.1.toNat - k]? = some p.2) ∧
    (∀ j f, fs[j]? = some f → f ≠ 0 → (BitVec.ofNat 8 (k + j), f) ∈ presentFrom k fs) ∧
    (presentFrom k fs).Pairwise (fun p p' => p.1.toNat < p'.1.toNat) := by
  induction fs generalizing k with
  | nil => simp [presentFrom]
  | cons f fs ih =>
    simp only [List.length_cons] at hk
    obtain ⟨h1, h2, h3⟩ := ih (k + 1) (by omega)
    have hk8 : (BitVec.ofNat 8 k).toNat = k := by
      simp only [BitVec.toNat_ofNat]; exact Nat.mod_eq_of_lt (by omega)
    have tail : ∀ p ∈ presentFrom (k + 1) fs, k ≤ p.1.toNat ∧ p.1.toNat < k + (f :: fs).length ∧ p.2 ≠ 0 ∧
        (f :: fs)[p.1.toNat - k]? = some p.2 := by
      intro p hp
      obtain ⟨a, b, c, d⟩ := h1 p hp
      refine ⟨by omega, by simp only [List.length_cons]; omega, c, ?_⟩
      rw [show p.1.toNat - k = p.1.toNat - (k + 1) + 1 by omega, List.getElem?_cons_succ]
      exact d
    have rest : ∀ j g, fs[j]? = some g → g ≠ 0 → (BitVec.ofNat 8 (k + (j + 1)), g) ∈ presentFrom (k + 1) fs := by
      intro j g hj hg
      have := h2 j g hj hg
      rwa [show k + 1 + j = k + (j + 1) by omega] at this
    by_cases hf : f = 0
    · rw [presentFrom, if_pos hf]
      refine ⟨tail, ?_, h3⟩
      intro j g hj hg
      cases j with
      | zero => simp only [List.getElem?_cons_zero, Option.some.injEq] at hj; exact absurd (hj ▸ hf) hg
      | succ j => exact rest j g (by simpa using hj) hg
    · rw [presentFrom, if_neg hf]
      refine ⟨?_, ?_, ?_⟩
      · intro p hp
        rcases List.mem_cons.1 hp with rfl | hp
        · exact ⟨by simp [hk8], by simp [hk8], hf, by simp [hk8]⟩
        · exact tail p hp
      · intro j g hj hg
        cases j with
        | zero =>
          simp only [List.getElem?_cons_zero, Option.some.injEq] at hj
          simp [hj]
        | succ j => exact List.mem_cons_of_mem _ (rest j g (by simpa using hj) hg)
      · exact List.pairwise_cons.2 ⟨fun p hp => by rw [hk8]; have := (h1 p hp).1; omega, h3⟩

/-- The mapping BUILD reads holds exactly the present symbols (10_state.md R27). -/
theorem State.mem_present (s : State) (sym : Symbol) (f : Word) :
    (sym, f) ∈ s.present ↔ s.freq[sym.toNat]'sym.isLt = f ∧ f ≠ 0 := by
  obtain ⟨h1, h2, -⟩ := presentFrom_spec 0 s.freq.toList (by simp)
  have hget : s.freq.toList[sym.toNat]? = some (s.freq[sym.toNat]'sym.isLt) := by
    have := sym.isLt
    simp
  constructor
  · intro h
    obtain ⟨-, -, c, d⟩ := h1 _ h
    simp only [Nat.sub_zero, hget, Option.some.injEq] at d
    exact ⟨d, c⟩
  · rintro ⟨rfl, hf⟩
    have := h2 sym.toNat _ hget hf
    simpa [State.present] using this

theorem presentFrom_length_le (k : Nat) (fs : List Word) : (presentFrom k fs).length ≤ fs.length := by
  induction fs generalizing k with
  | nil => simp [presentFrom]
  | cons f fs ih =>
    have := ih (k + 1)
    rw [presentFrom]
    split <;> simp only [List.length_cons] <;> omega

theorem State.present_length_le (s : State) : s.present.length ≤ 256 := by
  have := presentFrom_length_le 0 s.freq.toList
  simpa [State.present] using this

theorem seedLeaves_forest (present : List (Symbol × Word)) :
    Forest (seedLeaves present) (List.range present.length) := by
  have hleaf : ∀ i < (seedLeaves present).length, ∃ sym f, arenaAt (seedLeaves present) i = .leaf sym f := by
    intro i hi
    rw [arenaAt_eq_getElem hi]
    simp only [seedLeaves, List.getElem_map]
    exact ⟨_, _, rfl⟩
  have hchildren : childrenOf (seedLeaves present) = [] := by
    induction present with
    | nil => rfl
    | cons p ps ih =>
      simp only [seedLeaves, List.map_cons, childrenOf]
      refine ih ?_
      intro i hi
      rw [arenaAt_eq_getElem hi]
      simp only [seedLeaves, List.getElem_map]
      exact ⟨_, _, rfl⟩
  have hcount : leafEntries (seedLeaves present) = present.length := by
    clear hleaf hchildren
    induction present with
    | nil => rfl
    | cons p ps ih =>
      simp only [seedLeaves, List.map_cons, leafEntries, List.length_cons]
      simp only [seedLeaves] at ih
      omega
  refine ⟨?_, ?_, ?_⟩
  · intro i hi
    obtain ⟨sym, f, h⟩ := hleaf i hi
    simp [h, entryOk]
  · rw [hchildren]; simp [seedLeaves]
  · rw [hcount]; simp [seedLeaves]; omega

theorem rootSum_seedLeaves (present : List (Symbol × Word)) :
    rootSum (seedLeaves present) (List.range present.length) = freqTotal present := by
  have key : rootSum (seedLeaves present) (List.range present.length) =
      (present.map (fun p => p.2.toNat)).sum := by
    simp only [rootSum]
    congr 1
    apply List.ext_getElem
    · simp
    · intro i h1 h2
      have hi : i < present.length := by simpa using h2
      simp [arenaAt, seedLeaves, hi, Node.freq]
  rw [key]
  clear key
  induction present with
  | nil => rfl
  | cons p ps ih => simp [freqTotal, ih]

/-- What BUILD's arena is, for a non-empty mapping whose total fits (40_tree_builder.md R87). -/
theorem buildArena_forest {present : List (Symbol × Word)} (hne : present ≠ []) (hlen : present.length ≤ 256)
    (htotal : freqTotal present ≤ Config.freqMax) :
    let res := buildArena present
    Forest res [res.length - 1] ∧ res.length + 1 = 2 * present.length ∧
      (arenaAt res (res.length - 1)).freq.toNat = freqTotal present ∧ leafEntries res = present.length ∧
      seedLeaves present <+: res := by
  have hpos : 0 < present.length := List.length_pos_iff.2 hne
  have hseed : (seedLeaves present).length = present.length := by simp [seedLeaves]
  have hf := seedLeaves_forest present
  have := mergeRoots_forest (fuel := present.length) hf (by simp [hseed, hpos]) (by simp)
    (by simp only [hseed, List.length_range, Config.nodeMax]; omega)
    (by rw [rootSum_seedLeaves]; simp only [Config.freqMax] at htotal; omega)
  obtain ⟨r1, r2, r3, r4, r5⟩ := this
  refine ⟨r1, ?_, ?_, ?_, r5⟩
  · simp only [hseed, List.length_range] at r2
    show (mergeRoots _ _ _).length + 1 = _
    omega
  · rw [rootSum_seedLeaves] at r3
    rw [← r3]
    simp [rootSum, buildArena]
  · show leafEntries (mergeRoots _ _ _) = _
    have hc := hf.count
    rw [r4]
    simp only [hseed, List.length_range] at hc
    omega

end Sys2Proof.Machine
end

