-- ==== Sys2Proof/Laws/Tree.lean ====
section
/-! SUPPORT. The laws of trees unfolded from the arena (00_scope.md R11): a good arena has a tree at every entry, its
depth bound does not matter, and a longer arena unfolds to the same tree. -/

namespace Sys2Proof.Machine

/-- No child is absent. -/
def Tree.Full : Tree → Prop
  | .absent => False
  | .leaf _ _ => True
  | .branch _ l r => l.Full ∧ r.Full

/-- The first n entries are good: every branch among them has its children below itself. -/
def Below (nodes : List Node) : Prop := ∀ i < nodes.length, entryOk nodes i (arenaAt nodes i) = true

theorem toNat_ne_nil {nodes : List Node} {i : NodeIdx} (hsize : nodes.length ≤ Config.nodeMax)
    (hi : i.toNat < nodes.length) : i ≠ Config.nil := by
  rintro rfl
  simp only [Config.nodeMax] at hsize
  have : Config.nil.toNat = 511 := rfl
  omega

/-- What one level of unfolding does, case by case. -/
theorem unfoldTree_leaf {nodes : List Node} {depth : Nat} {i : NodeIdx} {sym : Symbol} {f : Word}
    (hi : i ≠ Config.nil) (h : arenaAt nodes i.toNat = .leaf sym f) :
    unfoldTree nodes (depth + 1) i = some (.leaf sym f) := by
  simp [unfoldTree, hi, h]

theorem unfoldTree_branch {nodes : List Node} {depth : Nat} {i l r : NodeIdx} {f : Word} {tl tr : Tree}
    (hi : i ≠ Config.nil) (h : arenaAt nodes i.toNat = .branch f l r)
    (hl : unfoldTree nodes depth l = some tl) (hr : unfoldTree nodes depth r = some tr) :
    unfoldTree nodes (depth + 1) i = some (.branch f tl tr) := by
  simp [unfoldTree, hi, h, hl, hr]

/-- A good arena unfolds at every entry within its index plus one levels, to a tree with no absent child. -/
theorem unfoldTree_exists {nodes : List Node} (hb : Below nodes) (hsize : nodes.length ≤ Config.nodeMax)
    {depth : Nat} {i : NodeIdx} (hi : i.toNat < nodes.length) (hd : i.toNat < depth) :
    ∃ t, unfoldTree nodes depth i = some t ∧ t.Full := by
  induction depth generalizing i with
  | zero => omega
  | succ depth ih =>
    have hne := toNat_ne_nil hsize hi
    match hn : arenaAt nodes i.toNat with
    | .leaf sym f => exact ⟨_, unfoldTree_leaf hne hn, trivial⟩
    | .branch f l r =>
      have hok := hb _ hi
      rw [hn] at hok
      obtain ⟨hl, hr, -, -⟩ := entryOk_branch hok
      obtain ⟨tl, h1, f1⟩ := ih (i := l) (by omega) (by omega)
      obtain ⟨tr, h2, f2⟩ := ih (i := r) (by omega) (by omega)
      exact ⟨_, unfoldTree_branch hne hn h1 h2, f1, f2⟩

/-- More levels than needed change nothing. -/
theorem unfoldTree_mono {nodes : List Node} {depth depth' : Nat} {i : NodeIdx} {t : Tree}
    (h : unfoldTree nodes depth i = some t) (hd : depth ≤ depth') : unfoldTree nodes depth' i = some t := by
  induction depth generalizing depth' i t with
  | zero => simp [unfoldTree] at h
  | succ depth ih =>
    obtain ⟨d, rfl⟩ : ∃ d, depth' = d + 1 := ⟨depth' - 1, by omega⟩
    rw [unfoldTree] at h ⊢
    split
    · rwa [if_pos ‹_›] at h
    · rw [if_neg ‹_›] at h
      split at h
      · exact h
      · split at h
        next tl tr hl hr =>
          rw [ih hl (Nat.le_of_succ_le_succ hd), ih hr (Nat.le_of_succ_le_succ hd)]
          exact h
        · simp at h

/-- An arena that grows unfolds to the same tree at its old entries. -/
theorem unfoldTree_append {nodes : List Node} (n : Node) (hb : Below nodes) {depth : Nat} {i : NodeIdx}
    (hi : i.toNat < nodes.length) : unfoldTree (nodes ++ [n]) depth i = unfoldTree nodes depth i := by
  induction depth generalizing i with
  | zero => rfl
  | succ depth ih =>
    rw [unfoldTree, unfoldTree, arenaAt_append_left n hi]
    split
    · rfl
    · split
      · rfl
      next f l r hn =>
        have hok := hb _ hi
        rw [hn] at hok
        obtain ⟨hl, hr, -, -⟩ := entryOk_branch hok
        rw [ih (by omega), ih (by omega)]

theorem ArenaOk.below {nodes : List Node} (h : ArenaOk nodes) : Below nodes := h.2.2.1

/-- A state whose registers and arena hold a tree has a current tree, with no absent child (10_state.md R31). -/
theorem State.currentTree_exists {s : State} (h : s.TreeOk) (hv : s.treeValid = true) :
    ∃ t, s.currentTree = some t ∧ t.Full := by
  obtain ⟨ha, -, hroot, -⟩ := h.1 hv
  have hsize := ha.2.1
  simp only [Config.nodeMax] at hsize
  exact unfoldTree_exists ha.below ha.2.1 (by omega) (by simp only [Config.nodeMax]; omega)

/-- A tree with no absent child has a serialization (43_tree_codec.md R102). -/
theorem serializeTree_exists (lit br : Byte) {t : Tree} (h : t.Full) :
    ∃ out, serializeTree lit br t = some out := by
  induction t with
  | absent => exact h.elim
  | leaf => exact ⟨_, rfl⟩
  | branch f l r ihl ihr =>
    obtain ⟨x, hx⟩ := ihl h.1
    obtain ⟨y, hy⟩ := ihr h.2
    exact ⟨x ++ y ++ [br], by simp [serializeTree, hx, hy]⟩

/-- What SERIALIZE writes is the string the grammar gives the tree (43_tree_codec.md R99, R102). -/
theorem serializeTree_spells {lit br : Byte} {t : Tree} {out : List Byte}
    (h : serializeTree lit br t = some out) : Spells lit br t out := by
  induction t generalizing out with
  | absent => simp [serializeTree] at h
  | leaf sym f =>
    obtain rfl : [lit, sym] = out := by simpa [serializeTree] using h
    exact .leaf sym f
  | branch f l r ihl ihr =>
    rw [serializeTree] at h
    split at h
    next x y hx hy =>
      obtain rfl : x ++ y ++ [br] = out := by simpa using h
      exact .branch f (ihl hx) (ihr hy)
    · simp at h

/-- A string of the grammar has two bytes a leaf and one a branch (43_tree_codec.md R103). -/
theorem Spells.length {lit br : Byte} {t : Tree} {out : List Byte} (h : Spells lit br t out) :
    out.length + 1 = 3 * t.leafCount := by
  induction h with
  | leaf => rfl
  | branch f hl hr ihl ihr =>
    simp only [List.length_append, List.length_cons, List.length_nil, Tree.leafCount]
    omega

@[simp] theorem Tree.zeroFreq_leafCount (t : Tree) : t.zeroFreq.leafCount = t.leafCount := by
  induction t with
  | absent => rfl
  | leaf => rfl
  | branch f l r ihl ihr => simp [Tree.zeroFreq, Tree.leafCount, ihl, ihr]

theorem Spells.leafCount_pos {lit br : Byte} {t : Tree} {out : List Byte} (h : Spells lit br t out) :
    0 < t.leafCount := by
  induction h with
  | leaf => simp [Tree.leafCount]
  | branch f hl hr ihl ihr => simp only [Tree.leafCount]; omega

/-- A tree of the grammar has one entry a leaf and one less a branch (10_state.md R31 item 6). -/
theorem Spells.postOrder_length {lit br : Byte} {t : Tree} {out : List Byte} (h : Spells lit br t out) (k : Nat) :
    (t.zeroFreq.postOrder k).length + 1 = 2 * t.leafCount := by
  induction h generalizing k with
  | leaf => rfl
  | @branch f l r x y hl hr ihl ihr =>
    have := ihl k
    have := ihr (k + (l.zeroFreq.postOrder k).length)
    simp only [Tree.zeroFreq, Tree.postOrder, Tree.leafCount, List.length_append, List.length_cons, List.length_nil]
    omega

theorem freq_of_mem_postOrder {t : Tree} {k : Nat} {n : Node} (h : n ∈ t.zeroFreq.postOrder k) : n.freq = 0 := by
  induction t generalizing k with
  | absent => simp [Tree.zeroFreq, Tree.postOrder] at h
  | leaf =>
    obtain rfl : n = _ := by simpa [Tree.zeroFreq, Tree.postOrder] using h
    rfl
  | branch f l r ihl ihr =>
    simp only [Tree.zeroFreq, Tree.postOrder, List.mem_append, List.mem_singleton] at h
    rcases h with (h | h) | rfl
    · exact ihl h
    · exact ihr h
    · rfl

end Sys2Proof.Machine
end

