-- ==== Sys2Proof/Laws/Scan.lean ====
section
/-! SUPPORT. The laws of DESERIALIZE's scan: what it has built is a forest at every moment, and a tree when it ends well
(43_tree_codec.md R105, R106); what it does to whole tokens and to a string that spells a tree. -/

namespace Sys2Proof.Machine

/-- What the scan keeps: a forest that fits the arena, whose newest entry is on top of the stack, every frequency 0. -/
structure ScanState.Ok (c : ScanState) : Prop where
  forest : Forest c.nodes c.stack
  fits : c.nodes.length ≤ Config.nodeMax
  top : c.nodes ≠ [] → c.stack.head? = some (c.nodes.length - 1)
  leaves : c.leaves = leafEntries c.nodes
  zero : ∀ n ∈ c.nodes, n.freq = 0

theorem ScanState.ok_start : ScanState.Ok ⟨[], 0, []⟩ :=
  ⟨Forest.nil, by simp, by simp, rfl, by simp⟩

theorem arenaAt_zero {c : ScanState} (h : c.Ok) {i : Nat} (hi : i < c.nodes.length) :
    (arenaAt c.nodes i).freq = 0 := by
  rw [arenaAt_eq_getElem hi]
  exact h.zero _ (List.getElem_mem hi)

theorem ScanState.ok_pushLeaf {c : ScanState} (h : c.Ok) (hroom : c.nodes.length ≠ Config.nodeMax) (sym : Symbol) :
    (c.pushLeaf sym).Ok := by
  have hfits := h.fits
  refine ⟨h.forest.add_leaf sym 0, ?_, ?_, ?_, ?_⟩
  · simp only [ScanState.pushLeaf, List.length_append, List.length_cons, List.length_nil]; omega
  · simp [ScanState.pushLeaf]
  · simp [ScanState.pushLeaf, leafEntries_append, leafEntries, h.leaves]
  · intro n hn
    simp only [ScanState.pushLeaf, List.mem_append, List.mem_singleton] at hn
    rcases hn with hn | rfl
    · exact h.zero n hn
    · rfl

theorem ScanState.ok_pushBranch {c : ScanState} {lf rt : Nat} {rest : List Nat} (h : c.Ok)
    (hstack : c.stack = rt :: lf :: rest) (hroom : c.nodes.length ≠ Config.nodeMax) :
    (c.pushBranch lf rt rest).Ok := by
  have hfits := h.fits
  have hf := h.forest
  rw [hstack] at hf
  have hlf := arenaAt_zero h (hf.root_lt (i := lf) (by simp))
  have hrt := arenaAt_zero h (hf.root_lt (i := rt) (by simp))
  refine ⟨(hf.perm (List.Perm.swap lf rt rest)).add_branch hfits (by simp [hlf, hrt]), ?_, ?_, ?_, ?_⟩
  · simp only [ScanState.pushBranch, List.length_append, List.length_cons, List.length_nil]; omega
  · simp [ScanState.pushBranch]
  · simp [ScanState.pushBranch, leafEntries_append, leafEntries, h.leaves]
  · intro n hn
    simp only [ScanState.pushBranch, List.mem_append, List.mem_singleton] at hn
    rcases hn with hn | rfl
    · exact h.zero n hn
    · rw [Node.freq_branch, hlf, hrt]; rfl

/-! ### The scan, token by token (43_tree_codec.md R105) -/

@[simp] theorem scanTopology_nil (lit br : Byte) (c : ScanState) : scanTopology lit br [] c = .ok c := by
  simp [scanTopology]

theorem scanTopology_literal_end (lit br : Byte) (c : ScanState) :
    scanTopology lit br [lit] c = .error .truncLiteral := by
  simp [scanTopology]

theorem scanTopology_literal_full (lit br v : Byte) (rest : List Byte) {c : ScanState}
    (h : c.nodes.length = Config.nodeMax) : scanTopology lit br (lit :: v :: rest) c = .error .arenaFull := by
  simp [scanTopology, h]

theorem scanTopology_literal (lit br v : Byte) (rest : List Byte) {c : ScanState}
    (h : c.nodes.length ≠ Config.nodeMax) :
    scanTopology lit br (lit :: v :: rest) c = scanTopology lit br rest (c.pushLeaf v) := by
  simp [scanTopology, h]

theorem scanTopology_branch_full {lit br : Byte} (hne : br ≠ lit) (rest : List Byte) {c : ScanState} {rt lf : Nat}
    {stack : List Nat} (hs : c.stack = rt :: lf :: stack) (h : c.nodes.length = Config.nodeMax) :
    scanTopology lit br (br :: rest) c = .error .arenaFull := by
  rw [scanTopology.eq_def]; simp [hne, hs, h]

theorem scanTopology_branch {lit br : Byte} (hne : br ≠ lit) (rest : List Byte) {c : ScanState} {rt lf : Nat}
    {stack : List Nat} (hs : c.stack = rt :: lf :: stack) (h : c.nodes.length ≠ Config.nodeMax) :
    scanTopology lit br (br :: rest) c = scanTopology lit br rest (c.pushBranch lf rt stack) := by
  rw [scanTopology.eq_def]; simp [hne, hs, h]

theorem scanTopology_underflow {lit br : Byte} (hne : br ≠ lit) (rest : List Byte) {c : ScanState}
    (hs : c.stack.length < 2) : scanTopology lit br (br :: rest) c = .error .stackUnderflow := by
  rw [scanTopology.eq_def]
  match hc : c.stack, hs with
  | [], _ => simp [hne, hc]
  | [_], _ => simp [hne, hc]

theorem scanTopology_badMarker {lit br m : Byte} (h1 : m ≠ lit) (h2 : m ≠ br) (rest : List Byte) (c : ScanState) :
    scanTopology lit br (m :: rest) c = .error .badMarker := by
  rw [scanTopology.eq_def]; simp [h1, h2]

/-- The scan keeps all of it. -/
theorem scanTopology_ok {lit br : Byte} {bytes : List Byte} {c c' : ScanState} (h : c.Ok)
    (hs : scanTopology lit br bytes c = .ok c') : c'.Ok := by
  induction bytes, c using scanTopology.induct (lit := lit) (br := br) with
  | case1 c =>
    obtain rfl : c = c' := by simpa using hs
    exact h
  | case2 c => simp [scanTopology_literal_end] at hs
  | case3 c v rest hfull => simp [scanTopology_literal_full _ _ _ _ hfull] at hs
  | case4 c v rest hroom ih =>
    rw [scanTopology_literal _ _ _ _ hroom] at hs
    exact ih (ScanState.ok_pushLeaf h hroom v) hs
  | case5 rest c rt lf stack' hstack hfull hne => simp [scanTopology_branch_full hne _ hstack hfull] at hs
  | case6 rest c rt lf stack' hstack hroom hne ih =>
    rw [scanTopology_branch hne _ hstack hroom] at hs
    exact ih (ScanState.ok_pushBranch h hstack hroom) hs
  | case7 rest c hstack hne =>
    have : c.stack.length < 2 := by
      match hc : c.stack with
      | [] => simp
      | [_] => simp
      | rt :: lf :: stack' => exact (hstack rt lf stack' hc).elim
    simp [scanTopology_underflow hne _ this] at hs
  | case8 m rest c hne1 hne2 => simp [scanTopology_badMarker hne1 hne2] at hs

/-- A scan that ends well has built one tree: its root is the entry allocated last (43_tree_codec.md R106). -/
theorem deserializeBytes_ok {lit br : Byte} {bytes : List Byte} {c : ScanState}
    (h : deserializeBytes lit br bytes = .ok c) :
    c.Ok ∧ c.stack = [c.nodes.length - 1] ∧ ArenaOk c.nodes := by
  rw [deserializeBytes] at h
  split at h
  · simp at h
  next c' hs =>
    split at h
    next hlen =>
      obtain rfl : c' = c := by simpa using h
      have hok := scanTopology_ok ScanState.ok_start hs
      obtain ⟨x, hx⟩ := List.length_eq_one_iff.1 hlen
      have hlt : x < c'.nodes.length := hok.forest.root_lt (by simp [hx])
      have hne : c'.nodes ≠ [] := by intro he; simp [he] at hlt
      have htop := hok.top hne
      rw [hx] at htop
      obtain rfl : x = c'.nodes.length - 1 := by simpa using htop
      refine ⟨hok, hx, Forest.arenaOk ?_ (by omega) hok.fits⟩
      rw [← hx]
      exact hok.forest
    · simp at h

/-- What the scan does to whole tokens it takes without an error: it goes on with what comes after them
(43_tree_codec.md R105). -/
theorem ScansTo.scan {lit br : Byte} (hne : lit ≠ br) {x : List Byte} {depth count : Nat}
    (h : ScansTo lit br x depth count) (rest : List Byte) :
    ∃ c : ScanState, scanTopology lit br (x ++ rest) ⟨[], 0, []⟩ = scanTopology lit br rest c ∧
      c.stack.length = depth ∧ c.nodes.length = count := by
  induction h generalizing rest with
  | start => exact ⟨⟨[], 0, []⟩, rfl, rfl, rfl⟩
  | literal sym _ hroom ih =>
    obtain ⟨c, h1, h2, h3⟩ := ih (lit :: sym :: rest)
    refine ⟨c.pushLeaf sym, ?_, by simp [ScanState.pushLeaf, h2], by simp [ScanState.pushLeaf, h3]⟩
    rw [List.append_assoc, ← scanTopology_literal lit br sym rest (by omega)]
    exact h1
  | branch _ hroom ih =>
    obtain ⟨c, h1, h2, h3⟩ := ih (br :: rest)
    obtain ⟨rt, lf, stack', hs⟩ : ∃ rt lf stack', c.stack = rt :: lf :: stack' := by
      match hc : c.stack with
      | [] => simp [hc] at h2
      | [_] => simp [hc] at h2
      | rt :: lf :: stack' => exact ⟨rt, lf, stack', rfl⟩
    refine ⟨c.pushBranch lf rt stack', ?_, ?_, by simp [ScanState.pushBranch, h3]⟩
    · rw [List.append_assoc, ← scanTopology_branch (Ne.symm hne) rest hs (by omega)]
      exact h1
    · rw [hs] at h2
      simpa [ScanState.pushBranch] using h2

/-- What the scan does to a string that spells a tree, where the arena has room: it appends the tree's entries in
post-order and pushes the root (43_tree_codec.md R105, R108). -/
theorem Spells.scan {lit br : Byte} (hne : lit ≠ br) {t : Tree} {x : List Byte} (h : Spells lit br t x)
    (c : ScanState) (hzero : ∀ n ∈ c.nodes, n.freq = 0)
    (hroom : c.nodes.length + 2 * t.leafCount ≤ Config.nodeMax + 1) (rest : List Byte) :
    scanTopology lit br (x ++ rest) c = scanTopology lit br rest
      ⟨c.nodes ++ t.zeroFreq.postOrder c.nodes.length, c.leaves + t.leafCount,
        (c.nodes.length + 2 * t.leafCount - 2) :: c.stack⟩ := by
  induction h generalizing c rest with
  | leaf sym f =>
    simp only [Tree.leafCount] at hroom
    exact scanTopology_literal lit br sym rest (by omega)
  | @branch f l r x y hl hr ihl ihr =>
    simp only [Tree.leafCount] at hroom
    have pl := hl.leafCount_pos
    have pr := hr.leafCount_pos
    have nl := hl.postOrder_length c.nodes.length
    have nr := hr.postOrder_length (c.nodes ++ l.zeroFreq.postOrder c.nodes.length).length
    have zl : ∀ n ∈ c.nodes ++ l.zeroFreq.postOrder c.nodes.length, n.freq = 0 := fun n hn =>
      (List.mem_append.1 hn).elim (hzero n) freq_of_mem_postOrder
    rw [List.append_assoc, List.append_assoc, ihl c hzero (by omega),
      ihr _ zl (by simp only [List.length_append]; omega), List.singleton_append,
      scanTopology_branch (Ne.symm hne) rest rfl (by simp only [List.length_append] at nr ⊢; omega)]
    have az : ∀ i, i < (c.nodes ++ l.zeroFreq.postOrder c.nodes.length ++
        r.zeroFreq.postOrder (c.nodes ++ l.zeroFreq.postOrder c.nodes.length).length).length →
        (arenaAt (c.nodes ++ l.zeroFreq.postOrder c.nodes.length ++
          r.zeroFreq.postOrder (c.nodes ++ l.zeroFreq.postOrder c.nodes.length).length) i).freq = 0 := by
      intro i hi
      rw [arenaAt_eq_getElem hi]
      exact (List.mem_append.1 (List.getElem_mem hi)).elim (zl _) freq_of_mem_postOrder
    simp only [ScanState.pushBranch]
    simp only [List.length_append] at nr
    rw [az _ (by simp only [List.length_append]; omega), az _ (by simp only [List.length_append]; omega)]
    congr 1
    simp only [Tree.zeroFreq, Tree.postOrder, Tree.leafCount, List.append_assoc, List.length_append,
      ScanState.mk.injEq, List.cons.injEq, and_true]
    refine ⟨?_, by omega, by omega⟩
    generalize hx : l.zeroFreq.postOrder c.nodes.length = u at *
    generalize hy : r.zeroFreq.postOrder (c.nodes.length + u.length) = v at *
    rw [show c.nodes.length + 2 * l.leafCount - 2 = c.nodes.length + u.length - 1 by omega,
      show c.nodes.length + u.length + 2 * r.leafCount - 2 = c.nodes.length + u.length + v.length - 1 by omega]
    rfl

end Sys2Proof.Machine
end

