-- ==== Sys2Proof/Laws/Exec.lean ====
section
/-! SUPPORT. Everything each meaning can do: one inversion lemma a command, and the bounds of the output streams. -/

namespace Sys2Proof.Machine

/-! ### The output streams -/

/-- ENCODE's output fits what is left of DCAP (42_compressor.md R96). -/
theorem encodeStream_length {ct : Vector (Option Code) 256} {room : Nat} {src out : List Byte}
    (h : encodeStream ct room src = .ok out) : out.length ≤ room := by
  induction src generalizing room out with
  | nil =>
    obtain rfl : [] = out := by simpa [encodeStream] using h
    simp
  | cons sym src ih =>
    rw [encodeStream] at h
    split at h
    · simp at h
    next code hcode =>
      split at h
      · simp at h
      next hroom =>
        split at h
        next out' hout =>
          obtain rfl : code.map codeByte ++ out' = out := by simpa using h
          have := ih hout
          simp only [List.length_append, List.length_map]
          omega
        · simp at h

/-- ENCODE's scan meets only a lookup miss or a full destination (42_compressor.md R97). -/
theorem encodeStream_error {ct : Vector (Option Code) 256} {room : Nat} {src : List Byte} {e : ErrCode}
    (h : encodeStream ct room src = .error e) : e = .lookupMiss ∨ e = .dstFull := by
  induction src generalizing room with
  | nil => simp [encodeStream] at h
  | cons sym src ih =>
    rw [encodeStream] at h
    split at h
    · exact .inl (by simpa using h.symm)
    · split at h
      · exact .inr (by simpa using h.symm)
      · split at h
        · simp at h
        next e' he =>
          obtain rfl : e' = e := by simpa using h
          exact ih he

/-- DECODE's output fits what is left of DCAP (44_decompressor.md R111). -/
theorem decodeStream_length {nodes : List Node} {root cur : NodeIdx} {room : Nat} {src out : List Byte}
    (h : decodeStream nodes root cur room src = .ok out) : out.length ≤ room := by
  induction src generalizing cur room out with
  | nil =>
    rw [decodeStream] at h
    split at h
    · obtain rfl : [] = out := by simpa using h
      simp
    · simp at h
  | cons b src ih =>
    rw [decodeStream] at h
    split at h
    · simp at h
    · split at h
      · simp at h
      · split at h
        · exact ih h
        · split at h
          · simp at h
          · split at h
            next sym _ _ _ room' _ out' hout =>
              obtain rfl : sym :: out' = out := by simpa using h
              have := ih hout
              simp only [List.length_cons]
              omega
            · simp at h

/-- DECODE's scan meets only its four errors (44_decompressor.md R112). -/
theorem decodeStream_error {nodes : List Node} {root cur : NodeIdx} {room : Nat} {src : List Byte} {e : ErrCode}
    (h : decodeStream nodes root cur room src = .error e) :
    e = .badBit ∨ e = .missingChild ∨ e = .dstFull ∨ e = .truncatedCode := by
  induction src generalizing cur room with
  | nil =>
    rw [decodeStream] at h
    split at h
    · simp at h
    · exact .inr (.inr (.inr (by simpa using h.symm)))
  | cons b src ih =>
    rw [decodeStream] at h
    split at h
    · exact .inl (by simpa using h.symm)
    · split at h
      · exact .inr (.inl (by simpa using h.symm))
      · split at h
        · exact ih h
        · split at h
          · exact .inr (.inr (.inl (by simpa using h.symm)))
          · split at h
            · simp at h
            next e' he =>
              obtain rfl : e' = e := by simpa using h
              exact ih he

/-- DESERIALIZE's scan meets only its four scan errors (43_tree_codec.md R107). -/
theorem scanTopology_error {lit br : Byte} {bytes : List Byte} {c : ScanState} {e : ErrCode}
    (h : scanTopology lit br bytes c = .error e) :
    e = .truncLiteral ∨ e = .stackUnderflow ∨ e = .badMarker ∨ e = .arenaFull := by
  induction bytes, c using scanTopology.induct (lit := lit) (br := br) with
  | case1 c => simp at h
  | case2 c => rw [scanTopology_literal_end] at h; simp_all
  | case3 c v rest hfull => rw [scanTopology_literal_full _ _ _ _ hfull] at h; simp_all
  | case4 c v rest hroom ih =>
    rw [scanTopology_literal _ _ _ _ hroom] at h
    exact ih h
  | case5 rest c rt lf stack' hstack hfull hne =>
    rw [scanTopology_branch_full hne _ hstack hfull] at h; simp_all
  | case6 rest c rt lf stack' hstack hroom hne ih =>
    rw [scanTopology_branch hne _ hstack hroom] at h
    exact ih h
  | case7 rest c hstack hne =>
    have : c.stack.length < 2 := by
      match hc : c.stack with
      | [] => simp
      | [_] => simp
      | rt :: lf :: stack' => exact (hstack rt lf stack' hc).elim
    rw [scanTopology_underflow hne _ this] at h; simp_all
  | case8 m rest c hne1 hne2 => rw [scanTopology_badMarker hne1 hne2] at h; simp_all

/-! ### Everything a command can do -/

theorem complete_next {s t : State} (h : complete s = .next t) : t = s.finish .ok := by
  simpa [complete] using h.symm

theorem raiseError_next {e : ErrCode} {s t : State} (h : raiseError e s = .next t) : t = s.finish e := by
  simpa [raiseError] using h.symm

theorem execClrfreq_next {s t : State} (h : execClrfreq s = .next t) :
    t = { s with freq := Vector.replicate 256 0 }.finish .ok := complete_next h

theorem execBuild_next {s t : State} (h : execBuild s = .next t) :
    s.present = [] ∧ t = s.finish .emptyFreq ∨
    s.present ≠ [] ∧ Config.freqMax < freqTotal s.present ∧ t = s.finish .freqOvf ∨
    s.present ≠ [] ∧ freqTotal s.present ≤ Config.freqMax ∧
      t = (s.installTree (buildArena s.present) s.present.length).finish .ok := by
  rw [execBuild] at h
  split at h
  next h1 => exact .inl ⟨h1, raiseError_next h⟩
  next h1 =>
    split at h
    next h2 => exact .inr (.inl ⟨h1, h2, raiseError_next h⟩)
    next h2 => exact .inr (.inr ⟨h1, Nat.le_of_not_lt h2, complete_next h⟩)

theorem execTeardown_next {s t : State} (h : execTeardown s = .next t) : t = s.clearTree.finish .ok :=
  complete_next h

theorem execNodecmp_next {a b : Nat} {s t : State} (h : execNodecmp a b s = .next t) :
    s.treeValid = false ∧ t = { s with result := false }.finish .noTree ∨
    s.treeValid = true ∧ (s.ncount.toNat ≤ a ∨ s.ncount.toNat ≤ b) ∧
      t = { s with result := false }.finish .badNode ∨
    s.treeValid = true ∧ a < s.ncount.toNat ∧ b < s.ncount.toNat ∧
      t = { s with result := precedes s.nodes a b }.finish .ok := by
  rw [execNodecmp] at h
  split at h
  next h1 => exact .inl ⟨h1, raiseError_next h⟩
  next h1 =>
    have h1' : s.treeValid = true := by simpa using h1
    split at h
    next h2 => exact .inr (.inl ⟨h1', h2, raiseError_next h⟩)
    next h2 => exact .inr (.inr ⟨h1', by omega, by omega, complete_next h⟩)

theorem execGencodes_next {s t : State} (h : execGencodes s = .next t) :
    s.treeValid = false ∧ t = s.finish .noTree ∨
    s.treeValid = true ∧ ∃ tree, s.currentTree = some tree ∧
      ((tableOf tree).2 = true ∧ t = s.clearTable.finish .dupLeaf ∨
        (tableOf tree).2 = false ∧ t = { s with ct := (tableOf tree).1, tableValid := true }.finish .ok) := by
  rw [execGencodes] at h
  split at h
  next h1 => exact .inl ⟨h1, raiseError_next h⟩
  next h1 =>
    refine .inr ⟨by simpa using h1, ?_⟩
    split at h
    · simp at h
    next tree htree =>
      refine ⟨tree, htree, ?_⟩
      split at h
      next hd => exact .inl ⟨by rw [hd], raiseError_next h⟩
      next table hd => exact .inr ⟨by rw [hd], by rw [hd]; exact complete_next h⟩

theorem execEncode_next {s t : State} (h : execEncode s = .next t) :
    s.tableValid = false ∧ t = s.finish .noCodes ∨
    s.tableValid = true ∧ (s.srcOk = false ∨ s.dstOk = false) ∧ t = s.finish .bounds ∨
    s.tableValid = true ∧ s.srcOk = true ∧ s.dstOk = true ∧
      (s.overlaps = true ∧ t = s.finish .overlap ∨
        s.overlaps = false ∧
          ((∃ out, encodeStream s.ct s.dcap.toNat s.sourceBytes = .ok out ∧ t = (s.putOutput out).finish .ok) ∨
            ∃ e, encodeStream s.ct s.dcap.toNat s.sourceBytes = .error e ∧
              t = { s.havocDst with fatal := s.fatal || e = ErrCode.lookupMiss }.finish e)) := by
  rw [execEncode] at h
  split at h
  next h1 => exact .inl ⟨h1, raiseError_next h⟩
  next h1 =>
    have h1' : s.tableValid = true := by simpa using h1
    split at h
    next h2 => exact .inr (.inl ⟨h1', h2, raiseError_next h⟩)
    next h2 =>
      have h2' : s.srcOk = true ∧ s.dstOk = true := by simpa using h2
      refine .inr (.inr ⟨h1', h2'.1, h2'.2, ?_⟩)
      split at h
      next h3 => exact .inl ⟨h3, raiseError_next h⟩
      next h3 =>
        refine .inr ⟨by simpa using h3, ?_⟩
        split at h
        next out hout => exact .inl ⟨out, hout, complete_next h⟩
        next e he => exact .inr ⟨e, he, raiseError_next h⟩

theorem execDecode_next {s t : State} (h : execDecode s = .next t) :
    s.treeValid = false ∧ t = s.finish .noTree ∨
    s.treeValid = true ∧ (s.nodeAt s.root.toNat).isBranch = false ∧ t = s.finish .singleLeaf ∨
    s.treeValid = true ∧ (s.nodeAt s.root.toNat).isBranch = true ∧
      ((s.srcOk = false ∨ s.dstOk = false) ∧ t = s.finish .bounds ∨
        s.srcOk = true ∧ s.dstOk = true ∧
          (s.overlaps = true ∧ t = s.finish .overlap ∨
            s.overlaps = false ∧
              ((∃ out, decodeStream s.nodes s.root s.root s.dcap.toNat s.sourceBytes = .ok out ∧
                  t = (s.putOutput out).finish .ok) ∨
                ∃ e, decodeStream s.nodes s.root s.root s.dcap.toNat s.sourceBytes = .error e ∧
                  t = s.havocDst.finish e))) := by
  rw [execDecode] at h
  split at h
  next h1 => exact .inl ⟨h1, raiseError_next h⟩
  next h1 =>
    have h1' : s.treeValid = true := by simpa using h1
    split at h
    next h2 => exact .inr (.inl ⟨h1', h2, raiseError_next h⟩)
    next h2 =>
      refine .inr (.inr ⟨h1', by simpa using h2, ?_⟩)
      split at h
      next h3 => exact .inl ⟨h3, raiseError_next h⟩
      next h3 =>
        have h3' : s.srcOk = true ∧ s.dstOk = true := by simpa using h3
        refine .inr ⟨h3'.1, h3'.2, ?_⟩
        split at h
        next h4 => exact .inl ⟨h4, raiseError_next h⟩
        next h4 =>
          refine .inr ⟨by simpa using h4, ?_⟩
          split at h
          next out hout => exact .inl ⟨out, hout, complete_next h⟩
          next e he => exact .inr ⟨e, he, raiseError_next h⟩

theorem execSerialize_next {s t : State} (h : execSerialize s = .next t) :
    s.treeValid = false ∧ t = s.finish .noTree ∨
    s.treeValid = true ∧ s.markersClash = true ∧ t = s.finish .markerCfg ∨
    s.treeValid = true ∧ s.markersClash = false ∧
      (s.dstOk = false ∧ t = s.finish .bounds ∨
        s.dstOk = true ∧ ∃ out, s.serialized = some out ∧
          (s.dcap.toNat < out.length ∧ t = s.havocDst.finish .dstFull ∨
            out.length ≤ s.dcap.toNat ∧ t = (s.putOutput out).finish .ok)) := by
  rw [execSerialize] at h
  split at h
  next h1 => exact .inl ⟨h1, raiseError_next h⟩
  next h1 =>
    have h1' : s.treeValid = true := by simpa using h1
    split at h
    next h2 => exact .inr (.inl ⟨h1', h2, raiseError_next h⟩)
    next h2 =>
      refine .inr (.inr ⟨h1', by simpa using h2, ?_⟩)
      split at h
      next h3 => exact .inl ⟨h3, raiseError_next h⟩
      next h3 =>
        refine .inr ⟨by simpa using h3, ?_⟩
        split at h
        · simp at h
        next out hout =>
          refine ⟨out, hout, ?_⟩
          split at h
          next h4 => exact .inl ⟨h4, raiseError_next h⟩
          next h4 => exact .inr ⟨Nat.le_of_not_lt h4, complete_next h⟩

theorem execDeserialize_next {s t : State} (h : execDeserialize s = .next t) :
    s.markersClash = true ∧ t = s.finish .markerCfg ∨
    s.markersClash = false ∧
      (s.srcOk = false ∧ t = s.finish .bounds ∨
        s.srcOk = true ∧
          ((∃ e, deserializeBytes s.lit s.br s.sourceBytes = .error e ∧ t = s.clearTree.finish e) ∨
            ∃ c, deserializeBytes s.lit s.br s.sourceBytes = .ok c ∧
              t = (s.installTree c.nodes c.leaves).finish .ok)) := by
  rw [execDeserialize] at h
  split at h
  next h1 => exact .inl ⟨h1, raiseError_next h⟩
  next h1 =>
    refine .inr ⟨by simpa using h1, ?_⟩
    split at h
    next h2 => exact .inl ⟨h2, raiseError_next h⟩
    next h2 =>
      refine .inr ⟨by simpa using h2, ?_⟩
      split at h
      next e he => exact .inl ⟨e, he, raiseError_next h⟩
      next c hc => exact .inr ⟨c, hc, complete_next h⟩

end Sys2Proof.Machine
end

