-- ==== Sys2Proof/Laws/PerInstr.lean ====
section
/-! SUPPORT. Facts about every command as syntax, one lemma for each constructor. -/

namespace Sys2Proof.Laws

/-! ### The fields of NODECMP's word (30_encoding.md R63, R72) -/

theorem ofNat_bit (w n k : Nat) (h : k < w) : (BitVec.ofNat w n)[k] = n.testBit k := by
  rw [← BitVec.getLsbD_eq_getElem, BitVec.getLsbD_ofNat]; simp [h]

theorem no_high_bit {a : Nat} (ha : a < 512) {k : Nat} (hk : 9 ≤ k) : a.testBit k = false :=
  Nat.testBit_lt_two_pow (lt_of_lt_of_le ha (Nat.pow_le_pow_right (n := 2) (i := 9) (by decide) hk))

theorem nodecmp_row {a b : Nat} (ha : a < 512) (hb : b < 512) :
    encode (.nodecmp a b) &&& 4227858687#32 = 4#32 := by
  apply BitVec.eq_of_getLsbD_eq
  intro i hi
  interval_cases i <;> simp [encode] <;> simp [ofNat_bit, no_high_bit ha, no_high_bit hb]

theorem nodecmp_opc (a b : Nat) : opcField (encode (.nodecmp a b)) = 0x04 := by
  apply BitVec.eq_of_getLsbD_eq
  intro i hi
  interval_cases i <;> simp [encode, opcField]

theorem nodecmp_a {a b : Nat} (ha : a < 512) : aField (encode (.nodecmp a b)) = a := by
  have : (encode (.nodecmp a b)).extractLsb' 8 9 = BitVec.ofNat 9 a := by
    apply BitVec.eq_of_getLsbD_eq
    intro i hi
    interval_cases i <;> simp [encode] <;> simp [ofNat_bit]
  rw [aField, this, BitVec.toNat_ofNat]; omega

theorem nodecmp_b {a b : Nat} (ha : a < 512) (hb : b < 512) : bField (encode (.nodecmp a b)) = b := by
  have : (encode (.nodecmp a b)).extractLsb' 17 9 = BitVec.ofNat 9 b := by
    apply BitVec.eq_of_getLsbD_eq
    intro i hi
    interval_cases i <;> simp [encode] <;> simp [ofNat_bit, no_high_bit ha]
  rw [bField, this, BitVec.toNat_ofNat]; omega

theorem full_mask (w : Word) : w &&& 4294967295#32 = w := BitVec.and_allOnes (x := w)

/-! ### One row selects a command's word -/

/-- The word of a well-formed command is selected by one row of the opcode map and by no other, and that row names the
command (30_encoding.md R65, R74). -/
def OneRowSelects.Statement (i : Instr) : Prop :=
  i.WellFormed →
    ∃ row, opcodeTable.filter (fun r => r.selects (encode i)) = [row] ∧ instrOf (encode i) row.mnemonic = i

theorem OneRowSelects.nodecmp (a b : Nat) : OneRowSelects.Statement (.nodecmp a b) := by
  rintro ⟨ha, hb⟩
  refine ⟨⟨.nodecmp, 0x00000004, 0xFC0000FF⟩, ?_, by simp [instrOf, nodecmp_a ha, nodecmp_b ha hb]⟩
  have hm := nodecmp_row ha hb
  have hne : ∀ p : Word, opcField p ≠ 4 → encode (.nodecmp a b) ≠ p := by
    rintro p hp rfl; exact hp (nodecmp_opc a b)
  generalize encode (.nodecmp a b) = w at hm hne ⊢
  have h1 := hne 1#32 (by decide)
  have h2 := hne 2#32 (by decide)
  have h3 := hne 3#32 (by decide)
  have h4 := hne 16#32 (by decide)
  have h5 := hne 32#32 (by decide)
  have h6 := hne 33#32 (by decide)
  have h7 := hne 48#32 (by decide)
  have h8 := hne 49#32 (by decide)
  simp [opcodeTable, Row.selects, full_mask, *]

theorem OneRowSelects.clrfreq : OneRowSelects.Statement .clrfreq :=
  fun _ => ⟨⟨.clrfreq, 1, 0xFFFFFFFF⟩, by decide, rfl⟩

theorem OneRowSelects.build : OneRowSelects.Statement .build :=
  fun _ => ⟨⟨.build, 2, 0xFFFFFFFF⟩, by decide, rfl⟩

theorem OneRowSelects.teardown : OneRowSelects.Statement .teardown :=
  fun _ => ⟨⟨.teardown, 3, 0xFFFFFFFF⟩, by decide, rfl⟩

theorem OneRowSelects.gencodes : OneRowSelects.Statement .gencodes :=
  fun _ => ⟨⟨.gencodes, 0x10, 0xFFFFFFFF⟩, by decide, rfl⟩

theorem OneRowSelects.encode : OneRowSelects.Statement .encode :=
  fun _ => ⟨⟨.encode, 0x20, 0xFFFFFFFF⟩, by decide, rfl⟩

theorem OneRowSelects.decode : OneRowSelects.Statement .decode :=
  fun _ => ⟨⟨.decode, 0x21, 0xFFFFFFFF⟩, by decide, rfl⟩

theorem OneRowSelects.serialize : OneRowSelects.Statement .serialize :=
  fun _ => ⟨⟨.serialize, 0x30, 0xFFFFFFFF⟩, by decide, rfl⟩

theorem OneRowSelects.deserialize : OneRowSelects.Statement .deserialize :=
  fun _ => ⟨⟨.deserialize, 0x31, 0xFFFFFFFF⟩, by decide, rfl⟩

end Sys2Proof.Laws
end

