-- ==== Sys2Proof/Laws/Step.lean ====
section
/-! SUPPORT. Everything one step can do: the inversion lemmas of the Engine's turn, the Host's turn and the step. -/

namespace Sys2Proof.Machine

/-- Everything an Engine step can do (60_exceptions.md R117). -/
theorem engineStep_next {s t : State} (h : engineStep s = .next t) :
    s.fatal = true ∧ t = s.finish .fatal ∨
    s.fatal = false ∧ (∃ r, decodeCmd s.pend = .error r) ∧ t = s.finish .illegalCmd ∨
    s.fatal = false ∧ ∃ i, decodeCmd s.pend = .ok i ∧ exec i s = .next t := by
  rw [engineStep] at h
  split at h
  next h1 => exact .inl ⟨h1, raiseError_next h⟩
  next h1 =>
    split at h
    next r hr => exact .inr (.inl ⟨by simpa using h1, ⟨r, hr⟩, raiseError_next h⟩)
    next i hi => exact .inr (.inr ⟨by simpa using h1, i, hi, h⟩)

/-- Everything the Engine's turn can do (00_scope.md R6). -/
theorem engineTurn_next {s t : State} (h : engineTurn s = .next t) :
    s.busy = false ∧ t = s ∨ s.busy = true ∧ engineStep s = .next t := by
  rw [engineTurn] at h
  split at h
  next h1 => exact .inr ⟨h1, h⟩
  next h1 => exact .inl ⟨by simpa using h1, by simpa using h.symm⟩

/-- Everything the Host's turn can do (00_scope.md R6, R7). -/
theorem hostTurn_next {s t : State} (h : hostTurn s = .next t) :
    s.host = [] ∧ t = s ∨
    (∃ rest, s.host = .poll :: rest ∧
      t = { s with reads := s.statusWord :: s.reads, host := if s.busy then s.host else rest }) ∨
    (∃ w off rest tgt, s.host = .read w off :: rest ∧ classify s.lmemSize w off = some tgt ∧
      t = { s with host := rest }.hostRead w tgt) ∨
    ∃ w off v rest tgt, s.host = .write w off v :: rest ∧ classify s.lmemSize w off = some tgt ∧
      t = { s with host := rest }.hostWrite w v tgt := by
  rw [hostTurn] at h
  split at h
  next h1 => exact .inl ⟨h1, by simpa using h.symm⟩
  next rest h1 => exact .inr (.inl ⟨rest, h1, by simpa using h.symm⟩)
  next w off rest h1 =>
    split at h
    · simp at h
    next tgt ht => exact .inr (.inr (.inl ⟨w, off, rest, tgt, h1, ht, by simpa using h.symm⟩))
  next w off v rest h1 =>
    split at h
    · simp at h
    next tgt ht => exact .inr (.inr (.inr ⟨w, off, v, rest, tgt, h1, ht, by simpa using h.symm⟩))

/-- Everything a step can do: the Engine's turn, the Host's turn or a hard reset, each with the turns that lead to it, on
the state whose used-up turn is gone (00_scope.md R6; 70_reset_and_hazards.md R135). -/
theorem step_next {s t : State} (h : step s = .next t) :
    (s.turns.head? = some .engine ∨ s.turns = [] ∧ s.busy = true) ∧
      engineTurn { s with turns := s.turns.tail } = .next t ∨
    (s.turns.head? = some .host ∨ s.turns = [] ∧ s.busy = false) ∧
      hostTurn { s with turns := s.turns.tail } = .next t ∨
    s.turns.head? = some .hardReset ∧ t = { s with turns := s.turns.tail }.hardReset := by
  rw [step] at h
  split at h
  next rest hts => exact .inl ⟨.inl (by rw [hts]; rfl), by rw [hts]; exact h⟩
  next rest hts => exact .inr (.inl ⟨.inl (by rw [hts]; rfl), by rw [hts]; exact h⟩)
  next rest hts => exact .inr (.inr ⟨by rw [hts]; rfl, by rw [hts]; simpa using h.symm⟩)
  next hts =>
    have hs : { s with turns := s.turns.tail } = s := by rw [hts, List.tail_nil, ← hts]
    split at h
    next hb => exact .inl ⟨.inr ⟨hts, hb⟩, by rw [hs]; exact h⟩
    next hb => exact .inr (.inl ⟨.inr ⟨hts, by simpa using hb⟩, by rw [hs]; exact h⟩)

/-- Everything a permitted read changes: the Host's record and the draw counter (20_memory.md R53). -/
theorem State.hostRead_eq (s : State) (w : Width) (tgt : Target) :
    s.hostRead w tgt =
      { s with reads := (s.hostRead w tgt).reads, draws := (s.hostRead w tgt).draws } := by
  rw [State.hostRead]
  split <;> rfl

/-- Everything a write that needs an idle block can do (60_exceptions.md R128). -/
theorem State.whenIdle_eq (s written : State) :
    s.busy = true ∧ s.whenIdle written = s.droppedWrite ∨ s.busy = false ∧ s.whenIdle written = written := by
  rw [State.whenIdle]
  split
  next h => exact .inl ⟨h, rfl⟩
  next h => exact .inr ⟨by simpa using h, rfl⟩

/-- Everything a soft reset can do (70_reset_and_hazards.md R138). -/
theorem State.softReset_eq (s : State) :
    s.softReset = s.resetRegisters ∨ s.busy = true ∧ s.dstOk = true ∧ s.softReset = s.havocDst.resetRegisters := by
  rw [State.softReset]
  split
  next h =>
    simp only [Bool.and_eq_true] at h
    exact .inr ⟨h.1.1, h.2, rfl⟩
  · exact .inl rfl

/-! ### What a read that is no draw gives -/

theorem State.readBytes_host (s : State) (rest : List HostOp) (a n : Nat) :
    ({ s with host := rest } : State).readBytes a n = s.readBytes a n := by
  induction n generalizing a with
  | zero => rfl
  | succ n ih => simp only [State.readBytes, ih]; rfl

theorem State.readTarget_host (s : State) (rest : List HostOp) (w : Width) (tgt : Target) :
    ({ s with host := rest } : State).readTarget w tgt = s.readTarget w tgt := by
  cases tgt with
  | lmem a => simp only [State.readTarget, State.memRead, State.readBytes_host]
  | reg r => rfl
  | freq sym => rfl
  | node i k => rfl
  | ct sym k => rfl

/-- A Host read gives the data of the target its offset reaches (10_state.md R16; 20_memory.md R46). -/
theorem hostTurn_read {s : State} {w : Width} {off : Offset} {rest : List HostOp} {tgt : Target} {v : Word}
    (h : s.host = .read w off :: rest) (hc : classify s.lmemSize w off = some tgt)
    (hv : s.readTarget w tgt = some v) :
    hostTurn s = .next { s with host := rest, reads := v :: s.reads } := by
  simp [hostTurn, h, hc, State.hostRead, State.readTarget_host, hv]

/-- A drawn word has no bit above the bits that are a draw (10_state.md R16). -/
theorem State.drawnWord_lt (s : State) (w : Width) (tgt : Target) :
    (s.drawnWord w tgt).toNat < 2 ^ tgt.drawnBits w := by
  rw [State.drawnWord, BitVec.toNat_ofNat]
  exact Nat.lt_of_le_of_lt (Nat.mod_le _ _) (Nat.mod_lt _ (Nat.two_pow_pos _))

/-- A Host read that the spec calls any value gives a drawn word and advances the draws (70_reset_and_hazards.md
R142). -/
theorem hostTurn_read_drawn {s : State} {w : Width} {off : Offset} {rest : List HostOp} {tgt : Target}
    (h : s.host = .read w off :: rest) (hc : classify s.lmemSize w off = some tgt)
    (hv : s.readTarget w tgt = none) :
    hostTurn s = .next { s with
      host := rest, reads := s.drawnWord w tgt :: s.reads, draws := s.draws + 1 } := by
  simp [hostTurn, h, hc, State.hostRead, State.readTarget_host, hv, State.drawnWord]

/-- Bit i of a code's number is its code symbol i, and 0 past its end (10_state.md R32). -/
theorem codeBits_testBit (code : Code) (i : Nat) : (codeBits code).testBit i = code.getD i false := by
  induction code generalizing i with
  | nil => simp [codeBits]
  | cons b bs ih =>
    cases i with
    | zero => cases b <;> simp [codeBits]
    | succ i =>
      have h : codeBits (b :: bs) / 2 = codeBits bs := by
        cases b
        · simp [codeBits]
        · simp [codeBits]
          omega
      rw [Nat.testBit_succ, h, ih]
      simp

/-! ### What the address map gives (20_memory.md R46 to R48) -/

/-- An access that reaches LMEM starts inside it and is aligned. -/
theorem classify_lmem {size : Nat} {w : Width} {off : Offset} {a : Nat} (h : classify size w off = some (.lmem a)) :
    a < size ∧ a % w.bytes = 0 := by
  unfold classify at h
  simp only at h
  repeat' split at h
  all_goals first | (simp at h; done) | skip
  obtain rfl : _ = a := by simpa using h
  refine ⟨by omega, ?_⟩
  cases w <;> simp only [Width.bytes] at * <;> omega

/-- An aligned access that starts in LMEM ends in it, so a Host write keeps the canonical form. -/
theorem State.lmem_fits {s : State} {w : Width} {a : Nat} (h : a < s.lmemSize) (h2 : a % w.bytes = 0) :
    a + w.bytes ≤ s.lmemSize := by
  have : s.lmemSize % 256 = 0 := by
    obtain ⟨k, hk⟩ : ∃ k, s.lmemLog2.1 = 8 + k := ⟨s.lmemLog2.1 - 8, by have := s.lmemLog2.2.1; omega⟩
    rw [State.lmemSize, hk, Nat.pow_add]
    simp
  cases w <;> simp only [Width.bytes] at * <;> omega

/-- Only a 32-bit access at offset 0x008 reaches CTRL. -/
theorem classify_ctrl {size : Nat} {w : Width} {off : Offset} (h : classify size w off = some (.reg .ctrl)) :
    w = .w32 ∧ off = 0x008 := by
  unfold classify at h
  simp only at h
  split at h
  · split at h
    next h1 h2 =>
      simp only [wordAccess, Bool.and_eq_true, decide_eq_true_eq] at h2
      refine ⟨h2.1, BitVec.eq_of_toNat_eq (show off.toNat = 8 from ?_)⟩
      simp only [Option.some.injEq, Target.reg.injEq] at h
      have h3 := h2.2
      generalize off.toNat = o at *
      have hb : o / 4 < 16 := by omega
      have : o / 4 = 2 := by
        generalize o / 4 = k at h hb
        interval_cases k <;> simp_all [Reg.ofIndex]
      omega
    · simp at h
  · repeat' split at h
    all_goals simp at h

end Sys2Proof.Machine
end

