-- ==== Sys2Proof/Machine/HostProgram.lean ====
section
/-! DEFINITION. The notation of host programs (30_encoding.md R73) as functions that make lists of transactions. It
is notation, no part of the hardware: nothing in the step uses it. -/

namespace Sys2Proof.Machine.HostProgram

/-- WR r, v (30_encoding.md R73). -/
def wr (off : Offset) (v : Word) : List HostOp := [.write .w32 off v]

/-- RD r (30_encoding.md R73). -/
def rd (off : Offset) : List HostOp := [.read .w32 off]

/-- The offset of LMEM address a (20_memory.md R46). -/
def lmemOffset (a : Nat) : Offset := BitVec.ofNat 17 (0x10000 + a)

/-- WRB a, bytes (30_encoding.md R73). -/
def wrb : Nat → List Byte → List HostOp
  | _, [] => []
  | a, v :: vs => .write .w8 (lmemOffset a) (v.setWidth 32) :: wrb (a + 1) vs

/-- RDB a, n (30_encoding.md R73). -/
def rdb : Nat → Nat → List HostOp
  | _, 0 => []
  | a, n + 1 => .read .w8 (lmemOffset a) :: rdb (a + 1) n

/-- RUN cmd (30_encoding.md R73). -/
def run (i : Instr) : List HostOp := wr 0x010 (encode i) ++ [.poll]

/-- ACK (30_encoding.md R73). -/
def ack : List HostOp := wr 0x00C 0x2

/-- SETWIN s, sl, d, dc (30_encoding.md R73). -/
def setwin (s sl d dc : Word) : List HostOp := wr 0x018 s ++ wr 0x01C sl ++ wr 0x020 d ++ wr 0x024 dc

/-- The offset of FREQ[sym] (10_state.md R27). -/
def freqOffset (sym : Symbol) : Offset := BitVec.ofNat 17 (0x400 + 4 * sym.toNat)

/-- The writes of LOADFREQ after its CLRFREQ (30_encoding.md R73). -/
def freqWrites : List (Symbol × Word) → List HostOp
  | [] => []
  | (sym, n) :: rest => wr (freqOffset sym) n ++ freqWrites rest

/-- LOADFREQ pairs (30_encoding.md R73). -/
def loadfreq (pairs : List (Symbol × Word)) : List HostOp := run .clrfreq ++ freqWrites pairs

end Sys2Proof.Machine.HostProgram
end

