-- ==== Sys2Proof/Tests/Slice0.lean ====
section
/-! SUPPORT. The model's own tests: words written out from the spec's encodings, small vectors of 95_test_vectors.md,
and a witness for the hypotheses of every statement that has some. -/

namespace Sys2Proof.Tests

open Sys2Proof.Machine

/-! ### Helpers -/

/-- What f says of the next state, none after a fault or a refusal. -/
def after {α : Type} (o : Host.Outcome State Fault Refusal) (f : State → α) : Option α :=
  match o with
  | .next t => some (f t)
  | .fault _ => none
  | .refused _ => none

/-- The next state itself; State.reset after a fault or a refusal. -/
def nextOf (o : Host.Outcome State Fault Refusal) : State := (after o id).getD State.reset

theorem next_of_after {α : Type} {o : Host.Outcome State Fault Refusal} {f : State → α} {x : α}
    (h : after o f = some x) : o = .next (nextOf o) ∧ f (nextOf o) = x := by
  cases o with
  | next t => exact ⟨rfl, by simpa [after, nextOf] using h⟩
  | fault r => simp [after] at h
  | refused r => simp [after] at h

/-- A state like reset, PEND a plain number. -/
def base : State := { State.reset with pend := 0 }

/-- FREQ of "abracadabra" (95_test_vectors.md S1). -/
def abraFreq : Vector Word 256 :=
  ((((Vector.replicate 256 0).set 97 5).set 98 2).set 99 1).set 100 1 |>.set 114 2

/-- The arena of V-BLD-1. -/
def abraNodes : List Node :=
  [.leaf 97 5, .leaf 98 2, .leaf 99 1, .leaf 100 1, .leaf 114 2, .branch 2 2 3, .branch 4 1 4, .branch 6 5 6,
    .branch 11 0 7]

/-- The current tree of V-BLD-1. -/
def abra : State :=
  { base with
    freq := abraFreq, nodes := abraNodes, root := 8, ncount := 9, nleaves := 5, treeValid := true }

/-- The tree of V-BLD-5. -/
def pairTree : Tree := .branch 4 (.leaf 98 1) (.leaf 97 3)

/-- The current tree of V-BLD-5, no code table. -/
def pair : State :=
  { base with
    nodes := [.leaf 97 3, .leaf 98 1, .branch 4 1 0], root := 2, ncount := 3, nleaves := 2, treeValid := true }

/-- The current tree of V-BLD-5 with its code table (V-CT-5). -/
def coded : State := { pair with ct := (tableOf pairTree).1, tableValid := true }

/-- The current tree of V-DES-9: two leaves of one symbol. -/
def twins : State :=
  { base with
    nodes := [.leaf 97 0, .leaf 97 0, .branch 0 0 1], root := 2, ncount := 3, nleaves := 2, treeValid := true }

/-- The current tree of V-BLD-2: one leaf. -/
def lone : State :=
  { base with nodes := [.leaf 97 4], root := 0, ncount := 1, nleaves := 1, treeValid := true }

/-- LMEM with these bytes from address 0, and these windows. -/
def windows (s : State) (bytes : List Byte) (src slen dst dcap : Word) : State :=
  { s with lmem := Memory.cells 0 bytes, src := src, slen := slen, dst := dst, dcap := dcap }

theorem pair_tree : pair.currentTree = some pairTree := by decide

theorem pair_treeOk : pair.TreeOk := by decide

theorem pair_inv : pair.Inv := ⟨by decide, pair_treeOk, ⟨by decide, fun _ => rfl⟩, by decide⟩

theorem coded_table : coded.TableOk := by
  refine ⟨fun _ => ⟨rfl, ?_⟩, fun h => by simp [coded] at h⟩
  have h : coded.currentTree = some pairTree := pair_tree
  rw [h]
  exact congrArg some (Prod.ext rfl (by decide))

theorem coded_inv : coded.Inv := ⟨by decide, pair_treeOk, coded_table, by decide⟩

theorem base_inv : base.Inv := ⟨by decide, by decide, ⟨by decide, fun _ => rfl⟩, by decide⟩

/-- A legal command, accepted and pending. -/
def pending : State := base.accept 0x00000003

theorem pending_inv : pending.Inv := ⟨by decide, by decide, ⟨by decide, fun _ => rfl⟩, by decide⟩

/-! ### Ill-formed commands -/

theorem test_wf_refuses_operand_a_512 : ¬(Instr.nodecmp 512 0).WellFormed := by decide

theorem test_wf_refuses_operand_b_512 : ¬(Instr.nodecmp 0 512).WellFormed := by decide

/-! ### Words written out from 30_encoding.md R65 (tree builder, code table, compressor, decompressor, codec) -/

theorem test_decode_clrfreq : decodeCmd 0b00000000000000000000000000000001#32 = .ok .clrfreq := by decide

theorem test_decode_build : decodeCmd 0b00000000000000000000000000000010#32 = .ok .build := by decide

theorem test_decode_teardown : decodeCmd 0b00000000000000000000000000000011#32 = .ok .teardown := by decide

/-- V-BLD-20: NODECMP 0, 8; b stands in bits [25:17]. -/
theorem test_decode_nodecmp : decodeCmd 0b00000000000100000000000000000100#32 = .ok (.nodecmp 0 8) := by decide

/-- V-BLD-21: NODECMP 9, 0; a stands in bits [16:8]. -/
theorem test_decode_nodecmp_a : decodeCmd 0b00000000000000000000100100000100#32 = .ok (.nodecmp 9 0) := by decide

theorem test_decode_gencodes : decodeCmd 0b00000000000000000000000000010000#32 = .ok .gencodes := by decide

theorem test_decode_encode : decodeCmd 0b00000000000000000000000000100000#32 = .ok .encode := by decide

theorem test_decode_decode : decodeCmd 0b00000000000000000000000000100001#32 = .ok .decode := by decide

theorem test_decode_serialize : decodeCmd 0b00000000000000000000000000110000#32 = .ok .serialize := by decide

theorem test_decode_deserialize : decodeCmd 0b00000000000000000000000000110001#32 = .ok .deserialize := by decide

/-- V-ERR-1 to V-ERR-4. -/
theorem test_decode_refuses :
    decodeCmd 0x00000000 = .error .reservedOpcode ∧ decodeCmd 0x00000005 = .error .reservedOpcode ∧
      decodeCmd 0x00000102 = .error .mustBeZero ∧ decodeCmd 0x04000004 = .error .mustBeZero := by decide

/-- The first step after a row's word is placed runs that command: it ends at once, with success or with the error the
empty block gives it (V-RST-4, V-BLD-14, V-BLD-22, V-CT-7, V-ENC-8, V-SER-9, V-DES-5, V-DEC-11). -/
theorem test_step_runs_the_fetch_word :
    ([0x01, 0x02, 0x03, 0x04, 0x10, 0x20, 0x21, 0x30, 0x31].map fun w =>
      after (step (State.reset.withFetchWord 32 w)) fun t => (t.errcode, t.busy, t.done)) =
    ([.ok, .emptyFreq, .ok, .noTree, .noTree, .noCodes, .noTree, .noTree, .stackImbalance].map fun e =>
      some (e, false, true)) := by decide +kernel

/-! ### Vectors of 95_test_vectors.md -/

/-- V-BLD-12. -/
theorem test_clrfreq : after (exec .clrfreq abra)
    (fun t => (t.errcode, t.freq[97]'(by decide), t.treeValid, t.root)) = some (.ok, 0, true, 8) := by decide

/-- V-BLD-1. -/
theorem test_build_abracadabra : after (exec .build { base with freq := abraFreq })
    (fun t => (t.errcode, t.nodes, t.root, t.ncount, t.nleaves)) = some (.ok, abraNodes, 8, 9, 5) := by decide

/-- V-BLD-4: a leaf goes before a branch of the same frequency. -/
theorem test_build_tie :
    after (exec .build { base with freq := (((Vector.replicate 256 0).set 97 1).set 98 1).set 99 2 })
      (fun t => t.nodes) =
    some [.leaf 97 1, .leaf 98 1, .leaf 99 2, .branch 2 0 1, .branch 4 2 3] := by decide

/-- V-BLD-13. -/
theorem test_teardown : after (exec .teardown coded)
    (fun t => (t.root, t.ncount, codeOf t.ct 97, t.statusWord)) = some (0x1FF, 0, none, 0x00000002) := by decide

/-- V-BLD-15 to V-BLD-18. -/
theorem test_nodecmp :
    ([(4, 5), (5, 4), (2, 2), (1, 4)].map fun p =>
      after (exec (.nodecmp p.1 p.2) abra) fun t => (t.errcode, t.result)) =
    [some (.ok, true), some (.ok, false), some (.ok, false), some (.ok, true)] := by decide

/-- V-BLD-21 and V-BLD-22. -/
theorem test_nodecmp_refuses :
    after (exec (.nodecmp 9 0) { abra with result := true }) (fun t => (t.errcode, t.result)) =
      some (.badNode, false) ∧
    after (exec (.nodecmp 0 0) { base with result := true }) (fun t => (t.errcode, t.result)) =
      some (.noTree, false) := by decide

/-- V-CT-1. -/
theorem test_gencodes_abracadabra : after (exec .gencodes abra)
    (fun t => [97, 98, 99, 100, 114, 122].map (codeOf t.ct)) =
    some [some [false], some [true, true, false], some [true, false, false], some [true, false, true],
      some [true, true, true], none] := by decide

/-- V-CT-8. -/
theorem test_gencodes_twins : after (exec .gencodes twins)
    (fun t => (t.errcode, t.tableValid, t.treeValid, codeOf t.ct 97)) = some (.dupLeaf, false, true, none) := by decide

/-- ENCODE's move to bytes on V-CT-5's codes (b = 0, a = 1), the output filling DCAP as in V-ENC-3. -/
theorem test_encode : after (exec .encode (windows coded [97, 98, 98] 0 3 0x100 3))
    (fun t => (t.errcode, t.rlen, t.readBytes 0x100 3, t.readByte 1)) =
    some (.ok, 3, [0x31, 0x30, 0x30], 98) := by decide

/-- V-ENC-7's lookup miss. -/
theorem test_encode_miss : after (exec .encode (windows coded [97, 98, 122] 0 3 0x100 0x10))
    (fun t => (t.errcode, t.fatal, t.rlen, t.readByte 2)) = some (.lookupMiss, true, 0, 122) := by decide

/-- V-DEC-10's "110111" on V-BLD-1's tree. -/
theorem test_decode : after (exec .decode (windows abra [0x31, 0x31, 0x30, 0x31, 0x31, 0x31] 0 6 0x200 2))
    (fun t => (t.errcode, t.rlen, t.readBytes 0x200 2)) = some (.ok, 2, [98, 114]) := by decide

/-- V-DEC-3. -/
theorem test_decode_truncated : after (exec .decode (windows abra [0x31] 0 1 0x200 8))
    (fun t => (t.errcode, t.rlen, t.readByte 0)) = some (.truncatedCode, 0, 0x31) := by decide

/-- V-SER-1. -/
theorem test_serialize : after (exec .serialize (windows abra [] 0 0 0x200 0x100))
    (fun t => (t.errcode, t.rlen, t.readBytes 0x200 14)) =
    some (.ok, 14, [0x4C, 0x61, 0x4C, 0x63, 0x4C, 0x64, 0x42, 0x4C, 0x62, 0x4C, 0x72, 0x42, 0x42, 0x42]) := by decide

/-- V-SER-6. -/
theorem test_serialize_full : after (exec .serialize (windows lone [] 0 0 0 1))
    (fun t => (t.errcode, t.rlen)) = some (.dstFull, 0) := by decide

/-- V-DES-1. -/
theorem test_deserialize :
    after (exec .deserialize (windows pair
      [0x4C, 0x61, 0x4C, 0x63, 0x4C, 0x64, 0x42, 0x4C, 0x62, 0x4C, 0x72, 0x42, 0x42, 0x42] 0 14 0 0))
      (fun t => (t.errcode, t.nodes, t.root, t.ncount, t.nleaves)) =
    some (.ok, [.leaf 97 0, .leaf 99 0, .leaf 100 0, .branch 0 1 2, .leaf 98 0, .leaf 114 0, .branch 0 4 5,
      .branch 0 3 6, .branch 0 0 7], 8, 9, 5) := by decide

/-- V-DES-2, V-DES-3, V-DES-6 and V-DES-7. -/
theorem test_deserialize_refuses :
    ([[0x42], [0x4C, 0x61, 0x4C, 0x62], [0x4C], [0x4C, 0x61, 0x58]].map fun bytes =>
      after (exec .deserialize (windows pair bytes 0 (BitVec.ofNat 32 bytes.length) 0 0))
        fun t => (t.errcode, t.treeValid, t.root)) =
    ([.stackUnderflow, .stackImbalance, .truncLiteral, .badMarker].map fun e =>
      some (e, false, 0x1FF)) := by decide

/-- 43_tree_codec.md R108 item 8: the numbering of V-DES-1's arena. -/
theorem test_postOrder :
    (Tree.branch 0 (.leaf 97 0) (.branch 0 (.branch 0 (.leaf 99 0) (.leaf 100 0))
      (.branch 0 (.leaf 98 0) (.leaf 114 0)))).postOrder 0 =
    [.leaf 97 0, .leaf 99 0, .leaf 100 0, .branch 0 1 2, .leaf 98 0, .leaf 114 0, .branch 0 4 5, .branch 0 3 6,
      .branch 0 0 7] := by decide

/-- The words of V-BLD-1 and V-CT-1 at their offsets, and RLEN, RESULT, ROOT, NCOUNT, NLEAVES and FREQ[a] at theirs. -/
theorem test_reads_by_offset :
    ([0x028, 0x02C, 0x034, 0x038, 0x03C, 0x584].map fun off =>
      after (hostTurn { abra with src := 1, rlen := 23, result := true, host := [.read .w32 off] }) fun t => t.reads) =
      [some [23], some [1], some [8], some [9], some [5], some [5]] ∧
    ([0x5840, 0x5844, 0x5848].map fun off =>
      after (hostTurn { coded with host := [.read .w32 off] }) fun t => t.reads) =
      [some [0x80000001], some [1], some [0]] := by decide

/-- V-ERR-14: byte writes, then a word read. -/
theorem test_little_endian :
    after (hostTurn { base with lmem := [(0, 0x61), (1, 0x62), (2, 0x63), (3, 0x64)], host := [.read .w32 0x10000] })
      (fun t => t.reads) = some [0x64636261] := by decide

/-- V-ERR-8: a dropped write. -/
theorem test_dropped_write : after (hostTurn { pending with host := [.write .w32 0x01C 5] })
    (fun t => (t.slen, t.whb, t.busy)) = some (0, true, true) := by decide

/-! ### Witnesses: states and operands that meet the hypotheses of the statements -/

theorem witness_DecodeInvertsEncode :
    (Instr.nodecmp 511 511).WellFormed ∧ (Instr.nodecmp 0 0).WellFormed ∧ Instr.build.WellFormed := by decide

theorem witness_EncodeInvertsDecode :
    decodeCmd 0x03FFFF04 = .ok (.nodecmp 511 511) ∧ decodeCmd 0x00000031 = .ok .deserialize := by decide

/-- Each range of R66 at both ends, and other bits set. -/
theorem witness_ReservedOpcodesAreIllegal :
    ([0x00, 0x05, 0x0F, 0x11, 0x1F, 0x22, 0x2F, 0x32, 0xFF, 0xFFFFFF05].all fun w : Word =>
      let opc := w.toNat % 256
      opc = 0x00 ∨ (0x05 ≤ opc ∧ opc ≤ 0x0F) ∨ (0x11 ≤ opc ∧ opc ≤ 0x1F) ∨ (0x22 ≤ opc ∧ opc ≤ 0x2F) ∨
        0x32 ≤ opc) = true := by decide

theorem witness_MustBeZeroBitsAreChecked :
    ((0x03FFFF04 : Word).toNat % 256 = 0x04 ∧ (0x03FFFF04 : Word).toNat < 2 ^ 26) ∧
    ((0x04000004 : Word).toNat % 256 = 0x04 ∧ 2 ^ 26 ≤ (0x04000004 : Word).toNat) ∧
    ((0x00000101 : Word).toNat % 256 ≠ 0x04 ∧ 2 ^ 8 ≤ (0x00000101 : Word).toNat) := by decide

theorem witness_StepFollowsTheTurns :
    { base with turns := [.host] }.turns = .host :: [] ∧
    { base with turns := [.hardReset] }.turns = .hardReset :: [] ∧
    ({ base with turns := [.engine] }.turns = .engine :: [] ∧ { base with turns := [.engine] }.busy = false) ∧
    (base.turns = [] ∧ base.busy = false) ∧
    (pending.busy = true ∧ pending.fatal = false ∧ decodeCmd pending.pend = .ok .teardown ∧ pending.turns = []) ∧
    (let s := { pending with turns := [.engine, .host] }
     s.busy = true ∧ s.fatal = false ∧ decodeCmd s.pend = .ok .teardown ∧ s.turns = .engine :: [.host]) := by decide

theorem witness_EngineStepMakesTheCommonChecks :
    { pending with fatal := true }.fatal = true ∧
    ((base.accept 0).fatal = false ∧ decodeCmd (base.accept 0).pend = .error .reservedOpcode) ∧
    (pending.fatal = false ∧ decodeCmd pending.pend = .ok .teardown) := by decide

theorem witness_EngineStepEndsTheCommand : pending.Inv ∧ pending.busy = true := ⟨pending_inv, rfl⟩

/-- The largest total that fits and the smallest that does not, at two symbols. -/
def freqFull : Vector Word 256 := ((Vector.replicate 256 0).set 97 0xFFFFFFFE).set 98 1
def freqOver : Vector Word 256 := ((Vector.replicate 256 0).set 97 0xFFFFFFFF).set 98 1

theorem witness_BuildRefusesBadMappings :
    (∀ sym : Symbol, base.freq[sym.toNat]'sym.isLt = 0) ∧
    0xFFFFFFFF < ({ base with freq := freqOver }.freq.toList.map BitVec.toNat).sum :=
  ⟨fun sym => by simp [base, State.reset], by decide +kernel⟩

theorem witness_BuildMakesTheTree :
    let s := { base with freq := freqFull }
    (∃ sym : Symbol, s.freq[sym.toNat]'sym.isLt ≠ 0) ∧ (s.freq.toList.map BitVec.toNat).sum ≤ 0xFFFFFFFF ∧
      s.freq[(97 : Symbol).toNat]'(97 : Symbol).isLt ≠ 0 :=
  ⟨⟨97, by decide⟩, by decide +kernel, by decide⟩

/-- The build of V-BLD-5. -/
def seeded : State := { base with freq := ((Vector.replicate 256 0).set 97 3).set 98 1 }

theorem seeded_build : after (exec .build seeded) (fun t => (t.errcode, t.nodes)) = some (.ok, pair.nodes) := by
  decide

theorem witness_BuildSeedsLeavesInSymbolOrder :
    ∃ t, exec .build seeded = .next t ∧ t.errcode = .ok ∧ t.nodes.length = 3 ∧
      (seeded.freq.toList.filter (fun f => f ≠ 0)).length = 2 := by
  obtain ⟨h, hf⟩ := next_of_after seeded_build
  obtain ⟨he, hn⟩ := Prod.mk.inj hf
  exact ⟨_, h, he, by rw [hn]; rfl, by decide +kernel⟩

theorem witness_BuildMergesTheTwoLeastRoots :
    ∃ t, exec .build seeded = .next t ∧ t.errcode = .ok ∧ 2 < t.nodes.length ∧
      arenaAt t.nodes 2 = .branch 4 1 0 := by
  obtain ⟨h, hf⟩ := next_of_after seeded_build
  obtain ⟨he, hn⟩ := Prod.mk.inj hf
  exact ⟨_, h, he, by rw [hn]; decide, by rw [hn]; decide⟩

theorem witness_BuildDependsOnFreqAlone :
    ∃ t t' u u', seeded.freq = { lone with freq := seeded.freq }.freq ∧ exec .build seeded = .next t ∧
      exec .build { lone with freq := seeded.freq } = .next t' ∧ t.errcode = .ok ∧ exec .gencodes t = .next u ∧
      exec .gencodes t' = .next u' := by
  obtain ⟨h, hf⟩ := next_of_after seeded_build
  obtain ⟨h', -⟩ := next_of_after (show after (exec .build { lone with freq := seeded.freq })
    (fun t => t.errcode) = some .ok by decide)
  obtain ⟨g, -⟩ := next_of_after (show after (exec .gencodes (nextOf (exec .build seeded))) (fun t => t.errcode) =
    some .ok by decide)
  obtain ⟨g', -⟩ := next_of_after (show after (exec .gencodes (nextOf (exec .build { lone with freq := seeded.freq })))
    (fun t => t.errcode) = some .ok by decide)
  exact ⟨_, _, _, _, rfl, h, h', (Prod.mk.inj hf).1, g, g'⟩

theorem witness_TeardownReleasesTheTree : base.Inv ∧ base.treeValid = false := ⟨base_inv, rfl⟩

theorem witness_NodecmpComparesTwoNodes :
    ((511 : Nat) < 512 ∧ (0 : Nat) < 512) ∧
    base.treeValid = false ∧
    (pair.treeValid = true ∧ (pair.ncount.toNat ≤ 3 ∨ pair.ncount.toNat ≤ 0)) ∧
    (pair.treeValid = true ∧ 2 < pair.ncount.toNat ∧ 0 < pair.ncount.toNat) := by decide

theorem witness_PriorityOrderIsStrictAndTotal :
    precedes pair.nodes 1 0 = true ∧ precedes pair.nodes 0 2 = true ∧ (1 : Nat) ≠ 0 := by decide

theorem witness_GencodesRecordsEveryPath :
    pair.TreeOk ∧ pair.treeValid = true ∧
      ∀ i j sym f g, i < pair.nodes.length → j < pair.nodes.length → arenaAt pair.nodes i = .leaf sym f →
        arenaAt pair.nodes j = .leaf sym g → i = j := by
  refine ⟨pair_treeOk, rfl, ?_⟩
  intro i j sym f g hi hj h h'
  have hi' : i < 3 := hi
  have hj' : j < 3 := hj
  interval_cases i <;> interval_cases j <;> simp_all [pair, arenaAt] <;>
    exact absurd (h.1.trans h'.1.symm) (by decide)

theorem witness_GencodesRefuses :
    base.treeValid = false ∧ (twins.TreeOk ∧ twins.treeValid = true ∧
      ∃ i j sym f g, i < j ∧ j < twins.nodes.length ∧ arenaAt twins.nodes i = .leaf sym f ∧
        arenaAt twins.nodes j = .leaf sym g) :=
  ⟨rfl, by decide, rfl, 0, 1, 97, 0, 0, by decide⟩

theorem witness_CodesArePrefixFree :
    coded.Inv ∧ coded.tableValid = true ∧ 2 ≤ coded.nleaves.toNat ∧ codeOf coded.ct 97 = some [true] ∧
      codeOf coded.ct 98 = some [false] ∧ (97 : Symbol) ≠ 98 :=
  ⟨coded_inv, by decide⟩

theorem witness_BuildAndGencodesCodeEveryPresentSymbol :
    (∃ sym : Symbol, seeded.freq[sym.toNat]'sym.isLt ≠ 0) ∧
      (seeded.freq.toList.map BitVec.toNat).sum ≤ 0xFFFFFFFF :=
  ⟨⟨98, by decide⟩, by decide +kernel⟩

/-- V-ENC-8, V-ENC-9, V-ENC-14 and V-ENC-15 at the bounds. -/
theorem witness_EncodeChecksComeFirst :
    pair.tableValid = false ∧
    (let s := windows coded [] 0xFFFF 2 0x100 4
     s.tableValid = true ∧
       ¬(s.src.toNat + s.slen.toNat ≤ s.lmemSize ∧ s.dst.toNat + s.dcap.toNat ≤ s.lmemSize)) ∧
    (let s := windows coded [] 0 2 0xFFFD 4
     s.tableValid = true ∧
       ¬(s.src.toNat + s.slen.toNat ≤ s.lmemSize ∧ s.dst.toNat + s.dcap.toNat ≤ s.lmemSize)) ∧
    (let s := windows coded [] 0 2 1 4
     s.tableValid = true ∧
       (s.src.toNat + s.slen.toNat ≤ s.lmemSize ∧ s.dst.toNat + s.dcap.toNat ≤ s.lmemSize) ∧
       (s.slen ≠ 0 ∧ s.dcap ≠ 0 ∧ s.src.toNat < s.dst.toNat + s.dcap.toNat ∧
        s.dst.toNat < s.src.toNat + s.slen.toNat)) := by decide

theorem witness_EncodeWritesTheCodes :
    let s := windows coded [97, 98] 0 2 0xFFFE 2
    s.tableValid = true ∧ s.srcOk = true ∧ s.dstOk = true ∧ s.overlaps = false ∧
      s.sourceBytes.map (codeOf s.ct) = [[true], [false]].map some ∧
      ([[true], [false]] : List Code).flatten.length ≤ s.dcap.toNat := by decide

theorem witness_EncodeScanErrors :
    (let s := windows coded [97, 122] 0 2 4 1
     s.tableValid = true ∧ s.srcOk = true ∧ s.dstOk = true ∧ s.overlaps = false ∧
       s.sourceBytes = [97] ++ 122 :: [] ∧ [97].map (codeOf s.ct) = [[true]].map some ∧
       ([[true]] : List Code).flatten.length ≤ s.dcap.toNat ∧ codeOf s.ct 122 = none) ∧
    (let s := windows coded [97, 98] 0 2 4 1
     s.tableValid = true ∧ s.srcOk = true ∧ s.dstOk = true ∧ s.overlaps = false ∧
       s.sourceBytes = [97] ++ 98 :: [] ∧ [97].map (codeOf s.ct) = [[true]].map some ∧
       ([[true]] : List Code).flatten.length ≤ s.dcap.toNat ∧ codeOf s.ct 98 = some [false] ∧
       s.dcap.toNat < ([[true]] : List Code).flatten.length + ([false] : Code).length) := by decide

theorem witness_SerializeWritesTheTopology :
    let s := windows pair [] 0 0 0xFFFB 5
    s.TreeOk ∧ s.treeValid = true ∧ s.lit ≠ s.br ∧ s.dstOk = true ∧ 3 * s.nleaves.toNat - 1 ≤ s.dcap.toNat :=
  ⟨pair_treeOk, by decide⟩

theorem witness_SerializeRefuses :
    base.treeValid = false ∧
    ({ pair with br := 0x4C }.treeValid = true ∧ { pair with br := 0x4C }.lit = { pair with br := 0x4C }.br) ∧
    (let s := windows pair [] 0 0 0xFFF8 9
     s.treeValid = true ∧ s.lit ≠ s.br ∧ s.lmemSize < s.dst.toNat + s.dcap.toNat) ∧
    (let s := windows pair [] 0 0 0xFFFC 4
     s.TreeOk ∧ s.treeValid = true ∧ s.lit ≠ s.br ∧ s.dst.toNat + s.dcap.toNat ≤ s.lmemSize ∧
       s.dcap.toNat < 3 * s.nleaves.toNat - 1) :=
  ⟨rfl, ⟨rfl, rfl⟩, by decide, pair_treeOk, by decide⟩

theorem witness_DeserializeChecksComeFirst :
    { pair with br := 0x4C }.lit = { pair with br := 0x4C }.br ∧
    (let s := windows pair [] 0xFFFF 2 0 0
     s.lit ≠ s.br ∧ s.lmemSize < s.src.toNat + s.slen.toNat) := by decide

/-- "LaLbB" at 0, between the windows' bounds. -/
def topology : State := windows base [0x4C, 0x61, 0x4C, 0x62, 0x42] 0 5 0 0

theorem witness_DeserializeRebuildsTheTree :
    topology.lit ≠ topology.br ∧ topology.srcOk = true ∧
      Spells topology.lit topology.br (.branch 0 (.leaf 97 0) (.leaf 98 0)) topology.sourceBytes ∧
      (Tree.branch 0 (.leaf 97 0) (.leaf 98 0)).leafCount ≤ 256 := by
  refine ⟨by decide, by decide, ?_, by decide⟩
  have h : topology.sourceBytes = ([0x4C, 0x61] ++ [0x4C, 0x62] ++ [0x42] : List Byte) := by decide
  rw [h]
  exact .branch 0 (.leaf 97 0) (.leaf 98 0)

/-- n literals of one symbol; 511 of them fill the arena. -/
def literals : Nat → List Byte
  | 0 => []
  | n + 1 => literals n ++ [0x4C, 0x00]

theorem literals_length (n : Nat) : (literals n).length = 2 * n := by
  induction n with
  | zero => rfl
  | succ n ih => simp only [literals, List.length_append, ih, List.length_cons, List.length_nil]; omega

theorem literals_scan : ∀ n ≤ 511, ScansTo 0x4C 0x42 (literals n) n n
  | 0, _ => .start
  | n + 1, h => .literal 0 (literals_scan n (by omega)) (by show n < 511; omega)

/-- 511 literals and a tail in LMEM, all of it the source window. -/
def filled (tail : List Byte) : State :=
  { base.putOutput (literals 511 ++ tail) with slen := BitVec.ofNat 32 (1022 + tail.length) }

theorem filled_bytes (tail : List Byte) (h : tail.length ≤ 2) : (filled tail).sourceBytes = literals 511 ++ tail := by
  have hlen : (literals 511 ++ tail).length = 1022 + tail.length := by
    rw [List.length_append, literals_length]
  have hslen : (BitVec.ofNat 32 (1022 + tail.length)).toNat = 1022 + tail.length := by
    rw [BitVec.toNat_ofNat]; omega
  unfold filled
  generalize literals 511 ++ tail = out at hlen ⊢
  exact State.readBytes_eq _ (hlen.trans hslen.symm) fun _ hj => base.readByte_putOutput_inside hj

/-- What a string that spells no tree of at most 256 leaves is, the empty one, and a string for each scan error: V-DES-6,
V-DES-2 after one leaf, V-DES-7, a 512th leaf, a 512th entry that is a branch, V-DES-5 and V-DES-3. -/
theorem witness_DeserializeRejectsEverythingElse :
    (base.lit ≠ base.br ∧ base.srcOk = true ∧
      ¬∃ tree, Spells base.lit base.br tree base.sourceBytes ∧ tree.leafCount ≤ 256) ∧
    (let s := windows base [0x4C] 0 1 0 0
     s.srcOk = true ∧ ScansTo s.lit s.br [] 0 0 ∧ s.sourceBytes = [] ++ [s.lit]) ∧
    (let s := windows base [0x4C, 0x61, 0x42] 0 3 0 0
     s.srcOk = true ∧ ScansTo s.lit s.br [0x4C, 0x61] 1 1 ∧ s.sourceBytes = [0x4C, 0x61] ++ s.br :: []) ∧
    (let s := windows base [0x4C, 0x61, 0x58] 0 3 0 0
     s.srcOk = true ∧ ScansTo s.lit s.br [0x4C, 0x61] 1 1 ∧ s.sourceBytes = [0x4C, 0x61] ++ 0x58 :: [] ∧
       0x58 ≠ s.lit ∧ 0x58 ≠ s.br) ∧
    (let s := filled [0x4C, 0x61]
     s.srcOk = true ∧ ScansTo s.lit s.br (literals 511) 511 511 ∧ s.sourceBytes = literals 511 ++ s.lit :: 0x61 :: []) ∧
    (let s := filled [0x42]
     s.srcOk = true ∧ ScansTo s.lit s.br (literals 511) 511 511 ∧ s.sourceBytes = literals 511 ++ s.br :: []) ∧
    (ScansTo base.lit base.br [] 0 0 ∧ base.sourceBytes = []) ∧
    (let s := windows base [0x4C, 0x61, 0x4C, 0x62] 0 4 0 0
     s.srcOk = true ∧ ScansTo s.lit s.br [0x4C, 0x61, 0x4C, 0x62] 2 2 ∧ s.sourceBytes = [0x4C, 0x61, 0x4C, 0x62]) := by
  have hb : base.sourceBytes = [] := by decide
  have one : ScansTo 0x4C 0x42 [0x4C, 0x61] 1 1 := .literal (x := []) 0x61 .start (by decide)
  have two : ScansTo 0x4C 0x42 [0x4C, 0x61, 0x4C, 0x62] 2 2 := .literal (x := [0x4C, 0x61]) 0x62 one (by decide)
  refine ⟨⟨by decide, by decide, ?_⟩, ⟨by decide, .start, by decide⟩, ⟨by decide, one, by decide⟩,
    ⟨by decide, one, by decide, by decide, by decide⟩,
    ⟨by decide, literals_scan 511 (by decide), filled_bytes _ (by decide)⟩,
    ⟨by decide, literals_scan 511 (by decide), filled_bytes _ (by decide)⟩, ⟨.start, hb⟩, by decide, two, by decide⟩
  rintro ⟨tree, h, -⟩
  rw [hb] at h
  generalize hz : ([] : List Byte) = z at h
  cases h <;> simp at hz

theorem witness_DeserializeInvertsSerialize :
    ∃ t, (windows pair [] 0 0 0 5).TreeOk ∧ exec .serialize (windows pair [] 0 0 0 5) = .next t ∧
      t.errcode = .ok := by
  obtain ⟨h, hf⟩ := next_of_after (show after (exec .serialize (windows pair [] 0 0 0 5))
    (fun t => t.errcode) = some .ok by decide)
  exact ⟨_, pair_treeOk, h, hf⟩

theorem witness_SerializeInvertsDeserialize :
    ∃ t, exec .deserialize topology = .next t ∧ t.errcode = .ok ∧
      (0xFFFB : Word).toNat + (5 : Word).toNat ≤ topology.lmemSize ∧ topology.slen.toNat ≤ (5 : Word).toNat := by
  obtain ⟨h, hf⟩ := next_of_after (show after (exec .deserialize topology) (fun t => t.errcode) = some .ok by decide)
  exact ⟨_, h, hf, by decide⟩

/-- V-DEC-11, V-DEC-4, V-DEC-12's windows on a tree of two leaves, and V-DEC-14. -/
theorem witness_DecodeChecksComeFirst :
    base.treeValid = false ∧
    (lone.treeValid = true ∧ (lone.nodeAt lone.root.toNat).isBranch = false) ∧
    (let s := windows pair [] 0xFFFFF 0 0 0
     s.treeValid = true ∧ ¬(s.nodeAt s.root.toNat).isBranch = false ∧
       ¬(s.src.toNat + s.slen.toNat ≤ s.lmemSize ∧ s.dst.toNat + s.dcap.toNat ≤ s.lmemSize)) ∧
    (let s := windows pair [] 0x100 4 0x103 8
     s.treeValid = true ∧ ¬(s.nodeAt s.root.toNat).isBranch = false ∧
       (s.src.toNat + s.slen.toNat ≤ s.lmemSize ∧ s.dst.toNat + s.dcap.toNat ≤ s.lmemSize) ∧
       (s.slen ≠ 0 ∧ s.dcap ≠ 0 ∧ s.src.toNat < s.dst.toNat + s.dcap.toNat ∧
         s.dst.toNat < s.src.toNat + s.slen.toNat)) := by decide

theorem witness_DecodeWritesTheSymbols :
    let s := windows pair [0x31, 0x30] 0 2 0xFFFE 2
    let runs : List (Code × Symbol) := [([true], 97), ([false], 98)]
    s.treeValid = true ∧ (s.nodeAt s.root.toNat).isBranch = true ∧ s.srcOk = true ∧ s.dstOk = true ∧
      s.overlaps = false ∧ (∀ p ∈ runs, LeadsTo s.nodes s.root p.1 p.2) ∧
      s.sourceBytes = ((runs.map Prod.fst).flatten).map codeByte ∧ runs.length ≤ s.dcap.toNat := by
  refine ⟨rfl, by decide, by decide, by decide, by decide, ?_, by decide, by decide⟩
  intro p hp
  rcases List.mem_cons.1 hp with rfl | hp
  · exact ⟨0, 3, by decide, by decide⟩
  · rcases List.mem_cons.1 hp with rfl | hp
    · exact ⟨1, 1, by decide, by decide⟩
    · simp at hp

/-- V-DEC-6's bad byte, V-DEC-3's truncated code and V-DEC-8's full window, each after the run "0". -/
theorem witness_DecodeScanErrors :
    (let s := windows abra [0x30, 0x31, 0x20] 0 3 0x200 1
     s.treeValid = true ∧ (s.nodeAt s.root.toNat).isBranch = true ∧ s.srcOk = true ∧ s.dstOk = true ∧
       s.overlaps = false ∧ LeadsTo s.nodes s.root [false] 97 ∧ 1 ≤ s.dcap.toNat ∧
       s.sourceBytes = ([false] ++ [true]).map codeByte ++ [0x20] ∧ walkPath s.nodes s.root [true] = some 7 ∧
       (arenaAt s.nodes 7).isBranch = true ∧ (0x20 : Byte) ≠ 0x30 ∧ (0x20 : Byte) ≠ 0x31) ∧
    (let s := windows abra [0x30, 0x31] 0 2 0x200 1
     s.sourceBytes = ([false] ++ [true]).map codeByte ++ [] ∧ walkPath s.nodes s.root [true] = some 7 ∧
       (arenaAt s.nodes 7).isBranch = true ∧ (7 : NodeIdx) ≠ s.root) ∧
    (let s := windows abra [0x30, 0x30] 0 2 0x200 1
     s.sourceBytes = ([false] ++ [false]).map codeByte ++ [] ∧ LeadsTo s.nodes s.root [false] 97 ∧
       1 = s.dcap.toNat) := by
  have h : LeadsTo abra.nodes abra.root [false] 97 := ⟨0, 5, by decide, by decide⟩
  exact ⟨⟨rfl, by decide, by decide, by decide, by decide, h, by decide⟩, by decide, by decide, h, by decide⟩

theorem witness_DecodeNeverMissesAChild :
    ∃ t, (windows abra [0x30] 0 1 4 1).TreeOk ∧ exec .decode (windows abra [0x30] 0 1 4 1) = .next t := by
  obtain ⟨h, -⟩ := next_of_after (show after (exec .decode (windows abra [0x30] 0 1 4 1))
    (fun t => t.errcode) = some .ok by decide)
  exact ⟨_, (by decide : abra.TreeOk), h⟩

theorem witness_DecodeGivesTheEncodedInputBack :
    let s := windows coded [97, 98] 0 2 4 2
    s.Inv ∧ 2 ≤ s.nleaves.toNat ∧ ∃ t, exec .encode s = .next t ∧ t.errcode = .ok ∧
      let u := { t with src := t.dst, slen := t.rlen, dst := 0xFFFE, dcap := 2 }
      let p := { t with src := t.dst, slen := t.rlen, dst := 6, dcap := 5 }
      u.dstOk = true ∧ u.overlaps = false ∧ s.slen.toNat ≤ (2 : Word).toNat ∧ s.lit ≠ s.br ∧ p.dstOk = true ∧
        p.overlaps = false ∧ 3 * s.nleaves.toNat - 1 ≤ (5 : Word).toNat := by
  refine ⟨⟨by decide, pair_treeOk, coded_table, by decide⟩, by decide, ?_⟩
  obtain ⟨h, hf⟩ := next_of_after (show after (exec .encode (windows coded [97, 98] 0 2 4 2)) (fun t =>
      (t.errcode, { t with src := t.dst, slen := t.rlen, dst := 0xFFFE, dcap := 2 }.dstOk,
        { t with src := t.dst, slen := t.rlen, dst := 0xFFFE, dcap := 2 }.overlaps,
        { t with src := t.dst, slen := t.rlen, dst := 6, dcap := 5 }.dstOk,
        { t with src := t.dst, slen := t.rlen, dst := 6, dcap := 5 }.overlaps)) =
    some (.ok, true, false, true, false) by decide)
  obtain ⟨he, hf⟩ := Prod.mk.inj hf
  obtain ⟨hd, hf⟩ := Prod.mk.inj hf
  obtain ⟨ho, hf⟩ := Prod.mk.inj hf
  obtain ⟨hd', ho'⟩ := Prod.mk.inj hf
  exact ⟨_, h, he, hd, ho, by decide, by decide, hd', ho', by decide⟩

theorem witness_RegisterOnlyCommandsFrame :
    ∀ i ∈ [Instr.clrfreq, .build, .teardown, .nodecmp 0 1, .gencodes, .deserialize],
      ∃ t, exec i seeded = .next t := by
  have h : ∀ i ∈ [Instr.clrfreq, .build, .teardown, .nodecmp 0 1, .gencodes, .deserialize],
      after (exec i seeded) (fun t => t.done) = some true := by decide
  exact fun i hi => ⟨_, (next_of_after (h i hi)).1⟩

theorem witness_StoringCommandsFrame :
    (∃ t, exec .encode (windows coded [97] 0 1 4 1) = .next t ∧ t.errcode = .ok) ∧
    (∃ t, exec .encode (windows coded [122] 0 1 4 1) = .next t ∧ t.errcode ≠ .ok ∧ t.fatal ≠ coded.fatal) ∧
    (∃ t, exec .decode (windows coded [0x30] 0 1 4 1) = .next t ∧ t.errcode = .ok) ∧
    (∃ t, exec .serialize (windows coded [] 0 0 4 5) = .next t ∧ t.errcode = .ok) := by
  have h1 := next_of_after (show after (exec .encode (windows coded [97] 0 1 4 1)) (fun t => t.errcode) =
    some .ok by decide)
  have h2 := next_of_after (show after (exec .encode (windows coded [122] 0 1 4 1))
    (fun t => (t.errcode, t.fatal)) = some (.lookupMiss, true) by decide)
  have h3 := next_of_after (show after (exec .decode (windows coded [0x30] 0 1 4 1)) (fun t => t.errcode) =
    some .ok by decide)
  have h4 := next_of_after (show after (exec .serialize (windows coded [] 0 0 4 5)) (fun t => t.errcode) =
    some .ok by decide)
  obtain ⟨he, hf⟩ := Prod.mk.inj h2.2
  exact ⟨⟨_, h1⟩, ⟨_, h2.1, by rw [he]; decide, by rw [hf]; decide⟩, ⟨_, h3⟩, ⟨_, h4⟩⟩

/-- Permitted and refused accesses on both sides of the bounds of 20_memory.md R46 (V-ERR-11 to V-ERR-16). -/
theorem witness_AccessesOutsideTheMapAreBusErrors :
    ({ base with host := [.read .w32 0x040] }.host = .read .w32 0x040 :: []) ∧
    ({ base with host := [.write .w32 0x03C 0] }.host = .write .w32 0x03C 0 :: []) ∧
    ([(.w32, 0x03C), (.w32, 0x400), (.w32, 0x7FC), (.w32, 0x2000), (.w32, 0x3FEC), (.w32, 0x4020), (.w32, 0x7FE0),
      (.w8, 0x1FFFF), (.w16, 0x1FFFE), (.w32, 0x1FFFC)].all fun p : Width × Offset =>
        (classify 65536 p.1 p.2).isSome) = true ∧
    ([(.w32, 0x040), (.w16, 0x014), (.w32, 0x002), (.w32, 0x3FC), (.w32, 0x800), (.w32, 0x1FFC), (.w32, 0x3FF0),
      (.w32, 0x4024), (.w32, 0x403C), (.w32, 0x8000), (.w32, 0xFFFC), (.w32, 0x10001), (.w16, 0x1FFFF)].all
        fun p : Width × Offset => (classify 65536 p.1 p.2).isNone) = true := by decide

theorem witness_ReadsHaveNoSideEffect :
    ∃ t, hostTurn { base with host := [.read .w32 0x000] } = .next t := by
  obtain ⟨h, -⟩ := next_of_after (show after (hostTurn { base with host := [.read .w32 0x000] })
    (fun t => t.reads) = some [0x48544231] by decide)
  exact ⟨_, h⟩

theorem witness_StableRegistersReadWhileBusy :
    (let s := { base with src := 7, host := [.read .w32 0x018] }
     s.host = .read .w32 0x018 :: [] ∧ ((0x018 : Offset), (7 : Word)) ∈ [((0x018 : Offset), s.src)]) ∧
    (let s := { pending with host := [.read .w32 0x014] }
     s.host = .read .w32 0x014 :: [] ∧ s.Inv ∧ s.busy = true) ∧
    (let s := { base with nleaves := 2, host := [.read .w32 0x03C] }
     s.busy = false ∧ s.host = .read .w32 0x03C :: [] ∧
       ((0x03C : Offset), (2 : Word)) ∈ [((0x03C : Offset), BitVec.ofNat 32 s.nleaves.toNat)]) ∧
    (let s := { pending with host := [.read .w32 0x02C] }
     s.busy = true ∧ s.host = .read .w32 0x02C :: [] ∧
       ((0x02C : Offset), 1) ∈ [((0x028 : Offset), 32), (0x02C, 1), (0x034, 9), (0x038, 10), (0x03C, 10)]) ∧
    (base.busy = false ∧ (0x400 : Offset).toNat = 0x400 + 4 * (0x00 : Symbol).toNat ∧
      (0x7FC : Offset).toNat = 0x400 + 4 * (0xFF : Symbol).toNat ∧
      { base with host := [.read .w32 0x7FC] }.host = .read .w32 0x7FC :: []) :=
  ⟨by decide, ⟨rfl, pending_inv, rfl⟩, by decide, by decide, by decide⟩

theorem witness_LmemAccessesAreLittleEndian :
    base.busy = false ∧ (0x1FFFC : Offset).toNat = 0x10000 + 0xFFFC ∧ 0xFFFC < base.lmemSize ∧
      0xFFFC % Width.w32.bytes = 0 ∧ (0x1FFFF : Offset).toNat = 0x10000 + 0xFFFF ∧ 0xFFFF < base.lmemSize ∧
      0xFFFF % Width.w8.bytes = 0 ∧
      { base with host := [.read .w32 0x1FFFC] }.host = .read .w32 0x1FFFC :: [] ∧
      { base with host := [.write .w8 0x1FFFF 0x41] }.host = .write .w8 0x1FFFF 0x41 :: [] := by decide

theorem witness_CmdWriteIsTheAcceptance :
    let s := { base with host := [.write .w32 0x010 0] }
    s.busy = false ∧ s.host = .write .w32 0x010 0 :: [] := by decide

theorem witness_WritesWhileBusyAreDropped :
    (([0x010, 0x018, 0x01C, 0x020, 0x024, 0x030, 0x400, 0x7FC, 0x10000, 0x1FFFC, 0x008, 0x00C, 0x000, 0x004, 0x014,
        0x028, 0x02C, 0x034, 0x038, 0x03C, 0x2000, 0x3FEC, 0x4000, 0x7FE0].all fun off : Offset =>
      (classify 65536 .w32 off).isSome) = true) ∧ pending.lmemSize = 65536 ∧
    pending.busy = true ∧ (0x1 : Word).getLsbD 1 = false ∧ (0x3 : Word).getLsbD 1 = true ∧
    (classify 65536 .w32 0x800).isNone = true ∧
    { pending with host := [.write .w32 0x7FC 5] }.host = .write .w32 0x7FC 5 :: [] := by decide

theorem witness_IdleWritesStoreTheValue :
    base.busy = false ∧ (0x400 : Offset).toNat = 0x400 + 4 * (0x00 : Symbol).toNat ∧
      (0x7FC : Offset).toNat = 0x400 + 4 * (0xFF : Symbol).toNat ∧ (0x00 : Symbol) ≠ 0xFF ∧
      { base with host := [.write .w32 0x7FC 5] }.host = .write .w32 0x7FC 5 :: [] := by decide

theorem witness_IrqFollowsDoneAndEnable :
    ({ pending with irqEn := true }.irqEn = true ∧ ∃ t, engineStep { pending with irqEn := true } = .next t) ∧
    ((0x2 : Word).getLsbD 1 = true ∧
      { base with host := [.write .w32 0x00C 2] }.host = .write .w32 0x00C 2 :: []) ∧
    (base.busy = false ∧ { base with host := [.write .w32 0x010 2] }.host = .write .w32 0x010 2 :: []) ∧
    ((0x0 : Word).getLsbD 1 = false ∧
      { base with host := [.write .w32 0x008 0] }.host = .write .w32 0x008 0 :: []) := by
  obtain ⟨h, -⟩ := next_of_after (show after (engineStep { pending with irqEn := true }) (fun t => t.irq) =
    some true by decide)
  exact ⟨⟨rfl, _, h⟩, by decide⟩

/-- V-RST-3: an ENCODE abandoned, and an address on each side of its window. -/
theorem witness_SoftResetRestoresTheRegisters :
    let s := { (windows base [] 0 11 0x100 0x100).accept 0x20 with host := [.write .w32 0x008 0x2] }
    s.host = .write .w32 0x008 0x2 :: [] ∧ (0x2 : Word).getLsbD 1 = true ∧ s.busy = true ∧
      decodeCmd s.pend = .ok .encode ∧ s.dst.toNat + s.dcap.toNat ≤ s.lmemSize ∧
      ¬(s.dst.toNat ≤ 0xFF ∧ 0xFF < s.dst.toNat + s.dcap.toNat) ∧
      ¬(s.dst.toNat ≤ 0x200 ∧ 0x200 < s.dst.toNat + s.dcap.toNat) := by decide

theorem witness_HardResetRestoresTheRegisters :
    { coded with turns := [.hardReset, .host] }.turns = .hardReset :: [.host] := by decide

/-- The words of NODE[8] in V-BLD-1 and the last entry the window has. -/
theorem witness_ArenaReadsShowTheNodes :
    let s := { abra with host := [.read .w32 0x2080] }
    s.busy = false ∧ s.treeValid = true ∧ 8 < s.ncount.toNat ∧ 8 < 511 ∧ s.host = .read .w32 0x2080 :: [] ∧
      (0x2080 : Offset).toNat = 0x2000 + 16 * 8 ∧ (0x2084 : Offset).toNat = 0x2004 + 16 * 8 ∧
      (0x2088 : Offset).toNat = 0x2008 + 16 * 8 ∧ (0x208C : Offset).toNat = 0x200C + 16 * 8 := by decide

/-- The first and the last entry's words at their offsets, a symbol with a code and one without. -/
theorem witness_CodeTableReadsShowTheCodes :
    (let s := { coded with host := [.read .w32 0x5844] }
     s.Inv ∧ s.busy = false ∧ s.host = .read .w32 0x5844 :: [] ∧ codeOf s.ct 97 = some [true] ∧
       (0x5844 : Offset).toNat = 0x4000 + 64 * (97 : Symbol).toNat + 4 * (0 + 1)) ∧
    (codeOf coded.ct 0 = none ∧ codeOf coded.ct 255 = none ∧
      (0x4000 : Offset).toNat = 0x4000 + 64 * (0 : Symbol).toNat + 4 * 0 ∧
      (0x7FE0 : Offset).toNat = 0x4000 + 64 * (255 : Symbol).toNat + 4 * 8 ∧
      (0x5840 : Offset).toNat = 0x4000 + 64 * (97 : Symbol).toNat ∧
      (0x5860 : Offset).toNat = 0x4000 + 64 * (97 : Symbol).toNat + 4 * (7 + 1)) :=
  ⟨⟨coded_inv, by decide⟩, by decide⟩

theorem witness_StepKeepsTheInvariant :
    coded.Inv ∧ (∃ t, step coded = .next t) ∧ pending.Inv ∧ ∃ t, step pending = .next t := by
  obtain ⟨h, -⟩ := next_of_after (show after (step coded) (fun t => t.done) = some false by decide)
  obtain ⟨h', -⟩ := next_of_after (show after (step pending) (fun t => t.done) = some true by decide)
  exact ⟨coded_inv, ⟨_, h⟩, pending_inv, _, h'⟩

theorem witness_FatalChangesOnlyByLookupMissAndReset :
    (∃ t, step ((windows coded [122] 0 1 4 1).accept 0x20) = .next t ∧ t.fatal = true) ∧
    (∃ t, step { base with fatal := true, turns := [.hardReset] } = .next t ∧ t.fatal = false) ∧
    (∃ t, step { base with fatal := true, host := [.write .w32 0x008 0x2] } = .next t ∧ t.fatal = false) ∧
    (∃ t, step { pending with fatal := true } = .next t ∧ { pending with fatal := true }.turns.head? ≠ some .host ∧
      { pending with fatal := true }.turns.head? ≠ some .hardReset) := by
  have h1 := next_of_after (show after (step ((windows coded [122] 0 1 4 1).accept 0x20)) (fun t => t.fatal) =
    some true by decide)
  have h2 := next_of_after (show after (step { base with fatal := true, turns := [.hardReset] })
    (fun t => t.fatal) = some false by decide)
  have h3 := next_of_after (show after (step { base with fatal := true, host := [.write .w32 0x008 0x2] })
    (fun t => t.fatal) = some false by decide)
  have h4 := next_of_after (show after (step { pending with fatal := true }) (fun t => t.done) = some true by decide)
  exact ⟨⟨_, h1⟩, ⟨_, h2⟩, ⟨_, h3⟩, _, h4.1, by decide⟩

theorem witness_TreeValidChangesOnlyByItsCommands :
    (∃ t, step (seeded.accept 0x02) = .next t ∧ t.treeValid = true) ∧
    (∃ t, step (topology.accept 0x31) = .next t ∧ t.treeValid = true) ∧
    (∃ t, step (pair.accept 0x03) = .next t ∧ t.treeValid = false) ∧
    (∃ t, step (pair.accept 0x31) = .next t ∧ t.treeValid = false) := by
  have h1 := next_of_after (show after (step (seeded.accept 0x02)) (fun t => t.treeValid) = some true by decide)
  have h2 := next_of_after (show after (step (topology.accept 0x31)) (fun t => t.treeValid) = some true by decide)
  have h3 := next_of_after (show after (step (pair.accept 0x03)) (fun t => t.treeValid) = some false by decide)
  have h4 := next_of_after (show after (step (pair.accept 0x31)) (fun t => t.treeValid) = some false by decide)
  exact ⟨⟨_, h1⟩, ⟨_, h2⟩, ⟨_, h3⟩, _, h4⟩

theorem witness_TableValidChangesOnlyByItsCommands :
    (∃ t, step (pair.accept 0x10) = .next t ∧ t.tableValid = true) ∧
    (∃ t, step (coded.accept 0x03) = .next t ∧ t.tableValid = false) := by
  have h1 := next_of_after (show after (step (pair.accept 0x10)) (fun t => t.tableValid) = some true by decide)
  have h2 := next_of_after (show after (step (coded.accept 0x03)) (fun t => t.tableValid) = some false by decide)
  exact ⟨⟨_, h1⟩, _, h2⟩

theorem witness_PendingCommandsAreRun : pending.Inv ∧ pending.busy = true := ⟨pending_inv, rfl⟩

theorem witness_EveryArenaEntryIsReachable : pair.TreeOk ∧ pair.treeValid = true ∧ 2 < pair.nodes.length :=
  ⟨pair_treeOk, by decide⟩

end Sys2Proof.Tests
end

section
/-! PROOFS, family 00_scope. Who moves in a step (00_scope.md R6), and that every command ends (R7). -/

namespace Sys2Proof.Machine

/-! ### The turns, case by case (00_scope.md R6; log 2) -/

theorem step_of_turns_host {s : State} {ts : List Turn} (h : s.turns = .host :: ts) :
    step s = hostTurn { s with turns := ts } := by
  rw [step, h]

theorem step_of_turns_engine {s : State} {ts : List Turn} (h : s.turns = .engine :: ts) :
    step s = engineTurn { s with turns := ts } := by
  rw [step, h]

theorem step_of_turns_hardReset {s : State} {ts : List Turn} (h : s.turns = .hardReset :: ts) :
    step s = .next { s with turns := ts }.hardReset := by
  rw [step, h]

theorem step_of_turns_nil_busy {s : State} (h : s.turns = []) (hb : s.busy = true) : step s = engineTurn s := by
  rw [step, h]
  exact if_pos hb

theorem step_of_turns_nil_idle {s : State} (h : s.turns = []) (hb : s.busy = false) : step s = hostTurn s := by
  rw [step, h]
  exact if_neg (by simp [hb])

theorem engineTurn_idle {s : State} (hb : s.busy = false) : engineTurn s = .next s := if_neg (by simp [hb])

theorem engineTurn_busy {s : State} (hb : s.busy = true) : engineTurn s = engineStep s := if_pos hb

/-! ### The common checks, case by case (60_exceptions.md R117) -/

theorem engineStep_fatal {s : State} (hf : s.fatal = true) : engineStep s = raiseError .fatal s := if_pos hf

theorem engineStep_illegal {s : State} {why : Illegal} (hf : s.fatal = false) (hd : decodeCmd s.pend = .error why) :
    engineStep s = raiseError .illegalCmd s := by
  simp [engineStep, hf, hd]

theorem engineStep_legal {s : State} {i : Instr} (hf : s.fatal = false) (hd : decodeCmd s.pend = .ok i) :
    engineStep s = exec i s := by
  simp [engineStep, hf, hd]

theorem engineTurn_legal {s : State} {i : Instr} (hb : s.busy = true) (hf : s.fatal = false)
    (hd : decodeCmd s.pend = .ok i) : engineTurn s = exec i s :=
  (engineTurn_busy hb).trans (engineStep_legal hf hd)

/-- Settles O6, one clause for each head of the turns; using up a turn leaves BUSY, FATAL and PEND as they are. -/
theorem stepFollowsTheTurns : Obligations.StepFollowsTheTurns := by
  refine fun s => ⟨fun ts h => step_of_turns_host h, fun ts h => step_of_turns_hardReset h, fun ts h hb => ?_,
    fun h hb => step_of_turns_nil_idle h hb, fun i hb hf hd => ⟨fun h => ?_, fun ts h => ?_⟩⟩
  · exact (step_of_turns_engine h).trans (engineTurn_idle hb)
  · exact (step_of_turns_nil_busy h hb).trans (engineTurn_legal hb hf hd)
  · exact (step_of_turns_engine h).trans (engineTurn_legal hb hf hd)

/-! ### Every command ends (60_exceptions.md R119, R122) -/

/-- The outcome is a next state in which the command has ended, with RLEN as in s when it ended in an error. -/
def Ends (s : State) (o : Host.Outcome State Fault Refusal) : Prop :=
  ∃ t, o = .next t ∧ t.busy = false ∧ t.done = true ∧ (t.errcode ≠ .ok → t.rlen = s.rlen)

theorem complete_ends {s : State} (u : State) : Ends s (complete u) :=
  ⟨u.finish .ok, rfl, u.finish_busy _, u.finish_done _, fun h => absurd (u.finish_errcode _) h⟩

theorem raiseError_ends {s u : State} {e : ErrCode} (h : u.rlen = s.rlen) : Ends s (raiseError e u) :=
  ⟨u.finish e, rfl, u.finish_busy _, u.finish_done _, fun _ => by rw [u.finish_rlen, h]⟩

/-- A state that holds a tree has a string for SERIALIZE to write (10_state.md R31, 43_tree_codec.md R102). -/
theorem State.serialized_exists {s : State} (h : s.TreeOk) (hv : s.treeValid = true) :
    ∃ out, s.serialized = some out := by
  obtain ⟨tree, htree, hfull⟩ := State.currentTree_exists h hv
  obtain ⟨out, hout⟩ := serializeTree_exists s.lit s.br hfull
  exact ⟨out, by simp [State.serialized, htree, hout]⟩

theorem execClrfreq_ends (s : State) : Ends s (execClrfreq s) := complete_ends _

theorem execBuild_ends (s : State) : Ends s (execBuild s) := by
  rw [execBuild]
  split_ifs
  · exact raiseError_ends rfl
  · exact raiseError_ends rfl
  · exact complete_ends _

theorem execTeardown_ends (s : State) : Ends s (execTeardown s) := complete_ends _

theorem execNodecmp_ends (a b : Nat) (s : State) : Ends s (execNodecmp a b s) := by
  rw [execNodecmp]
  split_ifs
  · exact raiseError_ends rfl
  · exact raiseError_ends rfl
  · exact complete_ends _

theorem execGencodes_ends {s : State} (h : s.TreeOk) : Ends s (execGencodes s) := by
  rw [execGencodes]
  split_ifs with hv
  · exact raiseError_ends rfl
  · obtain ⟨tree, htree, -⟩ := State.currentTree_exists h (by simpa using hv)
    rw [htree]
    dsimp only
    split
    · exact raiseError_ends s.clearTable_rlen
    · exact complete_ends _

theorem execEncode_ends (s : State) : Ends s (execEncode s) := by
  rw [execEncode]
  split_ifs
  · exact raiseError_ends rfl
  · exact raiseError_ends rfl
  · exact raiseError_ends rfl
  · split
    · exact complete_ends _
    · exact raiseError_ends s.havocDst_rlen

theorem execDecode_ends (s : State) : Ends s (execDecode s) := by
  rw [execDecode]
  split_ifs
  · exact raiseError_ends rfl
  · exact raiseError_ends rfl
  · exact raiseError_ends rfl
  · exact raiseError_ends rfl
  · split
    · exact complete_ends _
    · exact raiseError_ends s.havocDst_rlen

theorem execSerialize_ends {s : State} (h : s.TreeOk) : Ends s (execSerialize s) := by
  rw [execSerialize]
  split_ifs with hv
  · exact raiseError_ends rfl
  · exact raiseError_ends rfl
  · exact raiseError_ends rfl
  · obtain ⟨out, hout⟩ := State.serialized_exists h (by simpa using hv)
    rw [hout]
    dsimp only
    split_ifs
    · exact raiseError_ends s.havocDst_rlen
    · exact complete_ends _

theorem execDeserialize_ends (s : State) : Ends s (execDeserialize s) := by
  rw [execDeserialize]
  split_ifs
  · exact raiseError_ends rfl
  · exact raiseError_ends rfl
  · split
    · exact raiseError_ends s.clearTree_rlen
    · exact complete_ends _

/-- With a good tree no command faults: each ends (00_scope.md R7). -/
theorem exec_ends {s : State} (h : s.TreeOk) : ∀ i : Instr, Ends s (exec i s)
  | .clrfreq => execClrfreq_ends s
  | .build => execBuild_ends s
  | .teardown => execTeardown_ends s
  | .nodecmp a b => execNodecmp_ends a b s
  | .gencodes => execGencodes_ends h
  | .encode => execEncode_ends s
  | .decode => execDecode_ends s
  | .serialize => execSerialize_ends h
  | .deserialize => execDeserialize_ends s

theorem engineStep_ends {s : State} (h : s.TreeOk) : Ends s (engineStep s) := by
  cases hf : s.fatal with
  | true => rw [engineStep_fatal hf]; exact raiseError_ends rfl
  | false =>
    cases hd : decodeCmd s.pend with
    | error why => rw [engineStep_illegal hf hd]; exact raiseError_ends rfl
    | ok i => rw [engineStep_legal hf hd]; exact exec_ends h i

/-- Settles O8: the tree's invariant excludes the one fault, and the handshake's gives RLEN = 0 at the start. -/
theorem engineStepEndsTheCommand : Obligations.EngineStepEndsTheCommand := by
  intro s hinv hbusy
  obtain ⟨-, htree, -, hhand, -⟩ := hinv
  obtain ⟨-, -, hrlen⟩ := hhand hbusy
  obtain ⟨t, ht, hb, hd, he⟩ := engineStep_ends htree
  exact ⟨t, ht, hb, hd, fun hne => (he hne).trans hrlen⟩

end Sys2Proof.Machine
end

section
/-! PROOFS, family 10_state. What changes the current tree and the code table (10_state.md R24, R33), the invariant and
the steps that keep it, what the arena invariants give (R31), and the Host's view of the registers, the arena and the
code table. -/

namespace Sys2Proof.Machine

/-! ### The fields that hold the current tree and the code table (10_state.md R24, R30, R33) -/

/-- The fields of the state that hold the current tree and the code table. -/
structure TreeView where
  treeValid : Bool
  root : NodeIdx
  ncount : BitVec 10
  nleaves : BitVec 10
  nodes : List Node
  tableValid : Bool
  ct : Vector (Option Code) 256

/-- The current tree and the code table of a state. Two states that differ in other fields only have the same. -/
def State.treeView (s : State) : TreeView where
  treeValid := s.treeValid
  root := s.root
  ncount := s.ncount
  nleaves := s.nleaves
  nodes := s.nodes
  tableValid := s.tableValid
  ct := s.ct

theorem treeView_eq_iff {s t : State} : t.treeView = s.treeView ↔
    t.treeValid = s.treeValid ∧ t.root = s.root ∧ t.ncount = s.ncount ∧ t.nleaves = s.nleaves ∧ t.nodes = s.nodes ∧
      t.tableValid = s.tableValid ∧ t.ct = s.ct := by
  simp only [State.treeView, TreeView.mk.injEq]

theorem currentTree_of_treeView {s t : State} (h : t.treeView = s.treeView) : t.currentTree = s.currentTree := by
  obtain ⟨-, hroot, -, -, hnodes, -, -⟩ := treeView_eq_iff.1 h
  rw [State.currentTree, State.currentTree, hnodes, hroot]

/-- The invariants of the tree and of the table speak of these fields only. -/
theorem treeOk_of_treeView {s t : State} (h : t.treeView = s.treeView) (hs : s.TreeOk) : t.TreeOk := by
  obtain ⟨hv, hroot, hncount, hnleaves, hnodes, -, -⟩ := treeView_eq_iff.1 h
  simpa only [State.TreeOk, hv, hroot, hncount, hnleaves, hnodes] using hs

theorem tableOk_of_treeView {s t : State} (h : t.treeView = s.treeView) (hs : s.TableOk) : t.TableOk := by
  obtain ⟨hv, -, -, -, -, htv, hct⟩ := treeView_eq_iff.1 h
  simpa only [State.TableOk, hv, htv, hct, currentTree_of_treeView h] using hs

/-! ### What a command can do to them -/

/-- What one command can do to the current tree and the code table: nothing, or what the rules of the four commands
that own them say. -/
inductive TreeEffect (s : State) (i : Instr) (t : State) : Prop where
  | keeps (hview : t.treeView = s.treeView)
  | installs (nodes : List Node) (hi : i = .build ∨ i = .deserialize) (he : t.errcode = .ok) (ha : ArenaOk nodes)
      (hview : t.treeView = (s.installTree nodes (leafEntries nodes)).treeView)
  | clearsTree (hi : i = .teardown ∧ t.errcode = .ok ∨ i = .deserialize ∧ t.errcode ≠ .ok)
      (hview : t.treeView = s.clearTree.treeView)
  | clearsTable (hi : i = .gencodes) (he : t.errcode = .dupLeaf) (hview : t.treeView = s.clearTable.treeView)
  | fillsTable (tree : Tree) (hi : i = .gencodes) (he : t.errcode = .ok) (hv : s.treeValid = true)
      (htree : s.currentTree = some tree) (hdup : (tableOf tree).2 = false)
      (hview : t.treeView = { s with ct := (tableOf tree).1, tableValid := true }.treeView)

/-- DESERIALIZE's scan never ends in the error code of success. -/
theorem deserializeBytes_error {lit br : Byte} {bytes : List Byte} {e : ErrCode}
    (h : deserializeBytes lit br bytes = .error e) : e ≠ .ok := by
  rw [deserializeBytes] at h
  split at h
  next e' he =>
    obtain rfl : e' = e := by simpa using h
    rcases scanTopology_error he with rfl | rfl | rfl | rfl <;> decide
  next c _ =>
    split at h
    · simp at h
    · obtain rfl : ErrCode.stackImbalance = e := by simpa using h
      decide

/-- BUILD's arena meets 10_state.md R31, with one leaf for each present symbol (40_tree_builder.md R87). -/
theorem buildArena_arenaOk {present : List (Symbol × Word)} (hne : present ≠ []) (hlen : present.length ≤ 256)
    (htotal : freqTotal present ≤ Config.freqMax) :
    ArenaOk (buildArena present) ∧ leafEntries (buildArena present) = present.length := by
  obtain ⟨hf, hl, -, hleaves, -⟩ := buildArena_forest hne hlen htotal
  have hpos : 0 < present.length := List.length_pos_iff.2 hne
  exact ⟨hf.arenaOk (by omega) (by simp only [Config.nodeMax]; omega), hleaves⟩

theorem execBuild_tree {s t : State} (h : execBuild s = .next t) : TreeEffect s .build t := by
  obtain ⟨-, rfl⟩ | ⟨-, -, rfl⟩ | ⟨hne, htotal, rfl⟩ := execBuild_next h
  · exact .keeps rfl
  · exact .keeps rfl
  · obtain ⟨ha, hleaves⟩ := buildArena_arenaOk hne s.present_length_le htotal
    exact .installs _ (.inl rfl) rfl ha (by rw [hleaves]; rfl)

theorem execNodecmp_treeView {a b : Nat} {s t : State} (h : execNodecmp a b s = .next t) :
    t.treeView = s.treeView := by
  obtain ⟨-, rfl⟩ | ⟨-, -, rfl⟩ | ⟨-, -, -, rfl⟩ := execNodecmp_next h <;> rfl

theorem execGencodes_tree {s t : State} (h : execGencodes s = .next t) : TreeEffect s .gencodes t := by
  obtain ⟨-, rfl⟩ | ⟨hv, tree, htree, ⟨-, rfl⟩ | ⟨hdup, rfl⟩⟩ := execGencodes_next h
  · exact .keeps rfl
  · exact .clearsTable rfl rfl rfl
  · exact .fillsTable tree rfl rfl hv htree hdup rfl

theorem execEncode_treeView {s t : State} (h : execEncode s = .next t) : t.treeView = s.treeView := by
  obtain ⟨-, rfl⟩ | ⟨-, -, rfl⟩ | ⟨-, -, -, ⟨-, rfl⟩ | ⟨-, ⟨out, -, rfl⟩ | ⟨e, -, rfl⟩⟩⟩ := execEncode_next h <;> rfl

theorem execDecode_treeView {s t : State} (h : execDecode s = .next t) : t.treeView = s.treeView := by
  obtain ⟨-, rfl⟩ | ⟨-, -, rfl⟩ | ⟨-, -, ⟨-, rfl⟩ | ⟨-, -, ⟨-, rfl⟩ | ⟨-, ⟨out, -, rfl⟩ | ⟨e, -, rfl⟩⟩⟩⟩ :=
    execDecode_next h <;> rfl

theorem execSerialize_treeView {s t : State} (h : execSerialize s = .next t) : t.treeView = s.treeView := by
  obtain ⟨-, rfl⟩ | ⟨-, -, rfl⟩ | ⟨-, -, ⟨-, rfl⟩ | ⟨-, out, -, ⟨-, rfl⟩ | ⟨-, rfl⟩⟩⟩ := execSerialize_next h <;> rfl

theorem execDeserialize_tree {s t : State} (h : execDeserialize s = .next t) : TreeEffect s .deserialize t := by
  obtain ⟨-, rfl⟩ | ⟨-, ⟨-, rfl⟩ | ⟨-, ⟨e, he, rfl⟩ | ⟨c, hc, rfl⟩⟩⟩ := execDeserialize_next h
  · exact .keeps rfl
  · exact .keeps rfl
  · exact .clearsTree (.inr ⟨rfl, deserializeBytes_error he⟩) rfl
  · obtain ⟨hok, -, ha⟩ := deserializeBytes_ok hc
    exact .installs _ (.inr rfl) rfl ha (by rw [← hok.leaves]; rfl)

theorem exec_tree {i : Instr} {s t : State} (h : exec i s = .next t) : TreeEffect s i t := by
  cases i with
  | clrfreq => obtain rfl := execClrfreq_next h; exact .keeps rfl
  | build => exact execBuild_tree h
  | teardown => obtain rfl := execTeardown_next h; exact .clearsTree (.inl ⟨rfl, rfl⟩) rfl
  | nodecmp a b => exact .keeps (execNodecmp_treeView h)
  | gencodes => exact execGencodes_tree h
  | encode => exact .keeps (execEncode_treeView h)
  | decode => exact .keeps (execDecode_treeView h)
  | serialize => exact .keeps (execSerialize_treeView h)
  | deserialize => exact execDeserialize_tree h

/-- An Engine step keeps the tree and the table or has the effect of the pending command on them. -/
theorem engineStep_tree {s t : State} (h : engineStep s = .next t) :
    t.treeView = s.treeView ∨ ∃ i, decodeCmd s.pend = .ok i ∧ TreeEffect s i t := by
  obtain ⟨-, rfl⟩ | ⟨-, -, rfl⟩ | ⟨-, i, hi, hx⟩ := engineStep_next h
  · exact .inl rfl
  · exact .inl rfl
  · exact .inr ⟨i, hi, exec_tree hx⟩

/-! ### What the Host and the resets can do to them -/

theorem treeView_whenIdle {s u : State} (h : u.treeView = s.treeView) : (s.whenIdle u).treeView = s.treeView := by
  obtain ⟨-, hw⟩ | ⟨-, hw⟩ := s.whenIdle_eq u <;> rw [hw]
  · rfl
  · exact h

/-- A register write keeps the tree and the table, but for a write of CTRL with SRST = 1 (10_state.md R20). -/
theorem State.writeReg_treeView (s : State) (v : Word) (r : Reg) :
    (s.writeReg v r).treeView = s.treeView ∨ r = .ctrl ∧ v.getLsbD 1 = true ∧ s.writeReg v r = s.softReset := by
  cases r with
  | ctrl =>
    rw [State.writeReg, State.writeCtrl]
    split
    next hv => exact .inr ⟨rfl, hv, rfl⟩
    · exact .inl rfl
  | status => exact .inl rfl
  | cmd | src | slen | dst | dcap | markers => exact .inl (treeView_whenIdle rfl)
  | id | params | errcode | rlen | result | root | ncount | nleaves => exact .inl rfl

theorem State.hostWrite_treeView (s : State) (w : Width) (v : Word) (tgt : Target) :
    (s.hostWrite w v tgt).treeView = s.treeView ∨
      tgt = .reg .ctrl ∧ v.getLsbD 1 = true ∧ s.hostWrite w v tgt = s.softReset := by
  cases tgt with
  | reg r => simpa only [State.hostWrite, Target.reg.injEq] using s.writeReg_treeView v r
  | node | ct => exact .inl rfl
  | freq | lmem => exact .inl (treeView_whenIdle rfl)

/-- The Host's next transaction is a write of CTRL with SRST = 1 (70_reset_and_hazards.md R138). -/
abbrev State.SoftResetNext (s : State) : Prop := ∃ v rest, s.host = .write .w32 0x008 v :: rest ∧ v.getLsbD 1 = true

/-- The Host's turn keeps the tree and the table or is a soft reset. -/
theorem hostTurn_tree {s t : State} (h : hostTurn s = .next t) :
    t.treeView = s.treeView ∨ s.SoftResetNext ∧ ∃ u : State, t = u.softReset := by
  obtain ⟨-, rfl⟩ | ⟨rest, -, rfl⟩ | ⟨w, off, rest, tgt, -, -, rfl⟩ | ⟨w, off, v, rest, tgt, hh, hc, rfl⟩ :=
    hostTurn_next h
  · exact .inl rfl
  · exact .inl rfl
  · rw [State.hostRead_eq]
    exact .inl rfl
  · obtain hview | ⟨rfl, hv, hr⟩ := ({ s with host := rest } : State).hostWrite_treeView w v tgt
    · exact .inl hview
    · obtain ⟨rfl, rfl⟩ := classify_ctrl hc
      exact .inr ⟨⟨v, rest, hh, hv⟩, _, hr⟩

theorem State.softReset_treeView (s : State) : s.softReset.treeView = State.reset.treeView := by
  obtain h | ⟨-, -, h⟩ := s.softReset_eq <;> rw [h] <;> rfl

/-- Everything a step can do to the current tree and the code table: nothing, the effect of the pending command, or a
reset. -/
theorem step_tree {s t : State} (h : step s = .next t) :
    t.treeView = s.treeView ∨
    (s.busy = true ∧ ∃ i, decodeCmd s.pend = .ok i ∧ TreeEffect { s with turns := s.turns.tail } i t) ∨
    ((∃ ts, s.turns = .hardReset :: ts) ∨ s.SoftResetNext) ∧ t.treeView = State.reset.treeView := by
  obtain ⟨-, he⟩ | ⟨-, hh⟩ | ⟨hr, rfl⟩ := step_next h
  · obtain ⟨-, rfl⟩ | ⟨hb, hx⟩ := engineTurn_next he
    · exact .inl rfl
    · obtain hview | hi := engineStep_tree hx
      · exact .inl hview
      · exact .inr (.inl ⟨hb, hi⟩)
  · obtain hview | ⟨hr, u, rfl⟩ := hostTurn_tree hh
    · exact .inl hview
    · exact .inr (.inr ⟨.inr hr, u.softReset_treeView⟩)
  · exact .inr (.inr ⟨.inl (List.head?_eq_some_iff.1 hr), rfl⟩)

/-! ### The invariant (10_state.md R24, R30, R31, R33) -/

/-- Settles O54: the state right after reset holds no tree, no code, no byte and no pending command. -/
theorem invariantHoldsAtReset : Obligations.InvariantHoldsAtReset :=
  ⟨State.wf_reset, ⟨by decide, fun _ => ⟨rfl, rfl, rfl, rfl⟩⟩, ⟨by decide, fun _ => rfl⟩, by decide⟩

/-- The registers of a newly installed good arena are its own (40_tree_builder.md R81, 43_tree_codec.md R106). -/
theorem State.installTree_treeOk (s : State) {nodes : List Node} (ha : ArenaOk nodes) :
    (s.installTree nodes (leafEntries nodes)).TreeOk := by
  obtain ⟨hpos, hsize, -, -, hcount⟩ := id ha
  simp only [Config.nodeMax] at hsize
  refine ⟨fun _ => ⟨ha, ?_, ?_, ?_⟩, fun h => absurd h (by simp)⟩
  · simp only [State.installTree_ncount, State.installTree_nodes, BitVec.toNat_ofNat]
    omega
  · simp only [State.installTree_root, State.installTree_nodes, BitVec.toNat_ofNat]
    omega
  · simp only [State.installTree_nleaves, State.installTree_nodes, BitVec.toNat_ofNat]
    omega

/-- A table that holds no code is fine with every tree. -/
theorem tableOk_of_cleared {s : State} (hv : s.tableValid = false) (hct : s.ct = Vector.replicate 256 none) :
    s.TableOk :=
  ⟨fun h => absurd (hv.symm.trans h) (by decide), fun _ => hct⟩

theorem TreeEffect.treeOk {s t : State} {i : Instr} (h : TreeEffect s i t) (hs : s.TreeOk) : t.TreeOk := by
  cases h with
  | keeps hview => exact treeOk_of_treeView hview hs
  | installs nodes _ _ ha hview => exact treeOk_of_treeView hview (s.installTree_treeOk ha)
  | clearsTree _ hview =>
    exact treeOk_of_treeView hview ⟨fun h => absurd h (by simp), fun _ => ⟨rfl, rfl, rfl, rfl⟩⟩
  | clearsTable _ _ hview => exact treeOk_of_treeView hview hs
  | fillsTable tree _ _ _ _ _ hview => exact treeOk_of_treeView hview hs

theorem TreeEffect.tableOk {s t : State} {i : Instr} (h : TreeEffect s i t) (hs : s.TableOk) : t.TableOk := by
  cases h with
  | keeps hview => exact tableOk_of_treeView hview hs
  | installs nodes _ _ _ hview => exact tableOk_of_treeView hview (tableOk_of_cleared rfl rfl)
  | clearsTree _ hview => exact tableOk_of_treeView hview (tableOk_of_cleared rfl rfl)
  | clearsTable _ _ hview => exact tableOk_of_treeView hview (tableOk_of_cleared rfl rfl)
  | fillsTable tree _ _ hv htree hdup hview =>
    refine tableOk_of_treeView hview ⟨fun _ => ⟨hv, ?_⟩, fun h => absurd h (by simp)⟩
    have htree' : ({ s with ct := (tableOf tree).1, tableValid := true } : State).currentTree = some tree := htree
    rw [htree', Option.map_some, ← hdup]

theorem step_keeps_tree {s t : State} (h : step s = .next t) (htree : s.TreeOk) (htable : s.TableOk) :
    t.TreeOk ∧ t.TableOk := by
  obtain hview | ⟨-, i, -, heff⟩ | ⟨-, hview⟩ := step_tree h
  · exact ⟨treeOk_of_treeView hview htree, tableOk_of_treeView hview htable⟩
  · exact ⟨heff.treeOk htree, heff.tableOk htable⟩
  · obtain ⟨-, rtree, rtable, -⟩ := invariantHoldsAtReset
    exact ⟨treeOk_of_treeView hview rtree, tableOk_of_treeView hview rtable⟩

/-! ### LMEM keeps its canonical form -/

/-- LMEM is in its canonical form (20_memory.md R53; log 5). -/
abbrev State.LmemOk (s : State) : Prop := Memory.wf s.lmemSize s.lmem

theorem execEncode_lmemOk {s t : State} (h : execEncode s = .next t) (hs : s.LmemOk) : t.LmemOk := by
  obtain ⟨-, rfl⟩ | ⟨-, -, rfl⟩ | ⟨-, -, hdst, ⟨-, rfl⟩ | ⟨-, ⟨out, hout, rfl⟩ | ⟨e, -, rfl⟩⟩⟩ := execEncode_next h
  · exact hs
  · exact hs
  · exact hs
  · exact State.wf_putOutput hs hdst (encodeStream_length hout)
  · exact State.wf_havocDst hs hdst

theorem execDecode_lmemOk {s t : State} (h : execDecode s = .next t) (hs : s.LmemOk) : t.LmemOk := by
  obtain ⟨-, rfl⟩ | ⟨-, -, rfl⟩ | ⟨-, -, ⟨-, rfl⟩ | ⟨-, hdst, ⟨-, rfl⟩ | ⟨-, ⟨out, hout, rfl⟩ | ⟨e, -, rfl⟩⟩⟩⟩ :=
    execDecode_next h
  · exact hs
  · exact hs
  · exact hs
  · exact hs
  · exact State.wf_putOutput hs hdst (decodeStream_length hout)
  · exact State.wf_havocDst hs hdst

theorem execSerialize_lmemOk {s t : State} (h : execSerialize s = .next t) (hs : s.LmemOk) : t.LmemOk := by
  obtain ⟨-, rfl⟩ | ⟨-, -, rfl⟩ | ⟨-, -, ⟨-, rfl⟩ | ⟨hdst, out, -, ⟨-, rfl⟩ | ⟨hfits, rfl⟩⟩⟩ := execSerialize_next h
  · exact hs
  · exact hs
  · exact hs
  · exact State.wf_havocDst hs hdst
  · exact State.wf_putOutput hs hdst hfits

/-- The commands without a destination window leave LMEM as it is; the others write inside their window. -/
theorem exec_lmemOk {i : Instr} {s t : State} (h : exec i s = .next t) (hs : s.LmemOk) : t.LmemOk := by
  cases i with
  | clrfreq => obtain rfl := execClrfreq_next h; exact hs
  | build => obtain ⟨-, rfl⟩ | ⟨-, -, rfl⟩ | ⟨-, -, rfl⟩ := execBuild_next h <;> exact hs
  | teardown => obtain rfl := execTeardown_next h; exact hs
  | nodecmp a b => obtain ⟨-, rfl⟩ | ⟨-, -, rfl⟩ | ⟨-, -, -, rfl⟩ := execNodecmp_next h <;> exact hs
  | gencodes => obtain ⟨-, rfl⟩ | ⟨-, _, -, ⟨-, rfl⟩ | ⟨-, rfl⟩⟩ := execGencodes_next h <;> exact hs
  | encode => exact execEncode_lmemOk h hs
  | decode => exact execDecode_lmemOk h hs
  | serialize => exact execSerialize_lmemOk h hs
  | deserialize =>
    obtain ⟨-, rfl⟩ | ⟨-, ⟨-, rfl⟩ | ⟨-, ⟨_, -, rfl⟩ | ⟨_, -, rfl⟩⟩⟩ := execDeserialize_next h <;> exact hs

theorem engineStep_lmemOk {s t : State} (h : engineStep s = .next t) (hs : s.LmemOk) : t.LmemOk := by
  obtain ⟨-, rfl⟩ | ⟨-, -, rfl⟩ | ⟨-, i, -, hx⟩ := engineStep_next h
  · exact hs
  · exact hs
  · exact exec_lmemOk hx hs

theorem State.softReset_lmemOk {s : State} (hs : s.LmemOk) : s.softReset.LmemOk := by
  obtain h | ⟨-, hdst, h⟩ := s.softReset_eq <;> rw [h]
  · exact hs
  · exact State.wf_havocDst hs hdst

theorem State.whenIdle_lmemOk {s u : State} (hs : s.LmemOk) (hu : u.LmemOk) : (s.whenIdle u).LmemOk := by
  obtain ⟨-, hw⟩ | ⟨-, hw⟩ := s.whenIdle_eq u <;> rw [hw]
  · exact hs
  · exact hu

theorem State.writeReg_lmemOk {s : State} (hs : s.LmemOk) (v : Word) (r : Reg) : (s.writeReg v r).LmemOk := by
  cases r with
  | ctrl =>
    rw [State.writeReg, State.writeCtrl]
    split
    · exact State.softReset_lmemOk hs
    · exact hs
  | status => exact hs
  | cmd | src | slen | dst | dcap | markers => exact State.whenIdle_lmemOk hs hs
  | id | params | errcode | rlen | result | root | ncount | nleaves => exact hs

/-- A permitted Host write of LMEM ends inside it (20_memory.md R48). -/
theorem State.hostWrite_lmemOk {s : State} (hs : s.LmemOk) {w : Width} {off : Offset} {tgt : Target} (v : Word)
    (hc : classify s.lmemSize w off = some tgt) : (s.hostWrite w v tgt).LmemOk := by
  cases tgt with
  | reg r => exact State.writeReg_lmemOk hs v r
  | freq sym => exact State.whenIdle_lmemOk hs hs
  | node | ct => exact hs
  | lmem a =>
    obtain ⟨hlt, halign⟩ := classify_lmem hc
    exact State.whenIdle_lmemOk hs (State.wf_memWrite hs v (State.lmem_fits hlt halign))

theorem hostTurn_lmemOk {s t : State} (h : hostTurn s = .next t) (hs : s.LmemOk) : t.LmemOk := by
  obtain ⟨-, rfl⟩ | ⟨rest, -, rfl⟩ | ⟨w, off, rest, tgt, -, -, rfl⟩ | ⟨w, off, v, rest, tgt, -, hc, rfl⟩ :=
    hostTurn_next h
  · exact hs
  · exact hs
  · rw [State.hostRead_eq]
    exact hs
  · exact State.hostWrite_lmemOk (s := { s with host := rest }) hs v hc

theorem step_lmemOk {s t : State} (h : step s = .next t) (hs : s.LmemOk) : t.LmemOk := by
  obtain ⟨-, he⟩ | ⟨-, hh⟩ | ⟨-, rfl⟩ := step_next h
  · obtain ⟨-, rfl⟩ | ⟨-, hx⟩ := engineTurn_next he
    · exact hs
    · exact engineStep_lmemOk hx hs
  · exact hostTurn_lmemOk hh hs
  · exact Memory.wf_nil _

/-! ### The handshake (60_exceptions.md R119, R121) -/

theorem State.softReset_handshakeOk (s : State) : s.softReset.HandshakeOk := by
  obtain ⟨-, -, -, hreset⟩ := invariantHoldsAtReset
  obtain h | ⟨-, -, h⟩ := s.softReset_eq <;> rw [h] <;> exact hreset

theorem State.whenIdle_handshakeOk {s u : State} (hs : s.HandshakeOk) (hu : s.busy = false → u.HandshakeOk) :
    (s.whenIdle u).HandshakeOk := by
  obtain ⟨-, hw⟩ | ⟨hb, hw⟩ := s.whenIdle_eq u <;> rw [hw]
  · exact hs
  · exact hu hb

/-- The acceptance clears DONE, ERRCODE and RLEN; W1C writes of STATUS only clear DONE (60_exceptions.md R121). -/
theorem State.writeReg_handshakeOk {s : State} (hs : s.HandshakeOk) (v : Word) (r : Reg) :
    (s.writeReg v r).HandshakeOk := by
  cases r with
  | ctrl =>
    rw [State.writeReg, State.writeCtrl]
    split
    · exact s.softReset_handshakeOk
    · exact hs
  | status =>
    obtain ⟨hbusy, herr⟩ := hs
    refine ⟨fun hb => ?_, herr⟩
    obtain ⟨hdone, hrest⟩ := hbusy hb
    exact ⟨by simp [State.writeReg, State.writeStatus, hdone], hrest⟩
  | cmd => exact State.whenIdle_handshakeOk hs fun _ => ⟨fun _ => ⟨rfl, rfl, rfl⟩, fun _ => rfl⟩
  | src | slen | dst | dcap | markers => exact State.whenIdle_handshakeOk hs fun _ => hs
  | id | params | errcode | rlen | result | root | ncount | nleaves => exact hs

theorem State.hostWrite_handshakeOk {s : State} (hs : s.HandshakeOk) (w : Width) (v : Word) (tgt : Target) :
    (s.hostWrite w v tgt).HandshakeOk := by
  cases tgt with
  | reg r => exact State.writeReg_handshakeOk hs v r
  | freq | lmem => exact State.whenIdle_handshakeOk hs fun _ => hs
  | node | ct => exact hs

theorem hostTurn_handshakeOk {s t : State} (h : hostTurn s = .next t) (hs : s.HandshakeOk) : t.HandshakeOk := by
  obtain ⟨-, rfl⟩ | ⟨rest, -, rfl⟩ | ⟨w, off, rest, tgt, -, -, rfl⟩ | ⟨w, off, v, rest, tgt, -, -, rfl⟩ :=
    hostTurn_next h
  · exact hs
  · exact hs
  · rw [State.hostRead_eq]
    exact hs
  · exact State.hostWrite_handshakeOk (s := { s with host := rest }) hs w v tgt

/-- A command that ends leaves RLEN as the acceptance cleared it, unless it succeeds (60_exceptions.md R119). -/
theorem engineStep_handshakeOk {s t : State} (h : engineStep s = .next t) (htree : s.TreeOk) (hs : s.HandshakeOk)
    (hbusy : s.busy = true) : t.HandshakeOk := by
  obtain ⟨-, -, hrlen⟩ := hs.1 hbusy
  obtain ⟨t', ht, hb, -, he⟩ := engineStep_ends htree
  obtain rfl : t = t' := by simpa [h] using ht
  exact ⟨fun h' => absurd (hb.symm.trans h') (by decide), fun hne => (he hne).trans hrlen⟩

theorem step_handshakeOk {s t : State} (h : step s = .next t) (htree : s.TreeOk) (hs : s.HandshakeOk) :
    t.HandshakeOk := by
  obtain ⟨-, he⟩ | ⟨-, hh⟩ | ⟨-, rfl⟩ := step_next h
  · obtain ⟨-, rfl⟩ | ⟨hb, hx⟩ := engineTurn_next he
    · exact hs
    · exact engineStep_handshakeOk hx htree hs hb
  · exact hostTurn_handshakeOk hh hs
  · obtain ⟨-, -, -, hreset⟩ := invariantHoldsAtReset
    exact hreset

/-- Settles O55, part by part. -/
theorem stepKeepsTheInvariant : Obligations.StepKeepsTheInvariant := by
  rintro s t ⟨hlmem, htree, htable, hhand⟩ h
  obtain ⟨htree', htable'⟩ := step_keeps_tree h htree htable
  exact ⟨step_lmemOk h hlmem, htree', htable', step_handshakeOk h htree hhand⟩

/-! ### What changes TREE_VALID and TABLE_VALID (10_state.md R24, R33) -/

/-- The effects on TREE_VALID: an installed tree sets it and a cleared one clears it (10_state.md R24). -/
theorem TreeEffect.treeValid_eq {s t : State} {i : Instr} (h : TreeEffect s i t) :
    t.treeValid = s.treeValid ∨
    t.treeValid = true ∧ t.errcode = .ok ∧ (i = .build ∨ i = .deserialize) ∨
    t.treeValid = false ∧ (i = .teardown ∧ t.errcode = .ok ∨ i = .deserialize ∧ t.errcode ≠ .ok) := by
  cases h with
  | keeps hview => exact .inl (congrArg TreeView.treeValid hview)
  | installs nodes hi he _ hview => exact .inr (.inl ⟨congrArg TreeView.treeValid hview, he, hi⟩)
  | clearsTree hi hview => exact .inr (.inr ⟨congrArg TreeView.treeValid hview, hi⟩)
  | clearsTable _ _ hview => exact .inl (congrArg TreeView.treeValid hview)
  | fillsTable tree _ _ _ _ _ hview => exact .inl (congrArg TreeView.treeValid hview)

/-- The effects on TABLE_VALID: a filled table sets it, and a cleared tree or table clears it with every code
(10_state.md R33). -/
theorem TreeEffect.tableValid_eq {s t : State} {i : Instr} (h : TreeEffect s i t) :
    t.tableValid = s.tableValid ∨
    t.tableValid = true ∧ t.errcode = .ok ∧ i = .gencodes ∨
    t.tableValid = false ∧ t.ct = Vector.replicate 256 none ∧
      (i = .build ∨ i = .deserialize ∨ i = .teardown ∨ i = .gencodes ∧ t.errcode = .dupLeaf) := by
  cases h with
  | keeps hview => exact .inl (congrArg TreeView.tableValid hview)
  | installs nodes hi _ _ hview =>
    refine .inr (.inr ⟨congrArg TreeView.tableValid hview, congrArg TreeView.ct hview, ?_⟩)
    obtain rfl | rfl := hi
    · exact .inl rfl
    · exact .inr (.inl rfl)
  | clearsTree hi hview =>
    refine .inr (.inr ⟨congrArg TreeView.tableValid hview, congrArg TreeView.ct hview, ?_⟩)
    obtain ⟨rfl, -⟩ | ⟨rfl, -⟩ := hi
    · exact .inr (.inr (.inl rfl))
    · exact .inr (.inl rfl)
  | clearsTable hi he hview =>
    exact .inr (.inr ⟨congrArg TreeView.tableValid hview, congrArg TreeView.ct hview, .inr (.inr (.inr ⟨hi, he⟩))⟩)
  | fillsTable tree hi he _ _ _ hview => exact .inr (.inl ⟨congrArg TreeView.tableValid hview, he, hi⟩)

/-- A flag that a step keeps is neither set nor cleared. -/
theorem not_changed_of_eq {a b : Bool} (h : b = a) {p q : Prop} :
    (a = false → b = true → p) ∧ (a = true → b = false → q) := by
  subst h
  cases b <;> simp

/-- Settles O57: a step keeps TREE_VALID, or a command has one of its effects on it, or a reset clears it. -/
theorem treeValidChangesOnlyByItsCommands : Obligations.TreeValidChangesOnlyByItsCommands := by
  intro s t h
  obtain hview | ⟨hb, i, hd, heff⟩ | ⟨hreset, hview⟩ := step_tree h
  · exact not_changed_of_eq (congrArg TreeView.treeValid hview)
  · obtain hv | ⟨hv, he, rfl | rfl⟩ | ⟨hv, ⟨rfl, he⟩ | ⟨rfl, he⟩⟩ := heff.treeValid_eq
    · exact not_changed_of_eq hv
    · simp [hv, hb, hd, he]
    · simp [hv, hb, hd, he]
    · simp [hv, hb, hd, he]
    · simp [hv, hb, hd, he]
  · have hv : t.treeValid = false := congrArg TreeView.treeValid hview
    exact ⟨fun _ ht => absurd (hv.symm.trans ht) (by decide), fun _ _ => .inr (.inr hreset)⟩

/-- Settles O58: a step keeps TABLE_VALID, or a command has one of its effects on it, or a reset clears the table. -/
theorem tableValidChangesOnlyByItsCommands : Obligations.TableValidChangesOnlyByItsCommands := by
  intro s t h
  obtain hview | ⟨hb, i, hd, heff⟩ | ⟨hreset, hview⟩ := step_tree h
  · exact not_changed_of_eq (congrArg TreeView.tableValid hview)
  · obtain hv | ⟨hv, he, rfl⟩ | ⟨hv, hct, rfl | rfl | rfl | ⟨rfl, he⟩⟩ := heff.tableValid_eq
    · exact not_changed_of_eq hv
    · simp [hv, hb, hd, he]
    · simp [hv, hct, hb, hd]
    · simp [hv, hct, hb, hd]
    · simp [hv, hct, hb, hd]
    · simp [hv, hct, hb, hd, he]
  · have hv : t.tableValid = false := congrArg TreeView.tableValid hview
    exact ⟨fun _ ht => absurd (hv.symm.trans ht) (by decide),
      fun _ _ => ⟨congrArg TreeView.ct hview, .inr hreset⟩⟩

/-! ### What the arena invariants give (10_state.md R31) -/

/-- One move along a path, from a branch to a child that is not NIL. -/
theorem walkPath_cons {nodes : List Node} {i l r : NodeIdx} {f : Word} (h : arenaAt nodes i.toNat = .branch f l r)
    (b : Bool) (hne : (if b then r else l) ≠ Config.nil) (path : Code) :
    walkPath nodes i (b :: path) = walkPath nodes (if b then r else l) path := by
  simp [walkPath, h, hne]

/-- A path leads on from where its first part ends. -/
theorem walkPath_append (nodes : List Node) (i : NodeIdx) (p q : Code) :
    walkPath nodes i (p ++ q) = (walkPath nodes i p).bind fun j => walkPath nodes j q := by
  induction p generalizing i with
  | nil => rfl
  | cons b p ih =>
    cases hn : arenaAt nodes i.toNat with
    | leaf sym f => simp [walkPath, hn]
    | branch f l r => by_cases hne : (if b then r else l) = Config.nil <;> simp [walkPath, hn, hne, ih]

/-- No path leads on from a leaf. -/
theorem walkPath_leaf {nodes : List Node} {i : NodeIdx} {sym : Symbol} {f : Word}
    (h : arenaAt nodes i.toNat = .leaf sym f) {path : Code} (hne : path ≠ []) : walkPath nodes i path = none := by
  cases path with
  | nil => exact absurd rfl hne
  | cons b path => simp [walkPath, h]

theorem mem_childrenOf {nodes : List Node} {c : Nat} (h : c ∈ childrenOf nodes) :
    ∃ j < nodes.length, ∃ f l r, arenaAt nodes j = .branch f l r ∧ (c = l.toNat ∨ c = r.toNat) := by
  induction nodes with
  | nil => simp [childrenOf] at h
  | cons n nodes ih =>
    have tail : c ∈ childrenOf nodes → ∃ j < (n :: nodes).length, ∃ f l r,
        arenaAt (n :: nodes) j = .branch f l r ∧ (c = l.toNat ∨ c = r.toNat) := by
      intro hc
      obtain ⟨j, hj, f, l, r, hn, hlr⟩ := ih hc
      refine ⟨j + 1, Nat.succ_lt_succ hj, f, l, r, ?_, hlr⟩
      rw [arenaAt_eq_getElem hj] at hn
      rw [arenaAt_eq_getElem (Nat.succ_lt_succ hj), List.getElem_cons_succ, hn]
    cases n with
    | leaf sym f => exact tail h
    | branch f l r =>
      simp only [childrenOf, List.mem_cons] at h
      obtain h | h | h := h
      · exact ⟨0, by simp, f, l, r, rfl, .inl h⟩
      · exact ⟨0, by simp, f, l, r, rfl, .inr h⟩
      · exact tail h

/-- In a good arena the children of a branch are earlier entries, so neither is NIL. -/
theorem ArenaOk.child {nodes : List Node} (ha : ArenaOk nodes) {j : Nat} {f : Word} {l r : NodeIdx}
    (hj : j < nodes.length) (h : arenaAt nodes j = .branch f l r) (b : Bool) :
    (if b then r else l).toNat < j ∧ (if b then r else l) ≠ Config.nil := by
  obtain ⟨-, hsize, hentries, -, -⟩ := ha
  obtain ⟨hl, hr, -, -⟩ := entryOk_branch (h ▸ hentries j hj)
  cases b
  · exact ⟨hl, toNat_ne_nil hsize (hl.trans hj)⟩
  · exact ⟨hr, toNat_ne_nil hsize (hr.trans hj)⟩

/-- Every entry but the last has a branch above it, one move away. -/
theorem ArenaOk.parent {nodes : List Node} (ha : ArenaOk nodes) {i : Nat} (hi : i + 1 < nodes.length) :
    ∃ j, i < j ∧ j < nodes.length ∧ ∃ f l r, ∃ b : Bool,
      arenaAt nodes j = .branch f l r ∧ (if b then r else l).toNat = i := by
  obtain ⟨-, -, -, hperm, -⟩ := id ha
  have hmem : i ∈ childrenOf nodes := hperm.mem_iff.2 (List.mem_range.2 (by omega))
  obtain ⟨j, hj, f, l, r, hn, hlr⟩ := mem_childrenOf hmem
  obtain ⟨b, hb⟩ : ∃ b : Bool, (if b then r else l).toNat = i := by
    obtain h | h := hlr
    · exact ⟨false, h.symm⟩
    · exact ⟨true, h.symm⟩
  have hlt := (ha.child hj hn b).1
  exact ⟨j, by omega, hj, f, l, r, b, hn, hb⟩

/-- Every entry of a good arena is reached from its last one, by going up from child to branch. -/
theorem ArenaOk.reachable {nodes : List Node} (ha : ArenaOk nodes) {root : NodeIdx}
    (hroot : root.toNat + 1 = nodes.length) {i : Nat} (hi : i < nodes.length) :
    ∃ path idx, walkPath nodes root path = some idx ∧ idx.toNat = i := by
  induction hn : nodes.length - i using Nat.strong_induction_on generalizing i with
  | _ n ih =>
    by_cases hlast : i + 1 = nodes.length
    · exact ⟨[], root, rfl, by omega⟩
    · obtain ⟨j, hij, hj, f, l, r, b, hbr, hb⟩ := ha.parent (i := i) (by omega)
      obtain ⟨path, idx, hwalk, rfl⟩ := ih (nodes.length - j) (by omega) hj rfl
      refine ⟨path ++ [b], if b then r else l, ?_, hb⟩
      rw [walkPath_append, hwalk, Option.bind_some, walkPath_cons hbr b (ha.child hj hbr b).2, walkPath]

/-- Settles O60: ROOT is the last entry of the arena. -/
theorem everyArenaEntryIsReachable : Obligations.EveryArenaEntryIsReachable := by
  intro s htree hv i hi
  obtain ⟨ha, -, hroot, -⟩ := htree.1 hv
  exact ha.reachable hroot hi

/-! ### DECODE finds every child (44_decompressor.md R113) -/

/-- DECODE's move leads from a branch of a good arena to an earlier entry. -/
theorem moveOn_lt {nodes : List Node} (ha : ArenaOk nodes) {cur nxt : NodeIdx} {b : Byte}
    (hcur : cur.toNat < nodes.length) (hbr : (arenaAt nodes cur.toNat).isBranch = true)
    (h : moveOn (arenaAt nodes cur.toNat) b = some nxt) : nxt.toNat < nodes.length := by
  cases hn : arenaAt nodes cur.toNat with
  | leaf sym f => simp [hn] at hbr
  | branch f l r =>
    have hl := (ha.child hcur hn false).1
    have hr := (ha.child hcur hn true).1
    simp only [hn, moveOn] at h
    split_ifs at h
    · obtain rfl : l = nxt := by simpa using h
      exact hl.trans hcur
    · obtain rfl : r = nxt := by simpa using h
      exact hr.trans hcur

theorem decodeStream_ne_missingChild {nodes : List Node} (ha : ArenaOk nodes) {root cur : NodeIdx}
    (hroot : root.toNat < nodes.length) (hrootBr : (arenaAt nodes root.toNat).isBranch = true)
    (hcur : cur.toNat < nodes.length) (hcurBr : (arenaAt nodes cur.toNat).isBranch = true) (room : Nat)
    (src : List Byte) : decodeStream nodes root cur room src ≠ .error .missingChild := by
  induction src generalizing cur room with
  | nil => rw [decodeStream]; split <;> simp
  | cons b src ih =>
    rw [decodeStream]
    split
    · simp
    next nxt hmove =>
      have hnxt := moveOn_lt ha hcur hcurBr hmove
      rw [if_neg (toNat_ne_nil ha.2.1 hnxt)]
      split
      next f l r hn => exact ih hnxt (by rw [hn]; rfl) room
      next sym f hn =>
        split
        · simp
        next room' =>
          have hrest := ih hroot hrootBr room'
          split
          · simp
          next e he => rw [he] at hrest; exact hrest

/-- Settles O36: the cursor stays on the branches of the tree. -/
theorem decodeNeverMissesAChild : Obligations.DecodeNeverMissesAChild := by
  intro s t htree h
  obtain ⟨-, rfl⟩ | ⟨-, -, rfl⟩ | ⟨hv, hbr, ⟨-, rfl⟩ | ⟨-, -, ⟨-, rfl⟩ | ⟨-, ⟨out, -, rfl⟩ | ⟨e, he, rfl⟩⟩⟩⟩ :=
    execDecode_next h
  · simp
  · simp
  · simp
  · simp
  · simp
  · obtain ⟨ha, -, hroot, -⟩ := htree.1 hv
    have hlt : s.root.toNat < s.nodes.length := by omega
    rintro rfl
    exact decodeStream_ne_missingChild ha hlt hbr hlt hbr _ _ he

/-! ### The codes of the table are the paths of the tree (41_code_table.md R90, R91) -/

theorem unfoldTree_eq_leaf {nodes : List Node} {depth : Nat} {i : NodeIdx} {sym : Symbol} {f : Word}
    (h : unfoldTree nodes depth i = some (.leaf sym f)) :
    i ≠ Config.nil ∧ arenaAt nodes i.toNat = .leaf sym f := by
  cases depth with
  | zero => simp [unfoldTree] at h
  | succ depth =>
    rw [unfoldTree] at h
    split_ifs at h with hi
    · simp at h
    refine ⟨hi, ?_⟩
    split at h
    next sym' f' hn => simpa [hn] using h
    · split at h <;> simp at h

theorem unfoldTree_eq_branch {nodes : List Node} {depth : Nat} {i : NodeIdx} {f : Word} {tl tr : Tree}
    (h : unfoldTree nodes depth i = some (.branch f tl tr)) :
    i ≠ Config.nil ∧ ∃ l r d, arenaAt nodes i.toNat = .branch f l r ∧ unfoldTree nodes d l = some tl ∧
      unfoldTree nodes d r = some tr := by
  cases depth with
  | zero => simp [unfoldTree] at h
  | succ depth =>
    rw [unfoldTree] at h
    split_ifs at h with hi
    · simp at h
    refine ⟨hi, ?_⟩
    split at h
    · simp at h
    next f' l r hn =>
      split at h
      next tl' tr' hl hr =>
        obtain ⟨rfl, rfl, rfl⟩ : f' = f ∧ tl' = tl ∧ tr' = tr := by simpa using h
        exact ⟨l, r, depth, hn, hl, hr⟩
      · simp at h

theorem leadsTo_nil {nodes : List Node} {i : NodeIdx} {sym : Symbol} {f : Word}
    (h : arenaAt nodes i.toNat = .leaf sym f) : LeadsTo nodes i [] sym := ⟨i, f, rfl, h⟩

theorem LeadsTo.cons {nodes : List Node} {i l r : NodeIdx} {f : Word} (h : arenaAt nodes i.toNat = .branch f l r)
    {b : Bool} (hne : (if b then r else l) ≠ Config.nil) {path : Code} {sym : Symbol}
    (hp : LeadsTo nodes (if b then r else l) path sym) : LeadsTo nodes i (b :: path) sym := by
  obtain ⟨j, f', hwalk, hleaf⟩ := hp
  exact ⟨j, f', (walkPath_cons h b hne path).trans hwalk, hleaf⟩

/-- A code that leads to a leaf goes no further: no longer code leads anywhere. -/
theorem LeadsTo.eq_of_isPrefix {nodes : List Node} {i : NodeIdx} {p q : Code} {sym sym' : Symbol}
    (hp : LeadsTo nodes i p sym) (hq : LeadsTo nodes i q sym') (hpq : p <+: q) : sym = sym' := by
  obtain ⟨j, f, hwalk, hleaf⟩ := hp
  obtain ⟨j', f', hwalk', hleaf'⟩ := hq
  obtain ⟨u, rfl⟩ := hpq
  rw [walkPath_append, hwalk, Option.bind_some] at hwalk'
  obtain rfl : u = [] := by
    by_contra hu
    simp [walkPath_leaf hleaf hu] at hwalk'
  obtain rfl : j = j' := by simpa [walkPath] using hwalk'
  injection hleaf.symm.trans hleaf'

theorem codeOf_recordCode {sym sym' : Symbol} {path p : Code} {w : WorkTable}
    (h : codeOf (recordCode sym path w).1 sym' = some p) :
    codeOf w.1 sym' = some p ∨ sym' = sym ∧ p = path := by
  rw [recordCode] at h
  split at h
  · by_cases hs : sym.toNat = sym'.toNat
    · refine .inr ⟨(BitVec.eq_of_toNat_eq hs).symm, ?_⟩
      simpa [codeOf, Vector.getElem_set, hs, eq_comm] using h
    · exact .inl (by simpa [codeOf, Vector.getElem_set, hs] using h)
  · exact .inl h

/-- Every code a visit adds is the path so far and then a path of the visited tree to a leaf of its symbol. -/
theorem codeOf_visitTree {nodes : List Node} {t : Tree} {depth : Nat} {i : NodeIdx} {path p : Code} {w : WorkTable}
    {sym : Symbol} (ht : unfoldTree nodes depth i = some t) (h : codeOf (visitTree t path w).1 sym = some p) :
    codeOf w.1 sym = some p ∨ i ≠ Config.nil ∧ ∃ q, p = path ++ q ∧ LeadsTo nodes i q sym := by
  induction t generalizing depth i path w with
  | absent => exact .inl h
  | leaf sym' f =>
    obtain ⟨hi, hn⟩ := unfoldTree_eq_leaf ht
    obtain h | ⟨rfl, rfl⟩ := codeOf_recordCode h
    · exact .inl h
    · exact .inr ⟨hi, [], by simp, leadsTo_nil hn⟩
  | branch f tl tr ihl ihr =>
    obtain ⟨hi, l, r, d, hn, hl, hr⟩ := unfoldTree_eq_branch ht
    obtain h | ⟨hne, q, rfl, hq⟩ := ihr hr h
    · obtain h | ⟨hne, q, rfl, hq⟩ := ihl hl h
      · exact .inl h
      · exact .inr ⟨hi, false :: q, by simp, LeadsTo.cons hn (b := false) hne hq⟩
    · exact .inr ⟨hi, true :: q, by simp, LeadsTo.cons hn (b := true) hne hq⟩

/-- Every code of a valid table is the path from ROOT to a leaf of its symbol (41_code_table.md R91). -/
theorem State.TableOk.leadsTo {s : State} (h : s.TableOk) {sym : Symbol} {p : Code} (hp : codeOf s.ct sym = some p) :
    s.treeValid = true ∧ LeadsTo s.nodes s.root p sym := by
  obtain ⟨hvalid, hcleared⟩ := h
  cases hv : s.tableValid with
  | false => simp [codeOf, hcleared hv] at hp
  | true =>
    obtain ⟨htv, htable⟩ := hvalid hv
    obtain ⟨t, ht, htab⟩ := Option.map_eq_some_iff.1 htable
    have hct : s.ct = (tableOf t).1 := by rw [htab]
    rw [hct] at hp
    obtain h0 | ⟨-, q, rfl, hq⟩ := codeOf_visitTree ht hp
    · simp [codeOf] at h0
    · exact ⟨htv, hq⟩

/-- The last entry of a good arena of two or more leaves is a branch. -/
theorem ArenaOk.root_isBranch {nodes : List Node} (ha : ArenaOk nodes) (hleaves : 2 ≤ leafEntries nodes) {root : Nat}
    (hroot : root + 1 = nodes.length) : (arenaAt nodes root).isBranch = true := by
  obtain ⟨-, -, -, -, hcount⟩ := id ha
  obtain ⟨j, hij, hj, f, l, r, -, hbr, -⟩ := ha.parent (i := nodes.length - 2) (by omega)
  obtain rfl : j = root := by omega
  rw [hbr]
  rfl

/-- Settles O21: the codes are paths to leaves, and ROOT is no leaf. -/
theorem codesArePrefixFree : Obligations.CodesArePrefixFree := by
  rintro s ⟨-, htree, htable, -⟩ - hleaves sym sym' p p' hp hp'
  obtain ⟨hv, hlead⟩ := htable.leadsTo hp
  obtain ⟨-, hlead'⟩ := htable.leadsTo hp'
  obtain ⟨ha, -, hroot, hnl⟩ := htree.1 hv
  refine ⟨?_, fun hne hpre => hne (hlead.eq_of_isPrefix hlead' hpre)⟩
  rintro rfl
  obtain ⟨i, f, hwalk, hleaf⟩ := hlead
  obtain rfl : s.root = i := by simpa [walkPath] using hwalk
  have hbr := ha.root_isBranch (by omega) hroot
  simp [hleaf] at hbr

/-! ### No code is longer than 255 (41_code_table.md R90) -/

/-- The branches among the first n entries. -/
def branchesBelow (nodes : List Node) (n : Nat) : Nat := (nodes.take n).countP Node.isBranch

theorem branchesBelow_mono (nodes : List Node) {m n : Nat} (h : m ≤ n) :
    branchesBelow nodes m ≤ branchesBelow nodes n :=
  (List.take_sublist_take_left h).countP_le

theorem branchesBelow_succ {nodes : List Node} {i : Nat} (hi : i < nodes.length)
    (h : (arenaAt nodes i).isBranch = true) : branchesBelow nodes (i + 1) = branchesBelow nodes i + 1 := by
  rw [arenaAt_eq_getElem hi] at h
  rw [branchesBelow, branchesBelow, List.take_succ_eq_append_getElem hi, List.countP_append]
  simp [h]

/-- Every entry is a branch or a leaf. -/
theorem countP_isBranch_add_leafEntries (nodes : List Node) :
    nodes.countP Node.isBranch + leafEntries nodes = nodes.length := by
  induction nodes with
  | nil => rfl
  | cons x nodes ih =>
    cases x with
    | leaf sym f => simp [leafEntries, ← ih, Nat.add_assoc]
    | branch f l r => simp [leafEntries, List.countP_cons, ← ih]; omega

theorem branchesBelow_le (nodes : List Node) (n : Nat) : branchesBelow nodes n + leafEntries nodes ≤ nodes.length := by
  have hle : branchesBelow nodes n ≤ nodes.countP Node.isBranch := (List.take_sublist n nodes).countP_le
  have hall := countP_isBranch_add_leafEntries nodes
  omega

/-- A path passes a new, earlier branch at each move, so it is no longer than there are branches. -/
theorem walkPath_length_le {nodes : List Node} (ha : ArenaOk nodes) {path : Code} {i j : NodeIdx}
    (hi : i.toNat < nodes.length) (h : walkPath nodes i path = some j) :
    path.length ≤ branchesBelow nodes (i.toNat + 1) := by
  induction path generalizing i with
  | nil => simp
  | cons b path ih =>
    cases hn : arenaAt nodes i.toNat with
    | leaf sym f => simp [walkPath_leaf hn] at h
    | branch f l r =>
      obtain ⟨hlt, hne⟩ := ha.child hi hn b
      rw [walkPath_cons hn b hne] at h
      have hrest := ih (hlt.trans hi) h
      have hmono := branchesBelow_mono nodes (Nat.add_one_le_of_lt hlt)
      have hsucc := branchesBelow_succ hi (by rw [hn]; rfl)
      simp only [List.length_cons]
      omega

/-- No code of a valid table is longer than 255 code symbols (41_code_table.md R90). -/
theorem State.Inv.code_length_le {s : State} (hinv : s.Inv) {sym : Symbol} {p : Code}
    (hp : codeOf s.ct sym = some p) : p.length ≤ 255 := by
  obtain ⟨-, htree, htable, -⟩ := hinv
  obtain ⟨hv, j, f, hwalk, -⟩ := htable.leadsTo hp
  obtain ⟨ha, -, hroot, -⟩ := htree.1 hv
  have hlen := walkPath_length_le ha (by omega) hwalk
  have hle := branchesBelow_le s.nodes (s.root.toNat + 1)
  obtain ⟨-, hsize, -, -, hcount⟩ := ha
  simp only [Config.nodeMax] at hsize
  omega

/-! ### The words of the flags (10_state.md R21, R23; 60_exceptions.md R115) -/

/-- Settles O9, row by row of the error table. -/
theorem errorWordsFollowTheTable : Obligations.ErrorWordsFollowTheTable := by
  unfold Obligations.ErrorWordsFollowTheTable
  decide

theorem ErrCode.word_mod (e : ErrCode) : e.word.toNat % 256 = e.code.toNat := by
  have hc := e.code.isLt
  have hk := e.kind.isLt
  rw [ErrCode.word, BitVec.toNat_ofNat]
  omega

/-- STATUS.ERR is whether ERRCODE's low byte is not 0 (10_state.md R21). -/
theorem State.err_eq (s : State) : s.err = decide (s.errcode.word.toNat % 256 ≠ 0) := by
  rw [ErrCode.word_mod, State.err, decide_eq_decide, not_iff_not, ← BitVec.toNat_inj]
  rfl

/-- Flags at different bit positions add up: none of the seven overlaps another. -/
theorem flags_toNat : ∀ b0 b1 b2 b3 b4 b8 b9 : Bool,
    (bitAt b0 0 ||| bitAt b1 1 ||| bitAt b2 2 ||| bitAt b3 3 ||| bitAt b4 4 ||| bitAt b8 8 ||| bitAt b9 9).toNat =
      b0.toNat + 2 * b1.toNat + 4 * b2.toNat + 8 * b3.toNat + 16 * b4.toNat + 256 * b8.toNat + 512 * b9.toNat := by
  decide

/-- Settles O42: the flags' bits do not overlap, so their sum is the word. -/
theorem statusWordShowsTheFlags : Obligations.StatusWordShowsTheFlags := by
  intro s
  rw [State.statusWord, flags_toNat, State.err_eq]

theorem bitAt_zero (b : Bool) : bitAt b 0 = BitVec.ofNat 32 b.toNat := by cases b <;> rfl

/-! ### The address map, window by window (20_memory.md R46) -/

theorem classify_reg {size k : Nat} {off : Offset} (hk : k < 16) (h : off.toNat = 4 * k) :
    classify size .w32 off = some (.reg (Reg.ofIndex k)) := by
  simp [classify, wordAccess, h, show 4 * k < 0x40 by omega]

theorem classify_freq {size : Nat} {sym : Symbol} {off : Offset} (h : off.toNat = 0x400 + 4 * sym.toNat) :
    classify size .w32 off = some (.freq sym) := by
  have hs := sym.isLt
  simp [classify, wordAccess, h, show ¬0x400 + 4 * sym.toNat < 0x40 by omega,
    show 0x400 + 4 * sym.toNat < 0x800 by omega, show (0x400 + 4 * sym.toNat) % 4 = 0 by omega]

theorem classify_node {size i k : Nat} {off : Offset} (hi : i < 511) (hk : k < 4)
    (h : off.toNat = 0x2000 + 16 * i + 4 * k) : classify size .w32 off = some (.node i k) := by
  have h1 : ¬off.toNat < 0x2000 := by omega
  have h2 : off.toNat < 0x3FF0 := by omega
  have h3 : off.toNat % 4 = 0 := by omega
  have h4 : (off.toNat - 0x2000) / 16 = i := by omega
  have h5 : off.toNat % 16 / 4 = k := by omega
  simp [classify, wordAccess, show ¬off.toNat < 0x40 by omega, show ¬off.toNat < 0x400 by omega,
    show ¬off.toNat < 0x800 by omega, h1, h2, h3, h4, h5]

theorem classify_ct {size k : Nat} {sym : Symbol} {off : Offset} (hk : k < 9)
    (h : off.toNat = 0x4000 + 64 * sym.toNat + 4 * k) : classify size .w32 off = some (.ct sym k) := by
  have hs := sym.isLt
  have h1 : ¬off.toNat < 0x4000 := by omega
  have h2 : off.toNat < 0x8000 := by omega
  have h3 : off.toNat % 4 = 0 := by omega
  have h4 : (off.toNat - 0x4000) / 64 = sym.toNat := by omega
  have h5 : off.toNat % 64 / 4 = k := by omega
  have h6 : off.toNat % 64 < 0x24 := by omega
  simp [classify, wordAccess, show ¬off.toNat < 0x40 by omega, show ¬off.toNat < 0x400 by omega,
    show ¬off.toNat < 0x800 by omega, show ¬off.toNat < 0x2000 by omega, show ¬off.toNat < 0x3FF0 by omega,
    h1, h2, h3, h4, h5, h6]

/-! ### What the Host reads (10_state.md R16; 70_reset_and_hazards.md R142) -/

section reads
variable {s : State} {off : Offset} {rest : List HostOp}

/-- A register read that is no draw gives the register's word. -/
theorem hostTurn_readReg (h : s.host = .read .w32 off :: rest) {k : Nat} (hk : k < 16) (hoff : off.toNat = 4 * k)
    (hstable : s.busy = false ∨ (Reg.ofIndex k).drawnBits = 0) {v : Word} (hv : s.regWord (Reg.ofIndex k) = v) :
    hostTurn s = .next { s with host := rest, reads := v :: s.reads } := by
  refine hostTurn_read h (classify_reg hk hoff) ((if_neg ?_).trans (congrArg some hv))
  obtain hb | hd := hstable
  · simp [hb]
  · simp [Reg.drawnWhileBusy, hd]

/-- While BUSY = 1 a read of a register that holds a result gives any value of the register's bits. -/
theorem hostTurn_readReg_drawn (h : s.host = .read .w32 off :: rest) {k : Nat} (hk : k < 16)
    (hoff : off.toNat = 4 * k) (hb : s.busy = true) (hd : (Reg.ofIndex k).drawnBits ≠ 0) :
    ∃ t v, hostTurn s = .next t ∧ t = { s with host := rest, reads := v :: s.reads, draws := t.draws } ∧
      v.toNat < 2 ^ (Reg.ofIndex k).drawnBits := by
  have hnone : s.readTarget .w32 (.reg (Reg.ofIndex k)) = none := if_pos (by simp [hb, Reg.drawnWhileBusy, hd])
  exact ⟨_, _, hostTurn_read_drawn h (classify_reg hk hoff) hnone, rfl, s.drawnWord_lt _ _⟩

theorem hostTurn_readFreq (h : s.host = .read .w32 off :: rest) (hb : s.busy = false) {sym : Symbol}
    (hoff : off.toNat = 0x400 + 4 * sym.toNat) :
    hostTurn s = .next { s with host := rest, reads := s.freq[sym.toNat]'sym.isLt :: s.reads } :=
  hostTurn_read h (classify_freq hoff) (if_neg (by simp [hb]))

/-- An entry of the current tree reads as its words (10_state.md R29). -/
theorem hostTurn_readNode (h : s.host = .read .w32 off :: rest) (hb : s.busy = false) (hv : s.treeValid = true)
    {i k : Nat} (hi : i < s.ncount.toNat) (hi' : i < 511) (hk : k < 4) (hoff : off.toNat = 0x2000 + 16 * i + 4 * k) :
    hostTurn s = .next { s with host := rest, reads := (arenaAt s.nodes i).word k :: s.reads } :=
  hostTurn_read h (classify_node hi' hk hoff) (if_neg (by simp [hb, hv, hi]))

theorem hostTurn_readCt (h : s.host = .read .w32 off :: rest) (hb : s.busy = false) {sym : Symbol} {k : Nat}
    (hk : k < 9) (hoff : off.toNat = 0x4000 + 64 * sym.toNat + 4 * k) :
    hostTurn s = .next { s with host := rest, reads := ctWord (codeOf s.ct sym) k :: s.reads } :=
  hostTurn_read h (classify_ct hk hoff) (if_neg (by simp [hb]))

end reads

/-- Settles O43: every register stands at four times its index. -/
theorem stableRegistersReadWhileBusy : Obligations.StableRegistersReadWhileBusy := by
  intro s off rest h
  refine ⟨fun v hv => ?_, fun hinv hb hoff => ?_, fun v hb hv => ?_, fun bits hb hd => ?_,
    fun sym hb hoff => hostTurn_readFreq h hb hoff⟩
  · simp only [List.mem_cons, Prod.mk.injEq, List.not_mem_nil, or_false] at hv
    obtain ⟨rfl, rfl⟩ | ⟨rfl, rfl⟩ | ⟨rfl, rfl⟩ | ⟨rfl, rfl⟩ | ⟨rfl, rfl⟩ | ⟨rfl, rfl⟩ | ⟨rfl, rfl⟩ | ⟨rfl, rfl⟩ |
      ⟨rfl, rfl⟩ | ⟨rfl, rfl⟩ := hv
    · exact hostTurn_readReg h (k := 0) (by decide) rfl (.inr rfl) rfl
    · exact hostTurn_readReg h (k := 1) (by decide) rfl (.inr rfl) rfl
    · exact hostTurn_readReg h (k := 2) (by decide) rfl (.inr rfl) (bitAt_zero _)
    · exact hostTurn_readReg h (k := 3) (by decide) rfl (.inr rfl) rfl
    · exact hostTurn_readReg h (k := 4) (by decide) rfl (.inr rfl) rfl
    · exact hostTurn_readReg h (k := 6) (by decide) rfl (.inr rfl) rfl
    · exact hostTurn_readReg h (k := 7) (by decide) rfl (.inr rfl) rfl
    · exact hostTurn_readReg h (k := 8) (by decide) rfl (.inr rfl) rfl
    · exact hostTurn_readReg h (k := 9) (by decide) rfl (.inr rfl) rfl
    · exact hostTurn_readReg h (k := 12) (by decide) rfl (.inr rfl) rfl
  · obtain ⟨-, -, -, hhand, -⟩ := hinv
    obtain ⟨-, herr, -⟩ := hhand hb
    subst hoff
    exact hostTurn_readReg h (k := 5) (by decide) rfl (.inr rfl) (show s.errcode.word = 0 by rw [herr]; rfl)
  · simp only [List.mem_cons, Prod.mk.injEq, List.not_mem_nil, or_false] at hv
    obtain ⟨rfl, rfl⟩ | ⟨rfl, rfl⟩ | ⟨rfl, rfl⟩ | ⟨rfl, rfl⟩ | ⟨rfl, rfl⟩ | ⟨rfl, rfl⟩ := hv
    · exact hostTurn_readReg h (k := 5) (by decide) rfl (.inl hb) rfl
    · exact hostTurn_readReg h (k := 10) (by decide) rfl (.inl hb) rfl
    · exact hostTurn_readReg h (k := 11) (by decide) rfl (.inl hb) (bitAt_zero _)
    · exact hostTurn_readReg h (k := 13) (by decide) rfl (.inl hb) (BitVec.ofNat_toNat 32 s.root).symm
    · exact hostTurn_readReg h (k := 14) (by decide) rfl (.inl hb) (BitVec.ofNat_toNat 32 s.ncount).symm
    · exact hostTurn_readReg h (k := 15) (by decide) rfl (.inl hb) (BitVec.ofNat_toNat 32 s.nleaves).symm
  · simp only [List.mem_cons, Prod.mk.injEq, List.not_mem_nil, or_false] at hd
    obtain ⟨rfl, rfl⟩ | ⟨rfl, rfl⟩ | ⟨rfl, rfl⟩ | ⟨rfl, rfl⟩ | ⟨rfl, rfl⟩ := hd
    · exact hostTurn_readReg_drawn h (k := 10) (by decide) rfl hb (by decide)
    · exact hostTurn_readReg_drawn h (k := 11) (by decide) rfl hb (by decide)
    · exact hostTurn_readReg_drawn h (k := 13) (by decide) rfl hb (by decide)
    · exact hostTurn_readReg_drawn h (k := 14) (by decide) rfl hb (by decide)
    · exact hostTurn_readReg_drawn h (k := 15) (by decide) rfl hb (by decide)

/-- INFO holds kind in bit 0 and sym in bits [15:8] (10_state.md R29). -/
theorem infoWord_toNat (n : Node) : n.infoWord.toNat = n.isBranch.toNat + 256 * n.sym.toNat := by
  have hs := n.sym.isLt
  have hb := n.isBranch.toNat_lt
  rw [Node.infoWord, BitVec.toNat_ofNat]
  omega

/-- Settles O52: word k of NODE[i] stands at 0x2000 + 16*i + 4*k. -/
theorem arenaReadsShowTheNodes : Obligations.ArenaReadsShowTheNodes := by
  intro s i off rest hb hv hi hi' h
  refine ⟨fun hoff => ⟨_, hostTurn_readNode h hb hv hi hi' (k := 0) (by decide) (by omega), infoWord_toNat _⟩,
    fun hoff => ?_, fun hoff => ?_, fun hoff => ?_⟩
  · exact hostTurn_readNode h hb hv hi hi' (k := 1) (by decide) (by omega)
  · exact hostTurn_readNode h hb hv hi hi' (k := 2) (by decide) (by omega)
  · exact hostTurn_readNode h hb hv hi hi' (k := 3) (by decide) (by omega)

theorem ctWord_none (k : Nat) : ctWord none k = 0 := by cases k <;> rfl

/-- Bit i of BITS_w is code symbol 32*w + i (10_state.md R32). -/
theorem ctBitsWord_getLsbD (code : Code) (w : Nat) {i : Nat} (hi : i < 32) :
    (ctBitsWord (some code) w).getLsbD i = code.getD (32 * w + i) false := by
  rw [ctBitsWord, BitVec.getLsbD_ofNat, Nat.testBit_div_two_pow, codeBits_testBit, Nat.add_comm i]
  simp [hi]

/-- Settles O53: word k of CT[s] stands at 0x4000 + 64*s + 4*k. -/
theorem codeTableReadsShowTheCodes : Obligations.CodeTableReadsShowTheCodes := by
  intro s sym off rest hinv hb h
  refine ⟨fun hnone k hk hoff => ?_, fun path hpath => ?_⟩
  · rw [hostTurn_readCt h hb hk hoff, hnone, ctWord_none]
  · have hlen : path.length ≤ 255 := hinv.code_length_le hpath
    refine ⟨hlen, fun hoff => ?_, fun w hw hoff => ⟨_, hostTurn_readCt h hb (by omega) hoff, fun i hi => ?_⟩⟩
    · rw [hostTurn_readCt h hb (k := 0) (by decide) (by omega), hpath, ctWord, ctInfoWord, Nat.mod_eq_of_lt (by omega)]
    · rw [hpath, ctWord, ctBitsWord_getLsbD path w hi]

/-- Settles O51: the registers one by one, and no frequency and no code at reset. -/
theorem registersReadTheirResetValues : Obligations.RegistersReadTheirResetValues := by
  refine ⟨by decide, fun sym => ?_, fun sym k => ?_, rfl⟩
  · simp [State.readTarget, State.reset]
  · simp [State.readTarget, State.reset, ctWord_none]

/-! ### What the Host writes while the block is idle (10_state.md R16, R25 to R27) -/

theorem hostTurn_write {s : State} {w : Width} {off : Offset} {v : Word} {rest : List HostOp} {tgt : Target}
    (h : s.host = .write w off v :: rest) (hc : classify s.lmemSize w off = some tgt) :
    hostTurn s = .next ({ s with host := rest }.hostWrite w v tgt) := by
  simp [hostTurn, h, hc]

theorem State.whenIdle_of_idle {s : State} (hb : s.busy = false) (written : State) : s.whenIdle written = written :=
  if_neg (by simp [hb])

/-- A write that the block takes only while idle gives its state when the block is idle. -/
theorem hostTurn_write_idle {s u : State} {w : Width} {off : Offset} {v : Word} {rest : List HostOp} {tgt : Target}
    (hb : s.busy = false) (h : s.host = .write w off v :: rest) (hc : classify s.lmemSize w off = some tgt)
    (hu : ({ s with host := rest } : State).hostWrite w v tgt = State.whenIdle { s with host := rest } u) :
    hostTurn s = .next u :=
  (hostTurn_write h hc).trans (congrArg _ (hu.trans (State.whenIdle_of_idle (s := { s with host := rest }) hb u)))

/-- The low byte of a MARKERS write, LIT (10_state.md R26). -/
theorem extractLsb'_zero_eight (v : Word) : v.extractLsb' 0 8 = BitVec.ofNat 8 v.toNat := rfl

/-- The second byte of a MARKERS write, BR (10_state.md R26). -/
theorem extractLsb'_eight_eight (v : Word) : v.extractLsb' 8 8 = BitVec.ofNat 8 (v.toNat / 256) := by
  rw [BitVec.extractLsb', Nat.shiftRight_eq_div_pow]

/-- Settles O47: an idle block takes the write that its offset selects. -/
theorem idleWritesStoreTheValue : Obligations.IdleWritesStoreTheValue := by
  intro s v sym off rest hb h
  refine ⟨?_, ?_, ?_, ?_, ?_,
    fun hoff => ⟨_, hostTurn_write_idle hb h (classify_freq hoff) rfl, rfl, ?_, fun sym' hne => ?_⟩⟩
  · rintro rfl
    exact hostTurn_write_idle hb h (classify_reg (k := 6) (by decide) rfl) rfl
  · rintro rfl
    exact hostTurn_write_idle hb h (classify_reg (k := 7) (by decide) rfl) rfl
  · rintro rfl
    exact hostTurn_write_idle hb h (classify_reg (k := 8) (by decide) rfl) rfl
  · rintro rfl
    exact hostTurn_write_idle hb h (classify_reg (k := 9) (by decide) rfl) rfl
  · rintro rfl
    rw [← extractLsb'_zero_eight, ← extractLsb'_eight_eight]
    exact hostTurn_write_idle hb h (classify_reg (k := 12) (by decide) rfl) rfl
  · exact Vector.getElem_set_self sym.isLt
  · exact Vector.getElem_set_ne sym.isLt sym'.isLt fun he => hne (BitVec.eq_of_toNat_eq he.symm)

end Sys2Proof.Machine
end

section
/-! PROOFS, family 20_memory. What the commands leave unchanged and the checks they make of their windows (20_memory.md
R54 to R56), the address map (R46 to R49), and the Host's accesses of LMEM (R51 to R53). -/

namespace Sys2Proof.Machine

/-! ### What the commands that store nothing leave unchanged (20_memory.md R55) -/

/-- BUILD, TEARDOWN and DESERIALIZE write the fields of the current tree and of the code table only. -/
theorem exec_treeCommand_frame {i : Instr} {s t : State} (hi : i = .build ∨ i = .teardown ∨ i = .deserialize)
    (h : exec i s = .next t) :
    t = { s with
      nodes := t.nodes, root := t.root, ncount := t.ncount, nleaves := t.nleaves, treeValid := t.treeValid,
      tableValid := t.tableValid, ct := t.ct, errcode := t.errcode, busy := false, done := true } := by
  obtain rfl | rfl | rfl := hi
  · obtain ⟨-, rfl⟩ | ⟨-, -, rfl⟩ | ⟨-, -, rfl⟩ := execBuild_next h <;> rfl
  · obtain rfl := execTeardown_next h
    rfl
  · obtain ⟨-, rfl⟩ | ⟨-, ⟨-, rfl⟩ | ⟨-, ⟨e, -, rfl⟩ | ⟨c, -, rfl⟩⟩⟩ := execDeserialize_next h <;> rfl

theorem execNodecmp_frame {a b : Nat} {s t : State} (h : execNodecmp a b s = .next t) :
    t = { s with result := t.result, errcode := t.errcode, busy := false, done := true } := by
  obtain ⟨-, rfl⟩ | ⟨-, -, rfl⟩ | ⟨-, -, -, rfl⟩ := execNodecmp_next h <;> rfl

theorem execGencodes_frame {s t : State} (h : execGencodes s = .next t) :
    t = { s with
      ct := t.ct, tableValid := t.tableValid, errcode := t.errcode, busy := false, done := true } := by
  obtain ⟨-, rfl⟩ | ⟨-, tree, -, ⟨-, rfl⟩ | ⟨-, rfl⟩⟩ := execGencodes_next h <;> rfl

/-- Settles O38: each frame leaves LMEM and its unlisted bytes alone. -/
theorem registerOnlyCommandsFrame : Obligations.RegisterOnlyCommandsFrame := by
  refine fun i s t h => ⟨?_, fun hi => ?_, ?_, ?_⟩
  · rintro rfl
    obtain rfl := execClrfreq_next h
    exact ⟨rfl, fun a => rfl⟩
  · have hframe := exec_treeCommand_frame hi h
    exact ⟨hframe, fun a => by rw [hframe]; rfl⟩
  · rintro ⟨a, b, rfl⟩
    have hframe := execNodecmp_frame h
    exact ⟨hframe, fun a => by rw [hframe]; rfl⟩
  · rintro rfl
    have hframe := execGencodes_frame h
    exact ⟨hframe, fun a => by rw [hframe]; rfl⟩

/-! ### What the commands that store to LMEM leave unchanged (20_memory.md R54, R55; 60_exceptions.md R119) -/

/-- Everything ENCODE, DECODE and SERIALIZE can do: a check refuses the command, the scan havocks the destination window
and ends in an error, or the output is stored. -/
inductive StoreEffect (s : State) (i : Instr) (t : State) : Prop where
  | refuses (e : ErrCode) (he : e ≠ .ok) (ht : t = s.finish e)
  | fails (e : ErrCode) (fatal : Bool) (he : e ≠ .ok)
      (hfatal : fatal = s.fatal ∨ i = .encode ∧ e = .lookupMiss)
      (ht : t = { s.havocDst with fatal := fatal }.finish e)
  | stores (out : List Byte) (hfits : out.length ≤ s.dcap.toNat) (ht : t = (s.putOutput out).finish .ok)

theorem execEncode_store {s t : State} (h : execEncode s = .next t) : StoreEffect s .encode t := by
  obtain ⟨-, ht⟩ | ⟨-, -, ht⟩ | ⟨-, -, -, ⟨-, ht⟩ | ⟨-, ⟨out, hout, ht⟩ | ⟨e, he, ht⟩⟩⟩ := execEncode_next h
  · exact .refuses _ (by decide) ht
  · exact .refuses _ (by decide) ht
  · exact .refuses _ (by decide) ht
  · exact .stores out (encodeStream_length hout) ht
  · obtain rfl | rfl := encodeStream_error he
    · exact .fails _ _ (by decide) (.inr ⟨rfl, rfl⟩) ht
    · exact .fails _ _ (by decide) (.inl (Bool.or_false _)) ht

theorem execDecode_store {s t : State} (h : execDecode s = .next t) : StoreEffect s .decode t := by
  obtain ⟨-, ht⟩ | ⟨-, -, ht⟩ | ⟨-, -, ⟨-, ht⟩ | ⟨-, -, ⟨-, ht⟩ | ⟨-, ⟨out, hout, ht⟩ | ⟨e, he, ht⟩⟩⟩⟩ :=
    execDecode_next h
  · exact .refuses _ (by decide) ht
  · exact .refuses _ (by decide) ht
  · exact .refuses _ (by decide) ht
  · exact .refuses _ (by decide) ht
  · exact .stores out (decodeStream_length hout) ht
  · have hne : e ≠ .ok := by rcases decodeStream_error he with rfl | rfl | rfl | rfl <;> decide
    exact .fails e s.fatal hne (.inl rfl) ht

theorem execSerialize_store {s t : State} (h : execSerialize s = .next t) : StoreEffect s .serialize t := by
  obtain ⟨-, ht⟩ | ⟨-, -, ht⟩ | ⟨-, -, ⟨-, ht⟩ | ⟨-, out, -, ⟨-, ht⟩ | ⟨hfits, ht⟩⟩⟩ := execSerialize_next h
  · exact .refuses _ (by decide) ht
  · exact .refuses _ (by decide) ht
  · exact .refuses _ (by decide) ht
  · exact .fails _ s.fatal (by decide) (.inl rfl) ht
  · exact .stores out hfits ht

theorem exec_store {i : Instr} {s t : State} (hi : i = .encode ∨ i = .decode ∨ i = .serialize)
    (h : exec i s = .next t) : StoreEffect s i t := by
  obtain rfl | rfl | rfl := hi
  · exact execEncode_store h
  · exact execDecode_store h
  · exact execSerialize_store h

/-- RLEN holds the length of an output that fits DCAP (20_memory.md R54). -/
theorem State.putOutput_rlen_toNat (s : State) {out : List Byte} (hfits : out.length ≤ s.dcap.toNat) :
    (s.putOutput out).rlen.toNat = out.length :=
  (BitVec.toNat_ofNat _ _).trans (Nat.mod_eq_of_lt (Nat.lt_of_le_of_lt hfits s.dcap.isLt))

/-- Settles O39, one case for each effect of a storing command. -/
theorem storingCommandsFrame : Obligations.StoringCommandsFrame := by
  intro i s t hi h
  cases exec_store hi h with
  | refuses e he ht =>
    subst ht
    exact ⟨rfl, fun hf => absurd rfl hf, fun hok => absurd hok he, fun _ => ⟨rfl, fun _ _ => rfl⟩⟩
  | fails e fatal he hfatal ht =>
    subst ht
    refine ⟨rfl, fun hf => ?_, fun hok => absurd hok he, fun _ => ⟨rfl, fun a ha => s.readByte_havocDst_outside ha⟩⟩
    exact hfatal.resolve_left hf
  | stores out hfits ht =>
    subst ht
    refine ⟨rfl, fun hf => absurd rfl hf, fun _ a ha => ?_, fun hne => absurd rfl hne⟩
    rw [State.finish_rlen, s.putOutput_rlen_toNat hfits] at ha
    exact s.readByte_putOutput_outside ha

/-! ### The address map (20_memory.md R46 to R49) -/

theorem wordAccess_iff {w : Width} {o : Nat} : wordAccess w o = true ↔ w = .w32 ∧ o % 4 = 0 := by
  simp [wordAccess]

/-- An access of LMEM is aligned to its own width (20_memory.md R48). -/
theorem Width.aligned_iff {w : Width} {o : Nat} :
    o % w.bytes = 0 ↔ w = .w8 ∨ w = .w16 ∧ o % 2 = 0 ∨ w = .w32 ∧ o % 4 = 0 := by
  cases w <;> simp [Width.bytes, Nat.mod_one]

/-- The offset lies in a window of words: the registers, FREQ, NODE or the nine words of a CT entry
(20_memory.md R46). -/
def InWordWindow (o : Nat) : Prop :=
  o < 0x40 ∨ (0x400 ≤ o ∧ o < 0x800) ∨ (0x2000 ≤ o ∧ o < 0x3FF0) ∨ (0x4000 ≤ o ∧ o < 0x8000 ∧ o % 64 < 0x24)

/-- The map refuses everything but word accesses of the word windows and aligned accesses that start in LMEM. The map's
tests rise with the offset, so the first bound above it decides; in a word window the kind of access does the rest. -/
theorem classify_eq_none_iff {size : Nat} {w : Width} {off : Offset} :
    classify size w off = none ↔
      ¬((InWordWindow off.toNat ∧ wordAccess w off.toNat = true) ∨
        (0x10000 ≤ off.toNat ∧ off.toNat < 0x10000 + size ∧ off.toNat % w.bytes = 0)) := by
  rw [classify, InWordWindow]
  generalize off.toNat = o
  by_cases hword : wordAccess w o = true
  · grind
  · grind

theorem hostTurn_read_busError_iff {s : State} {w : Width} {off : Offset} {rest : List HostOp}
    (h : s.host = .read w off :: rest) : hostTurn s = .fault .busError ↔ classify s.lmemSize w off = none := by
  cases hc : classify s.lmemSize w off <;> simp [hostTurn, h, hc]

theorem hostTurn_write_busError_iff {s : State} {w : Width} {off : Offset} {v : Word} {rest : List HostOp}
    (h : s.host = .write w off v :: rest) : hostTurn s = .fault .busError ↔ classify s.lmemSize w off = none := by
  cases hc : classify s.lmemSize w off <;> simp [hostTurn, h, hc]

/-- Settles O40: a bus error is what the map refuses, with R47's and R48's alignment written out. -/
theorem accessesOutsideTheMapAreBusErrors : Obligations.AccessesOutsideTheMapAreBusErrors := by
  intro s w off v rest
  have hmap := classify_eq_none_iff (size := s.lmemSize) (w := w) (off := off)
  rw [wordAccess_iff, Width.aligned_iff] at hmap
  exact ⟨fun h => (hostTurn_read_busError_iff h).trans hmap, fun h => (hostTurn_write_busError_iff h).trans hmap⟩

/-- An aligned access that starts in LMEM reaches it (20_memory.md R46, R48). -/
theorem classify_of_lmem {size a : Nat} {w : Width} {off : Offset} (ha : a < size) (halign : a % w.bytes = 0)
    (hoff : off.toNat = 0x10000 + a) : classify size w off = some (.lmem a) := by
  have hw : (0x10000 + a) % w.bytes = 0 := by
    cases w <;> simp only [Width.bytes] at halign ⊢ <;> omega
  simp [classify, hoff, hw, ha, show ¬0x10000 + a < 0x40 by omega, show ¬0x10000 + a < 0x400 by omega,
    show ¬0x10000 + a < 0x800 by omega, show ¬0x10000 + a < 0x2000 by omega, show ¬0x10000 + a < 0x3FF0 by omega,
    show ¬0x10000 + a < 0x4000 by omega, show ¬0x10000 + a < 0x8000 by omega]

/-! ### The Host's accesses of LMEM are little-endian (20_memory.md R52, R53) -/

/-- Byte i of a little-endian value is the byte at address i. -/
theorem leValue_byte {vs : List Byte} {i : Nat} (hi : i < vs.length) :
    vs[i] = BitVec.ofNat 8 (leValue vs / 256 ^ i) := by
  induction vs generalizing i with
  | nil => exact absurd hi (Nat.not_lt_zero i)
  | cons v vs ih =>
    have hv := v.isLt
    cases i with
    | zero =>
      refine BitVec.eq_of_toNat_eq ?_
      simp only [leValue, List.getElem_cons_zero, Nat.pow_zero, Nat.div_one, BitVec.toNat_ofNat]
      omega
    | succ i =>
      rw [Nat.pow_succ', ← Nat.div_div_eq_div_mul, leValue,
        show (v.toNat + 256 * leValue vs) / 256 = leValue vs by omega]
      exact ih (Nat.lt_of_succ_lt_succ hi)

/-- The byte at address i of a value's bytes is byte i of the value. -/
theorem leBytes_getElem {n v i : Nat} (hi : i < (leBytes n v).length) :
    (leBytes n v)[i] = BitVec.ofNat 8 (v / 256 ^ i) := by
  induction n generalizing v i with
  | zero => exact absurd hi (Nat.not_lt_zero i)
  | succ n ih =>
    cases i with
    | zero => simp [leBytes]
    | succ i =>
      rw [Nat.pow_succ', ← Nat.div_div_eq_div_mul]
      exact ih (Nat.lt_of_succ_lt_succ hi)

/-- A read of at most a word loses no byte. -/
theorem State.memRead_toNat (s : State) (a : Nat) (w : Width) :
    (s.memRead a w.bytes).toNat = leValue (s.readBytes a w.bytes) := by
  have hlt := leValue_lt (s.readBytes a w.bytes)
  rw [State.readBytes_length] at hlt
  rw [State.memRead, BitVec.toNat_ofNat]
  refine Nat.mod_eq_of_lt (Nat.lt_of_lt_of_le hlt ?_)
  cases w <;> decide

theorem State.memRead_lt (s : State) (a : Nat) (w : Width) : (s.memRead a w.bytes).toNat < 256 ^ w.bytes := by
  rw [State.memRead_toNat]
  simpa using leValue_lt (s.readBytes a w.bytes)

theorem State.readByte_of_memRead (s : State) (a : Nat) (w : Width) {i : Nat} (hi : i < w.bytes) :
    s.readByte (a + i) = BitVec.ofNat 8 ((s.memRead a w.bytes).toNat / 256 ^ i) := by
  have hlen : i < (s.readBytes a w.bytes).length := by simpa using hi
  rw [State.memRead_toNat, ← leValue_byte hlen, ← Option.some_inj, ← List.getElem?_eq_getElem hlen,
    State.readBytes_getElem?, if_pos hi]

theorem State.readByte_memWrite_inside (s : State) {a n i : Nat} (v : Word) (hi : i < n) :
    (s.memWrite a n v).readByte (a + i) = BitVec.ofNat 8 (v.toNat / 256 ^ i) := by
  have hlen : i < (leBytes n v.toNat).length := by simpa using hi
  exact (s.readByte_writeBytes_inside hlen).trans (leBytes_getElem hlen)

theorem State.readByte_memWrite_outside (s : State) {a n b : Nat} (v : Word) (hb : ¬(a ≤ b ∧ b < a + n)) :
    (s.memWrite a n v).readByte b = s.readByte b :=
  s.readByte_writeBytes_outside (by simpa using hb)

/-- Settles O44: the access reaches LMEM, and an idle block reads or writes the bytes of the bus value there. -/
theorem lmemAccessesAreLittleEndian : Obligations.LmemAccessesAreLittleEndian := by
  intro s w a off v rest hb hoff ha halign
  have hc := classify_of_lmem ha halign hoff
  refine ⟨fun h => ?_, fun h => ?_⟩
  · have hread : s.readTarget w (.lmem a) = some (s.memRead a w.bytes) := if_neg (by simp [hb])
    exact ⟨_, hostTurn_read h hc hread, s.memRead_lt a w, fun i hi => s.readByte_of_memRead a w hi⟩
  · exact ⟨_, hostTurn_write_idle hb h hc rfl, rfl,
      fun i hi => State.readByte_memWrite_inside { s with host := rest } v hi,
      fun b hout => State.readByte_memWrite_outside { s with host := rest } v hout⟩

/-! ### A read changes nothing of the block (20_memory.md R51, R53) -/

/-- A permitted read adds one word to what the Host has read. -/
theorem State.hostRead_reads (s : State) (w : Width) (tgt : Target) :
    ∃ v, (s.hostRead w tgt).reads = v :: s.reads := by
  rw [State.hostRead]
  split
  next v _ => exact ⟨v, rfl⟩
  · exact ⟨_, rfl⟩

/-- Settles O41: a read that completes is a permitted one. -/
theorem readsHaveNoSideEffect : Obligations.ReadsHaveNoSideEffect := by
  intro s t w off rest h ht
  cases hc : classify s.lmemSize w off with
  | none => simp [hostTurn, h, hc] at ht
  | some tgt =>
    obtain rfl : ({ s with host := rest } : State).hostRead w tgt = t := by simpa [hostTurn, h, hc] using ht
    exact ⟨State.hostRead_eq { s with host := rest } w tgt, State.hostRead_reads { s with host := rest } w tgt⟩

/-! ### The checks of ENCODE and DECODE (20_memory.md R55, R56; 42_compressor.md R95; 44_decompressor.md R110) -/

/-- The windows are refused unless both lie in LMEM (20_memory.md R55). -/
theorem State.windowsRefused_iff (s : State) : s.srcOk = false ∨ s.dstOk = false ↔
    ¬(s.src.toNat + s.slen.toNat ≤ s.lmemSize ∧ s.dst.toNat + s.dcap.toNat ≤ s.lmemSize) := by
  rw [not_and_or, State.srcOk, State.dstOk, decide_eq_false_iff_not, decide_eq_false_iff_not]

/-- The two windows share a byte: neither is empty and each starts before the other ends (20_memory.md R56). -/
theorem State.overlaps_iff (s : State) : s.overlaps = true ↔
    s.slen ≠ 0 ∧ s.dcap ≠ 0 ∧ s.src.toNat < s.dst.toNat + s.dcap.toNat ∧
      s.dst.toNat < s.src.toNat + s.slen.toNat := by
  simp [State.overlaps, ← BitVec.toNat_inj, and_assoc]

section encode
variable {s : State}

theorem execEncode_noCodes (h : s.tableValid = false) : execEncode s = raiseError .noCodes s := if_pos h

theorem execEncode_bounds (hv : s.tableValid = true) (h : s.srcOk = false ∨ s.dstOk = false) :
    execEncode s = raiseError .bounds s := by
  rw [execEncode, if_neg (by simp [hv]), if_pos h]

theorem execEncode_overlap (hv : s.tableValid = true) (hok : ¬(s.srcOk = false ∨ s.dstOk = false))
    (h : s.overlaps = true) : execEncode s = raiseError .overlap s := by
  rw [execEncode, if_neg (by simp [hv]), if_neg hok, if_pos h]

end encode

/-- Settles O23, one clause for each check; an error a check raises is the end of the command alone. -/
theorem encodeChecksComeFirst : Obligations.EncodeChecksComeFirst := by
  intro s
  refine ⟨fun h => execEncode_noCodes h, fun hv hout => execEncode_bounds hv (s.windowsRefused_iff.2 hout),
    fun hv hin hover => execEncode_overlap hv (mt s.windowsRefused_iff.1 (not_not.2 hin)) (s.overlaps_iff.2 hover)⟩

section decode
variable {s : State}

theorem execDecode_noTree (h : s.treeValid = false) : execDecode s = raiseError .noTree s := if_pos h

theorem execDecode_singleLeaf (hv : s.treeValid = true) (h : (s.nodeAt s.root.toNat).isBranch = false) :
    execDecode s = raiseError .singleLeaf s := by
  rw [execDecode, if_neg (by simp [hv]), if_pos h]

theorem execDecode_bounds (hv : s.treeValid = true) (hroot : ¬(s.nodeAt s.root.toNat).isBranch = false)
    (h : s.srcOk = false ∨ s.dstOk = false) : execDecode s = raiseError .bounds s := by
  rw [execDecode, if_neg (by simp [hv]), if_neg hroot, if_pos h]

theorem execDecode_overlap (hv : s.treeValid = true) (hroot : ¬(s.nodeAt s.root.toNat).isBranch = false)
    (hok : ¬(s.srcOk = false ∨ s.dstOk = false)) (h : s.overlaps = true) :
    execDecode s = raiseError .overlap s := by
  rw [execDecode, if_neg (by simp [hv]), if_neg hroot, if_neg hok, if_pos h]

end decode

/-- Settles O33, one clause for each check, the root's before the windows'. -/
theorem decodeChecksComeFirst : Obligations.DecodeChecksComeFirst := by
  intro s
  refine ⟨fun h => execDecode_noTree h, fun hv hleaf => execDecode_singleLeaf hv hleaf,
    fun hv hroot hout => execDecode_bounds hv hroot (s.windowsRefused_iff.2 hout),
    fun hv hroot hin hover =>
      execDecode_overlap hv hroot (mt s.windowsRefused_iff.1 (not_not.2 hin)) (s.overlaps_iff.2 hover)⟩

end Sys2Proof.Machine
end

section
/-! PROOFS, family 30_encoding. The decoder of command words (30_encoding.md R74): the fields of a word (R63), the rows
of the opcode map that can select it (R65), and the words that none selects (R64, R66, R67). -/

namespace Sys2Proof

open Laws

/-! ### The fields of a word (30_encoding.md R63) -/

theorem opcField_toNat (w : Word) : (opcField w).toNat = w.toNat % 256 := by
  rw [opcField, BitVec.extractLsb'_toNat, Nat.shiftRight_zero]

theorem aField_eq (w : Word) : aField w = w.toNat / 2 ^ 8 % 2 ^ 9 := by
  rw [aField, BitVec.extractLsb'_toNat, Nat.shiftRight_eq_div_pow]

theorem bField_eq (w : Word) : bField w = w.toNat / 2 ^ 17 % 2 ^ 9 := by
  rw [bField, BitVec.extractLsb'_toNat, Nat.shiftRight_eq_div_pow]

theorem opcField_eq_iff (w : Word) (opc : Byte) : opcField w = opc ↔ w.toNat % 256 = opc.toNat := by
  rw [← BitVec.toNat_inj, opcField_toNat]

/-- A word whose bits [31:26] are 0 is put together from its fields as in 30_encoding.md R72. -/
theorem toNat_eq_of_fields {w : Word} (h : w.toNat < 2 ^ 26) :
    w.toNat = (opcField w).toNat + 2 ^ 8 * aField w + 2 ^ 17 * bField w := by
  rw [opcField_toNat, aField_eq, bField_eq]
  omega

theorem instrOf_wellFormed (w : Word) : ∀ m : Mnemonic, (instrOf w m).WellFormed
  | .nodecmp => ⟨BitVec.isLt _, BitVec.isLt _⟩
  | .clrfreq | .build | .teardown | .gencodes | .encode | .decode | .serialize | .deserialize => trivial

/-! ### What a row that selects a word says of it (30_encoding.md R65) -/

theorem selects_iff (row : Row) (w : Word) : row.selects w = true ↔ w &&& row.mask = row.pattern := by
  rw [Row.selects, decide_eq_true_iff]

/-- Where a row's mask is all ones, the word it selects has the pattern's bits. -/
theorem extractLsb'_of_selects {row : Row} {w : Word} {i n : Nat} (hs : row.selects w = true)
    (hm : row.mask.extractLsb' i n = BitVec.allOnes n) : w.extractLsb' i n = row.pattern.extractLsb' i n := by
  rw [← (selects_iff row w).1 hs, BitVec.extractLsb'_and, hm, BitVec.and_allOnes]

theorem mask_opcode : ∀ row ∈ opcodeTable, row.mask.extractLsb' 0 8 = BitVec.allOnes 8 := by decide

theorem opcField_of_selects {row : Row} {w : Word} (hrow : row ∈ opcodeTable) (hs : row.selects w = true) :
    opcField row.pattern = opcField w :=
  (extractLsb'_of_selects hs (mask_opcode row hrow)).symm

/-- NODECMP's row of the opcode map, the one row whose mask is not all ones. -/
def nodecmpRow : Row := ⟨.nodecmp, 0x00000004, 0xFC0000FF⟩

theorem nodecmpRow_mem : nodecmpRow ∈ opcodeTable := by decide

theorem eq_nodecmpRow : ∀ row ∈ opcodeTable, row.mnemonic = .nodecmp → row = nodecmpRow := by decide

theorem mask_of_ne_nodecmp : ∀ row ∈ opcodeTable, row.mnemonic ≠ .nodecmp → row.mask = 0xFFFFFFFF := by decide

theorem eq_pattern_of_selects {row : Row} {w : Word} (hrow : row ∈ opcodeTable) (hm : row.mnemonic ≠ .nodecmp)
    (hs : row.selects w = true) : w = row.pattern := by
  rw [← (selects_iff row w).1 hs, mask_of_ne_nodecmp row hrow hm]
  exact (full_mask w).symm

theorem pattern_lt : ∀ row ∈ opcodeTable, row.pattern.toNat < 2 ^ 8 := by decide

theorem toNat_lt_of_selects {row : Row} {w : Word} (hrow : row ∈ opcodeTable) (hm : row.mnemonic ≠ .nodecmp)
    (hs : row.selects w = true) : w.toNat < 2 ^ 8 := by
  rw [eq_pattern_of_selects hrow hm hs]
  exact pattern_lt row hrow

theorem encode_instrOf_pattern :
    ∀ row ∈ opcodeTable, row.mnemonic ≠ .nodecmp → encode (instrOf row.pattern row.mnemonic) = row.pattern := by
  decide

theorem opcField_of_selects_nodecmp {row : Row} {w : Word} (hrow : row ∈ opcodeTable) (hm : row.mnemonic = .nodecmp)
    (hs : row.selects w = true) : opcField w = 0x04 := by
  rw [← opcField_of_selects hrow hs, eq_nodecmpRow row hrow hm]
  rfl

theorem toNat_lt_of_selects_nodecmp {row : Row} {w : Word} (hrow : row ∈ opcodeTable) (hm : row.mnemonic = .nodecmp)
    (hs : row.selects w = true) : w.toNat < 2 ^ 26 := by
  obtain rfl := eq_nodecmpRow row hrow hm
  have htop : w.extractLsb' 26 6 = 0#6 := extractLsb'_of_selects hs (by decide)
  have hdiv : w.toNat / 2 ^ 26 % 2 ^ 6 = 0 := by
    rw [← Nat.shiftRight_eq_div_pow, ← BitVec.extractLsb'_toNat, htop]
    rfl
  have hw := w.isLt
  omega

/-- A word of NODECMP's form is the word of NODECMP with its own fields A and B. -/
theorem encode_nodecmp_fields {w : Word} (hopc : opcField w = 0x04) (htop : w.toNat < 2 ^ 26) :
    encode (.nodecmp (aField w) (bField w)) = w := by
  have ha : aField w < 512 := BitVec.isLt _
  have hb : bField w < 512 := BitVec.isLt _
  have hlt : (encode (.nodecmp (aField w) (bField w))).toNat < 2 ^ 26 :=
    toNat_lt_of_selects_nodecmp nodecmpRow_mem rfl ((selects_iff nodecmpRow _).2 (nodecmp_row ha hb))
  apply BitVec.eq_of_toNat_eq
  rw [toNat_eq_of_fields hlt, toNat_eq_of_fields htop, nodecmp_opc, nodecmp_a ha, nodecmp_b ha hb, hopc]

/-! ### The decoder, case by case (30_encoding.md R74) -/

theorem decodeCmd_of_find {w : Word} {row : Row} (h : opcodeTable.find? (fun r => r.selects w) = some row) :
    decodeCmd w = .ok (instrOf w row.mnemonic) := by
  rw [decodeCmd, h]

theorem decodeCmd_of_no_row {w : Word} (h : ∀ row ∈ opcodeTable, row.selects w ≠ true) :
    decodeCmd w = .error (illegalReason w) := by
  rw [decodeCmd, List.find?_eq_none.2 h]

/-- What the decoder accepts is the command of a row that selects the word. -/
theorem row_of_decodeCmd {w : Word} {i : Instr} (h : decodeCmd w = .ok i) :
    ∃ row ∈ opcodeTable, row.selects w = true ∧ i = instrOf w row.mnemonic := by
  cases hfind : opcodeTable.find? (fun r => r.selects w) with
  | some row =>
    rw [decodeCmd_of_find hfind] at h
    exact ⟨row, List.mem_of_find?_eq_some hfind, List.find?_some (p := fun r : Row => r.selects w) hfind,
      (Except.ok.inj h).symm⟩
  | none =>
    rw [decodeCmd_of_no_row (List.find?_eq_none.1 hfind)] at h
    cases h

theorem illegalReason_eq_mustBeZero {w : Word} {row : Row} (hrow : row ∈ opcodeTable)
    (hopc : opcField row.pattern = opcField w) : illegalReason w = .mustBeZero :=
  if_pos (List.any_eq_true.2 ⟨row, hrow, decide_eq_true hopc⟩)

theorem illegalReason_eq_reservedOpcode {w : Word} (h : ∀ row ∈ opcodeTable, opcField row.pattern ≠ opcField w) :
    illegalReason w = .reservedOpcode :=
  if_neg fun hany =>
    let ⟨row, hrow, hopc⟩ := List.any_eq_true.1 hany
    h row hrow (of_decide_eq_true hopc)

theorem decodeCmd_reservedOpcode {w : Word} (h : ∀ row ∈ opcodeTable, opcField row.pattern ≠ opcField w) :
    decodeCmd w = .error .reservedOpcode := by
  rw [decodeCmd_of_no_row fun row hrow hs => h row hrow (opcField_of_selects hrow hs),
    illegalReason_eq_reservedOpcode h]

theorem decodeCmd_mustBeZero {w : Word} {row : Row} (hrow : row ∈ opcodeTable)
    (hopc : opcField row.pattern = opcField w) (hno : ∀ r ∈ opcodeTable, r.selects w ≠ true) :
    decodeCmd w = .error .mustBeZero := by
  rw [decodeCmd_of_no_row hno, illegalReason_eq_mustBeZero hrow hopc]

/-- No command's word has one of bits [31:26] set (30_encoding.md R64). -/
theorem no_row_of_top_bits {w : Word} (htop : 2 ^ 26 ≤ w.toNat) :
    ∀ row ∈ opcodeTable, row.selects w ≠ true := by
  intro row hrow hs
  by_cases hm : row.mnemonic = .nodecmp
  · have hlt := toNat_lt_of_selects_nodecmp hrow hm hs
    omega
  · have hlt := toNat_lt_of_selects hrow hm hs
    omega

/-- No word of a command but NODECMP has one of bits [31:8] set (30_encoding.md R64). -/
theorem no_row_of_upper_bits {w : Word} (hopc : opcField w ≠ 0x04) (hup : 2 ^ 8 ≤ w.toNat) :
    ∀ row ∈ opcodeTable, row.selects w ≠ true := by
  intro row hrow hs
  by_cases hm : row.mnemonic = .nodecmp
  · exact hopc (opcField_of_selects_nodecmp hrow hm hs)
  · have hlt := toNat_lt_of_selects hrow hm hs
    omega

/-! ### Decoding and encoding (30_encoding.md R65, R72, R74) -/

theorem oneRowSelects : ∀ i : Instr, OneRowSelects.Statement i
  | .clrfreq => OneRowSelects.clrfreq
  | .build => OneRowSelects.build
  | .teardown => OneRowSelects.teardown
  | .nodecmp a b => OneRowSelects.nodecmp a b
  | .gencodes => OneRowSelects.gencodes
  | .encode => OneRowSelects.encode
  | .decode => OneRowSelects.decode
  | .serialize => OneRowSelects.serialize
  | .deserialize => OneRowSelects.deserialize

/-- Settles O2: the one row that selects the command's word is the row the decoder finds. -/
theorem decodeInvertsEncode : Obligations.DecodeInvertsEncode := by
  intro i hwf
  obtain ⟨row, hone, hinstr⟩ := oneRowSelects i hwf
  have hfind : opcodeTable.find? (fun r => r.selects (encode i)) = some row := by
    rw [← List.head?_filter, hone, List.head?_cons]
  rw [decodeCmd_of_find hfind, hinstr]

/-- Settles O3: every row but NODECMP's selects its pattern alone, and NODECMP's word is given by its fields. -/
theorem encodeInvertsDecode : Obligations.EncodeInvertsDecode := by
  intro w i h
  obtain ⟨row, hrow, hs, rfl⟩ := row_of_decodeCmd h
  refine ⟨instrOf_wellFormed w _, ?_⟩
  by_cases hm : row.mnemonic = .nodecmp
  · rw [hm]
    exact encode_nodecmp_fields (opcField_of_selects_nodecmp hrow hm hs) (toNat_lt_of_selects_nodecmp hrow hm hs)
  · obtain rfl := eq_pattern_of_selects hrow hm hs
    exact encode_instrOf_pattern row hrow hm

theorem opcode_assigned : ∀ row ∈ opcodeTable,
    (opcField row.pattern).toNat ∈ [0x01, 0x02, 0x03, 0x04, 0x10, 0x20, 0x21, 0x30, 0x31] := by
  decide

/-- Settles O4: none of the nine assigned opcodes lies in a reserved range. -/
theorem reservedOpcodesAreIllegal : Obligations.ReservedOpcodesAreIllegal := by
  intro w opc hres
  refine decodeCmd_reservedOpcode fun row hrow heq => ?_
  have hmem := opcode_assigned row hrow
  rw [heq, opcField_toNat] at hmem
  simp only [List.mem_cons, List.not_mem_nil, or_false] at hmem
  omega

/-- Settles O5, NODECMP's opcode first: with bits [31:26] clear the word is NODECMP's of its own fields. -/
theorem mustBeZeroBitsAreChecked : Obligations.MustBeZeroBitsAreChecked := by
  refine fun w => ⟨fun hopc => ⟨fun hlt => ?_, fun hge => ?_⟩, fun hopc hup => ?_⟩
  · have hdec := decodeInvertsEncode _ (instrOf_wellFormed w .nodecmp)
    rwa [instrOf, encode_nodecmp_fields ((opcField_eq_iff w 0x04).2 hopc) hlt, aField_eq, bField_eq] at hdec
  · have h4 : opcField w = 0x04 := (opcField_eq_iff w 0x04).2 hopc
    exact decodeCmd_mustBeZero nodecmpRow_mem h4.symm (no_row_of_top_bits hge)
  · exact ⟨_, decodeCmd_of_no_row (no_row_of_upper_bits (mt (opcField_eq_iff w 0x04).1 hopc) hup)⟩

/-- Settles O1, word by word from the general statements: the legal words are their commands' words. -/
theorem decodesWrittenWords : Obligations.DecodesWrittenWords := by
  refine ⟨decodeInvertsEncode .clrfreq trivial, decodeInvertsEncode .build trivial,
    decodeInvertsEncode .teardown trivial, decodeInvertsEncode (.nodecmp 4 5) (by decide),
    decodeInvertsEncode .gencodes trivial, decodeInvertsEncode .encode trivial, decodeInvertsEncode .decode trivial,
    decodeInvertsEncode .serialize trivial, decodeInvertsEncode .deserialize trivial,
    reservedOpcodesAreIllegal 0x00000000 (.inl rfl), ?_, ((mustBeZeroBitsAreChecked 0x04000004).1 rfl).2 (by decide)⟩
  exact decodeCmd_mustBeZero (row := ⟨.build, 0x00000002, 0xFFFFFFFF⟩) (by decide) rfl
    (no_row_of_upper_bits (by decide) (by decide))

end Sys2Proof
end

section
/-! PROOFS, family 40_tree_builder. The priority order (40_tree_builder.md R75) and the selector that takes its least
element (R76), the frequency mapping (R78, R79), the merging loop (R80, R86), the tree BUILD leaves (R81, R87, R88),
and the codes GENCODES gives that tree (41_code_table.md R90). -/

namespace Sys2Proof.Machine

/-! ### The priority order (40_tree_builder.md R75) -/

/-- On keys of one length the selector's order is the lexicographic order of the library. -/
theorem keyLt_iff_lt {xs ys : List Nat} (h : xs.length = ys.length) : keyLt xs ys = true ↔ xs < ys := by
  induction xs generalizing ys with
  | nil =>
    obtain rfl := List.length_eq_zero_iff.1 h.symm
    simp [keyLt]
  | cons x xs ih =>
    cases ys with
    | nil => simp at h
    | cons y ys => simp [keyLt, List.cons_lt_cons_iff, ih (Nat.succ.inj h)]

section order
variable {nodes : List Node} {i j k : Nat}

theorem precedes_iff_lt : precedes nodes i j = true ↔ nodeKey nodes i < nodeKey nodes j := keyLt_iff_lt rfl

/-- The last component of a key is the index itself. -/
theorem nodeKey_inj : nodeKey nodes i = nodeKey nodes j ↔ i = j := by
  refine ⟨fun h => ?_, congrArg _⟩
  simp only [nodeKey, List.cons.injEq] at h
  obtain ⟨-, -, -, hij, -⟩ := h
  exact hij

theorem precedes_irrefl (nodes : List Node) (i : Nat) : precedes nodes i i = false :=
  Bool.eq_false_iff.2 (mt precedes_iff_lt.1 (lt_irrefl _))

theorem precedes_trans (h : precedes nodes i j = true) (h' : precedes nodes j k = true) :
    precedes nodes i k = true :=
  precedes_iff_lt.2 ((precedes_iff_lt.1 h).trans (precedes_iff_lt.1 h'))

theorem precedes_total (h : i ≠ j) : precedes nodes i j = true ∨ precedes nodes j i = true := by
  rw [precedes_iff_lt, precedes_iff_lt]
  exact lt_or_gt_of_ne (mt nodeKey_inj.1 h)

/-- Exactly one of two different indices precedes the other. -/
theorem precedes_ne_precedes (h : i ≠ j) : precedes nodes i j ≠ precedes nodes j i := by
  intro he
  have hij : precedes nodes i j = true := (precedes_total h).elim id he.trans
  have hii := precedes_trans hij (he ▸ hij)
  simp [precedes_irrefl] at hii

theorem precedes_iff_keyBefore : precedes nodes i j = true ↔ KeyBefore nodes i j := by
  have hkind : ∀ b c : Bool, b.toNat < c.toNat ↔ b = false ∧ c = true := by decide
  have hkind' : ∀ b c : Bool, b.toNat = c.toNat ↔ b = c := by decide
  simp [precedes, nodeKey, keyLt, KeyBefore, hkind, hkind', BitVec.toNat_inj]

end order

/-- Settles O18: the order compares the keys lexicographically, and a key ends in its index. -/
theorem priorityOrderIsStrictAndTotal : Obligations.PriorityOrderIsStrictAndTotal :=
  fun nodes i _ _ => ⟨precedes_iff_keyBefore, precedes_irrefl nodes i, precedes_trans, precedes_total⟩

/-! ### CLRFREQ, TEARDOWN and NODECMP (40_tree_builder.md R77, R84, R85) -/

/-- Settles O10: every entry of the mapping CLRFREQ stores is 0. -/
theorem clrfreqClearsEveryFrequency : Obligations.ClrfreqClearsEveryFrequency :=
  ⟨decodeInvertsEncode .clrfreq trivial, fun s =>
    ⟨{ s with freq := Vector.replicate 256 0 }.finish .ok, rfl, rfl, fun sym => Vector.getElem_replicate sym.isLt⟩⟩

/-- With no current tree there is no code table to clear either (10_state.md R24, R33). -/
theorem State.clearTree_eq_self {s : State} (htree : s.TreeOk) (htable : s.TableOk) (hv : s.treeValid = false) :
    s.clearTree = s := by
  obtain ⟨hnodes, hroot, hncount, hnleaves⟩ := htree.2 hv
  have htv : s.tableValid = false := by
    by_contra h
    obtain ⟨hv', -⟩ := htable.1 (by simpa using h)
    exact absurd (hv.symm.trans hv') (by decide)
  have hct := htable.2 htv
  cases s
  simp_all [State.clearTree, State.clearTable]

/-- Settles O16: TEARDOWN is clearTree, which changes nothing of a state without a tree. -/
theorem teardownReleasesTheTree : Obligations.TeardownReleasesTheTree := by
  refine ⟨decodeInvertsEncode .teardown trivial, fun s => ⟨rfl, ?_⟩⟩
  rintro ⟨-, htree, htable, -⟩ hv
  exact congrArg complete (State.clearTree_eq_self htree htable hv)

section nodecmp
variable {s : State} {a b : Nat}

theorem execNodecmp_noTree (h : s.treeValid = false) :
    execNodecmp a b s = raiseError .noTree { s with result := false } := if_pos h

theorem execNodecmp_badNode (hv : s.treeValid = true) (h : s.ncount.toNat ≤ a ∨ s.ncount.toNat ≤ b) :
    execNodecmp a b s = raiseError .badNode { s with result := false } := by
  rw [execNodecmp, if_neg (by simp [hv]), if_pos h]

theorem execNodecmp_compares (hv : s.treeValid = true) (ha : a < s.ncount.toNat) (hb : b < s.ncount.toNat) :
    execNodecmp a b s = complete { s with result := precedes s.nodes a b } := by
  rw [execNodecmp, if_neg (by simp [hv]), if_neg (by omega)]

end nodecmp

/-- The word of NODECMP with its operands at their bits (30_encoding.md R72). -/
theorem decodeCmd_nodecmp {a b : Nat} (ha : a < 512) (hb : b < 512) :
    decodeCmd (BitVec.ofNat 32 (2 ^ 17 * b + 2 ^ 8 * a + 4)) = .ok (.nodecmp a b) := by
  have hw : (BitVec.ofNat 32 (2 ^ 17 * b + 2 ^ 8 * a + 4)).toNat = 2 ^ 17 * b + 2 ^ 8 * a + 4 := by
    rw [BitVec.toNat_ofNat]
    omega
  have hdec := ((mustBeZeroBitsAreChecked (BitVec.ofNat 32 (2 ^ 17 * b + 2 ^ 8 * a + 4))).1 (by omega)).1 (by omega)
  rwa [hw, show (2 ^ 17 * b + 2 ^ 8 * a + 4) / 2 ^ 8 % 2 ^ 9 = a by omega,
    show (2 ^ 17 * b + 2 ^ 8 * a + 4) / 2 ^ 17 % 2 ^ 9 = b by omega] at hdec

/-- Settles O17, one clause for each check; the comparison is the priority order. -/
theorem nodecmpComparesTwoNodes : Obligations.NodecmpComparesTwoNodes := by
  refine fun s a b => ⟨decodeCmd_nodecmp, fun h => execNodecmp_noTree h, fun hv h => execNodecmp_badNode hv h,
    fun hv ha hb => ⟨_, _, execNodecmp_compares hv ha hb, execNodecmp_compares hv hb ha, rfl,
      precedes_iff_keyBefore, ?_, precedes_ne_precedes⟩⟩
  rintro rfl
  exact precedes_irrefl s.nodes a

/-! ### The frequency mapping (40_tree_builder.md R78, R79) -/

theorem State.present_eq_nil_iff (s : State) :
    s.present = [] ↔ ∀ sym : Symbol, s.freq[sym.toNat]'sym.isLt = 0 := by
  refine ⟨fun h sym => ?_, fun h => List.eq_nil_iff_forall_not_mem.2 ?_⟩
  · by_contra hf
    have hmem := (s.mem_present sym _).2 ⟨rfl, hf⟩
    simp [h] at hmem
  · rintro ⟨sym, f⟩ hmem
    obtain ⟨rfl, hf⟩ := (s.mem_present sym f).1 hmem
    exact hf (h sym)

theorem State.present_ne_nil {s : State} (h : ∃ sym : Symbol, s.freq[sym.toNat]'sym.isLt ≠ 0) : s.present ≠ [] :=
  mt s.present_eq_nil_iff.1 (not_forall.2 h)

@[simp] theorem presentFrom_cons_absent (k : Nat) (fs : List Word) :
    presentFrom k (0#32 :: fs) = presentFrom (k + 1) fs := if_pos rfl

theorem presentFrom_cons_present (k : Nat) {f : Word} (hf : f ≠ 0#32) (fs : List Word) :
    presentFrom k (f :: fs) = (BitVec.ofNat 8 k, f) :: presentFrom (k + 1) fs := if_neg hf

theorem presentFrom_length (k : Nat) (fs : List Word) :
    (presentFrom k fs).length = (fs.filter (fun f => f ≠ 0)).length := by
  induction fs generalizing k with
  | nil => rfl
  | cons f fs ih =>
    by_cases hf : f = 0#32
    · simp [hf, ih]
    · simp [presentFrom_cons_present k hf, hf, ih]

theorem freqTotal_presentFrom (k : Nat) (fs : List Word) :
    freqTotal (presentFrom k fs) = (fs.map BitVec.toNat).sum := by
  induction fs generalizing k with
  | nil => rfl
  | cons f fs ih =>
    by_cases hf : f = 0#32
    · simp [hf, ih]
    · simp [presentFrom_cons_present k hf, freqTotal, ih]

theorem State.present_length (s : State) : s.present.length = (s.freq.toList.filter (fun f => f ≠ 0)).length :=
  presentFrom_length 0 _

/-- Absent symbols add 0 to the total (40_tree_builder.md R79). -/
theorem State.freqTotal_present (s : State) : freqTotal s.present = (s.freq.toList.map BitVec.toNat).sum :=
  freqTotal_presentFrom 0 _

/-- The mapping is in ascending symbol order (40_tree_builder.md R78). -/
theorem State.present_ascending (s : State) : s.present.Pairwise fun p p' => p.1.toNat < p'.1.toNat := by
  obtain ⟨-, -, hasc⟩ := presentFrom_spec 0 s.freq.toList (by simp)
  exact hasc

theorem State.present_symbols_nodup (s : State) : (s.present.map Prod.fst).Nodup := by
  refine List.pairwise_map.2 (s.present_ascending.imp ?_)
  rintro p p' hlt he
  simp [he] at hlt

/-! ### BUILD, case by case (40_tree_builder.md R79, R81) -/

section build
variable {s : State}

theorem execBuild_empty (h : s.present = []) : execBuild s = raiseError .emptyFreq s := if_pos h

theorem execBuild_overflow (hne : s.present ≠ []) (h : Config.freqMax < freqTotal s.present) :
    execBuild s = raiseError .freqOvf s := by
  rw [execBuild, if_neg hne, if_pos h]

theorem execBuild_fits (hne : s.present ≠ []) (h : freqTotal s.present ≤ Config.freqMax) :
    execBuild s = complete (s.installTree (buildArena s.present) s.present.length) := by
  rw [execBuild, if_neg hne, if_neg (Nat.not_lt.2 h)]

/-- A BUILD that ends in success has a mapping to build from, and installs its arena. -/
theorem execBuild_ok {t : State} (h : execBuild s = .next t) (hok : t.errcode = .ok) :
    s.present ≠ [] ∧ freqTotal s.present ≤ Config.freqMax ∧
      t = (s.installTree (buildArena s.present) s.present.length).finish .ok := by
  obtain ⟨-, rfl⟩ | ⟨-, -, rfl⟩ | hbuilt := execBuild_next h
  · exact absurd hok (by simp)
  · exact absurd hok (by simp)
  · exact hbuilt

end build

/-- Settles O11: no present symbol is an empty mapping, and a mapping with a positive total is not empty. -/
theorem buildRefusesBadMappings : Obligations.BuildRefusesBadMappings := by
  refine fun s => ⟨fun h => execBuild_empty (s.present_eq_nil_iff.2 h), fun h => ?_⟩
  rw [← s.freqTotal_present] at h
  refine execBuild_overflow (fun hnil => ?_) h
  simp [hnil, freqTotal] at h

/-- GENCODES of a current tree leaves the tree's own table, or none where two leaves have one symbol
(41_code_table.md R90, R92). -/
theorem execGencodes_ct {s t : State} (h : execGencodes s = .next t) (hv : s.treeValid = true) :
    ∃ tree, s.currentTree = some tree ∧
      t.ct = if (tableOf tree).2 then Vector.replicate 256 none else (tableOf tree).1 := by
  obtain ⟨hv', -⟩ | ⟨-, tree, htree, ⟨hdup, rfl⟩ | ⟨hdup, rfl⟩⟩ := execGencodes_next h
  · exact absurd (hv'.symm.trans hv) (by decide)
  · exact ⟨tree, htree, by simp [hdup]⟩
  · exact ⟨tree, htree, by simp [hdup]⟩

/-- Settles O15: the mapping decides which case of BUILD it is, and the arena; the tree decides the table. -/
theorem buildDependsOnFreqAlone : Obligations.BuildDependsOnFreqAlone := by
  intro s s' t t' hfreq h h'
  have hpresent : s'.present = s.present := by rw [State.present, State.present, hfreq]
  replace h' : execBuild s' = .next t' := h'
  obtain ⟨hnil, rfl⟩ | ⟨hne, hover, rfl⟩ | ⟨hne, hfits, rfl⟩ := execBuild_next h
  · rw [execBuild_empty (hpresent.trans hnil)] at h'
    obtain rfl := raiseError_next h'
    exact ⟨rfl, fun hok => absurd hok (by simp)⟩
  · rw [← hpresent] at hne hover
    rw [execBuild_overflow hne hover] at h'
    obtain rfl := raiseError_next h'
    exact ⟨rfl, fun hok => absurd hok (by simp)⟩
  · rw [execBuild_fits (hpresent ▸ hne) (hpresent ▸ hfits), hpresent] at h'
    obtain rfl := complete_next h'
    refine ⟨rfl, fun _ => ⟨rfl, rfl, rfl, rfl, fun u u' hu hu' => ?_⟩⟩
    obtain ⟨tree, htree, hct⟩ := execGencodes_ct hu rfl
    obtain ⟨tree', htree', hct'⟩ := execGencodes_ct hu' rfl
    obtain rfl : tree = tree' := Option.some.inj (htree.symm.trans htree')
    rw [hct, hct']

/-! ### The selector takes the least root (40_tree_builder.md R76) -/

theorem peekMin_precedes {nodes : List Node} {q : List Nat} {m c : Nat} (h : peekMin nodes q = some m) (hc : c ∈ q)
    (hne : c ≠ m) : precedes nodes m c = true := by
  induction q generalizing m with
  | nil => simp at hc
  | cons i q ih =>
    rw [peekMin] at h
    split at h
    next hnone =>
      obtain rfl := peekMin_eq_none.1 hnone
      obtain rfl : i = m := by simpa using h
      exact absurd (by simpa using hc) hne
    next m' hm' =>
      split_ifs at h with him
      · obtain rfl : i = m := by simpa using h
        obtain rfl | hc := List.mem_cons.1 hc
        · exact absurd rfl hne
        · by_cases hcm : c = m'
          · exact hcm ▸ him
          · exact precedes_trans him (ih hm' hc hcm)
      · obtain rfl : m' = m := by simpa using h
        obtain rfl | hc := List.mem_cons.1 hc
        · exact (precedes_total hne).resolve_left him
        · exact ih hm' hc hne

theorem removeMin_precedes {nodes : List Node} {q q' : List Nat} {m c : Nat} (hq : q.Nodup)
    (h : removeMin nodes q = some (m, q')) (hc : c ∈ q') : precedes nodes m c = true := by
  rw [removeMin] at h
  split at h
  · simp at h
  next k hk =>
    obtain ⟨rfl, rfl⟩ : k = m ∧ q.erase k = q' := by simpa using h
    obtain ⟨hne, hcq⟩ := hq.mem_erase_iff.1 hc
    exact peekMin_precedes hk hcq hne

/-! ### The merging loop (40_tree_builder.md R80, R86) -/

/-- What the loop keeps: the arena is a forest over the roots Q, it has room for the branches still to be made, and the
total fits a word. -/
structure Mergeable (nodes : List Node) (q : List Nat) : Prop where
  forest : Forest nodes q
  room : nodes.length + q.length ≤ Config.nodeMax + 1
  fits : rootSum nodes q < 2 ^ 32

theorem Mergeable.perm {nodes : List Node} {q q' : List Nat} (h : Mergeable nodes q) (hq : q.Perm q') :
    Mergeable nodes q' :=
  ⟨h.forest.perm hq, hq.length_eq ▸ h.room, rootSum_perm hq ▸ h.fits⟩

@[simp] theorem rootSum_cons (nodes : List Node) (i : Nat) (q : List Nat) :
    rootSum nodes (i :: q) = (arenaAt nodes i).freq.toNat + rootSum nodes q := by
  simp [rootSum]

section merge
variable {nodes : List Node} {a b : Nat} {q : List Nat}

theorem Mergeable.length_lt (h : Mergeable nodes (a :: b :: q)) : nodes.length < Config.nodeMax := by
  have hroom := h.room
  simp only [List.length_cons] at hroom
  omega

/-- The frequency of the new branch is the exact sum of its children's. -/
theorem Mergeable.freq_mergeNode (h : Mergeable nodes (a :: b :: q)) :
    (mergeNode nodes a b).freq.toNat = (arenaAt nodes a).freq.toNat + (arenaAt nodes b).freq.toNat := by
  have hfits := h.fits
  rw [rootSum_cons, rootSum_cons] at hfits
  rw [mergeNode, Node.freq_branch, BitVec.toNat_add]
  omega

theorem Mergeable.merge (h : Mergeable nodes (a :: b :: q)) :
    Mergeable (nodes ++ [mergeNode nodes a b]) (nodes.length :: q) := by
  obtain ⟨hforest, hroom, hfits⟩ := id h
  rw [rootSum_cons, rootSum_cons] at hfits
  simp only [List.length_cons] at hroom
  refine ⟨hforest.add_branch h.length_lt.le (by omega), ?_, ?_⟩
  · simp only [List.length_append, List.length_cons, List.length_nil]
    omega
  · rw [rootSum_cons, arenaAt_append_last, h.freq_mergeNode,
      rootSum_append _ fun i hi => hforest.root_lt (List.mem_cons_of_mem _ (List.mem_cons_of_mem _ hi))]
    omega

end merge

/-- What every merge of the two least roots keeps holds of the loop's result. -/
theorem mergeRoots_induction {P : List Node → Prop}
    (hmerge : ∀ nodes a b q, Mergeable nodes (a :: b :: q) → (∀ c ∈ b :: q, precedes nodes a c = true) →
      (∀ c ∈ q, precedes nodes b c = true) → P nodes → P (nodes ++ [mergeNode nodes a b]))
    {fuel : Nat} {nodes : List Node} {q : List Nat} (hq : Mergeable nodes q) (hP : P nodes) :
    P (mergeRoots fuel nodes q) := by
  induction fuel generalizing nodes q with
  | zero => exact hP
  | succ fuel ih =>
    rw [mergeRoots]
    split
    · exact hP
    next a q1 ha =>
      split
      · exact hP
      next b q2 hb =>
        have hpa := removeMin_perm ha
        have hpb := removeMin_perm hb
        have hnodup := hq.forest.nodup
        have hnodup1 : q1.Nodup := (List.nodup_cons.1 (hpa.nodup_iff.1 hnodup)).2
        have hm := hq.perm (hpa.trans (hpb.cons a))
        exact ih hm.merge (hmerge nodes a b q2 hm
          (fun c hc => removeMin_precedes hnodup ha (hpb.mem_iff.2 hc))
          (fun c hc => removeMin_precedes hnodup1 hb hc) hP)

/-- The loop adds branches only. -/
theorem mergeRoots_eq_append (fuel : Nat) (nodes : List Node) (q : List Nat) :
    ∃ branches, mergeRoots fuel nodes q = nodes ++ branches ∧ ∀ n ∈ branches, n.isBranch = true := by
  induction fuel generalizing nodes q with
  | zero => exact ⟨[], by simp [mergeRoots], by simp⟩
  | succ fuel ih =>
    rw [mergeRoots]
    split
    · exact ⟨[], by simp, by simp⟩
    next a q1 _ =>
      split
      · exact ⟨[], by simp, by simp⟩
      next b q2 _ =>
        obtain ⟨branches, hres, hbr⟩ := ih (nodes ++ [mergeNode nodes a b]) (nodes.length :: q2)
        exact ⟨mergeNode nodes a b :: branches, by rw [hres]; simp, List.forall_mem_cons.2 ⟨rfl, hbr⟩⟩

/-- BUILD's arena is one leaf a present symbol and then branches. -/
theorem buildArena_eq_append (present : List (Symbol × Word)) :
    ∃ branches, buildArena present = seedLeaves present ++ branches ∧ ∀ n ∈ branches, n.isBranch = true :=
  mergeRoots_eq_append _ _ _

@[simp] theorem seedLeaves_length (present : List (Symbol × Word)) :
    (seedLeaves present).length = present.length := by
  simp [seedLeaves]

/-- The loop starts with the leaves as its roots (40_tree_builder.md R80). -/
theorem seedLeaves_mergeable {present : List (Symbol × Word)} (hlen : present.length ≤ 256)
    (htotal : freqTotal present ≤ Config.freqMax) : Mergeable (seedLeaves present) (List.range present.length) := by
  refine ⟨seedLeaves_forest present, ?_, ?_⟩
  · rw [seedLeaves_length, List.length_range, Config.nodeMax]
    omega
  · rw [rootSum_seedLeaves]
    rw [Config.freqMax] at htotal
    omega

/-! ### The entries of BUILD's arena (40_tree_builder.md R80) -/

section entries
variable {present : List (Symbol × Word)} {i : Nat}

theorem arenaAt_buildArena_leaf (hi : i < present.length) :
    arenaAt (buildArena present) i = .leaf present[i].1 present[i].2 := by
  obtain ⟨branches, hres, -⟩ := buildArena_eq_append present
  have hi' : i < (seedLeaves present ++ branches).length := by simp; omega
  rw [hres, arenaAt_eq_getElem hi', List.getElem_append_left (by simpa using hi)]
  simp [seedLeaves]

theorem arenaAt_buildArena_branch (hi : present.length ≤ i) (hi' : i < (buildArena present).length) :
    (arenaAt (buildArena present) i).isBranch = true := by
  obtain ⟨branches, hres, hbr⟩ := buildArena_eq_append present
  rw [arenaAt_eq_getElem hi']
  simp only [hres]
  rw [List.getElem_append_right (by simpa using hi)]
  exact hbr _ (List.getElem_mem _)

/-- The leaves of BUILD's arena are the entries of the mapping at their places. -/
theorem arenaAt_buildArena_eq_leaf {sym : Symbol} {f : Word} (hi : i < (buildArena present).length) :
    arenaAt (buildArena present) i = .leaf sym f ↔ present[i]? = some (sym, f) := by
  by_cases hlt : i < present.length
  · rw [arenaAt_buildArena_leaf hlt, List.getElem?_eq_getElem hlt]
    simp [Prod.ext_iff]
  · have hbr := arenaAt_buildArena_branch (Nat.le_of_not_lt hlt) hi
    rw [List.getElem?_eq_none (Nat.le_of_not_lt hlt)]
    refine ⟨fun h => ?_, fun h => ?_⟩
    · simp [h] at hbr
    · simp at h

end entries

/-- Settles O13: the leaves are the mapping's entries, which ascend, and the loop adds branches only. -/
theorem buildSeedsLeavesInSymbolOrder : Obligations.BuildSeedsLeavesInSymbolOrder := by
  intro s t h hok n
  obtain ⟨-, -, rfl⟩ := execBuild_ok h hok
  have hn : n = s.present.length := s.present_length.symm
  rw [hn]
  refine ⟨fun i hi => ?_, fun i j hij hj => ?_, fun i hi hi' => arenaAt_buildArena_branch hi hi'⟩
  · have hmem : (s.present[i].1, s.present[i].2) ∈ s.present := List.getElem_mem hi
    obtain ⟨hfreq, hne⟩ := (s.mem_present _ _).1 hmem
    refine ⟨s.present[i].1, hfreq ▸ hne, ?_⟩
    rw [hfreq]
    exact arenaAt_buildArena_leaf hi
  · rw [State.finish_nodes, State.installTree_nodes, arenaAt_buildArena_leaf (hij.trans hj),
      arenaAt_buildArena_leaf hj]
    exact List.pairwise_iff_getElem.1 s.present_ascending i j _ hj hij

/-! ### Each branch is made over the two least roots (40_tree_builder.md R80) -/

/-- The entry is below k and no branch below k has it as a child: it is a root when entry k is made. -/
def IsRootBefore (nodes : List Node) (k c : Nat) : Prop :=
  c < k ∧ ∀ j < k, ∀ g a b, arenaAt nodes j = .branch g a b → a.toNat ≠ c ∧ b.toNat ≠ c

/-- If entry k is a branch, its children are the two least roots there were, in order, and its frequency is their
exact sum. -/
def MergesLeast (nodes : List Node) (k : Nat) : Prop :=
  ∀ f l r, arenaAt nodes k = .branch f l r →
    IsRootBefore nodes k l.toNat ∧ IsRootBefore nodes k r.toNat ∧ KeyBefore nodes l.toNat r.toNat ∧
      (∀ c, IsRootBefore nodes k c → c ≠ l.toNat → c ≠ r.toNat → KeyBefore nodes r.toNat c) ∧
      f.toNat = (arenaAt nodes l.toNat).freq.toNat + (arenaAt nodes r.toNat).freq.toNat

section congr
variable {nodes nodes' : List Node} {k : Nat}

theorem isRootBefore_congr (h : ∀ i < k, arenaAt nodes' i = arenaAt nodes i) (c : Nat) :
    IsRootBefore nodes' k c ↔ IsRootBefore nodes k c :=
  and_congr_right fun _ => forall₂_congr fun j hj => by rw [h j hj]

theorem keyBefore_congr {i j : Nat} (hi : arenaAt nodes' i = arenaAt nodes i)
    (hj : arenaAt nodes' j = arenaAt nodes j) : KeyBefore nodes' i j ↔ KeyBefore nodes i j := by
  rw [KeyBefore, KeyBefore, hi, hj]

/-- How entry k was made is told by the entries up to k. -/
theorem mergesLeast_congr (h : ∀ i ≤ k, arenaAt nodes' i = arenaAt nodes i) (hk : MergesLeast nodes k) :
    MergesLeast nodes' k := by
  have hroot := isRootBefore_congr fun i hi => h i (Nat.le_of_lt hi)
  intro f l r hbr
  obtain ⟨hl, hr, hlr, hleast, hsum⟩ := hk f l r ((h k le_rfl).symm.trans hbr)
  have el := h _ (Nat.le_of_lt hl.1)
  have er := h _ (Nat.le_of_lt hr.1)
  refine ⟨(hroot _).2 hl, (hroot _).2 hr, (keyBefore_congr el er).2 hlr, fun c hc hcl hcr => ?_, ?_⟩
  · exact (keyBefore_congr er (h c (Nat.le_of_lt hc.1))).2 (hleast c ((hroot c).1 hc) hcl hcr)
  · rw [el, er, hsum]

end congr

theorem mem_childrenOf_iff {nodes : List Node} {c : Nat} : c ∈ childrenOf nodes ↔
    ∃ j < nodes.length, ∃ f l r, arenaAt nodes j = .branch f l r ∧ (c = l.toNat ∨ c = r.toNat) := by
  refine ⟨mem_childrenOf, ?_⟩
  rintro ⟨j, hj, f, l, r, hn, hlr⟩
  rw [arenaAt_eq_getElem hj] at hn
  have hsplit : nodes = nodes.take j ++ .branch f l r :: nodes.drop (j + 1) := by
    rw [← hn, List.getElem_cons_drop, List.take_append_drop]
  rw [hsplit, childrenOf_append]
  refine List.mem_append_right _ ?_
  obtain rfl | rfl := hlr <;> simp [childrenOf]

/-- The roots of a forest are the entries that are no branch's child. -/
theorem Forest.mem_iff_isRootBefore {nodes : List Node} {q : List Nat} (h : Forest nodes q) (c : Nat) :
    c ∈ q ↔ IsRootBefore nodes nodes.length c := by
  have hcover : c ∈ q ∨ c ∈ childrenOf nodes ↔ c < nodes.length := by
    rw [← List.mem_append, h.cover.mem_iff, List.mem_range]
  have hdisj : c ∈ q → c ∉ childrenOf nodes := fun hq hc =>
    List.disjoint_of_nodup_append (h.cover.nodup_iff.2 List.nodup_range) hq hc
  have hchild : c ∉ childrenOf nodes ↔
      ∀ j < nodes.length, ∀ g a b, arenaAt nodes j = .branch g a b → a.toNat ≠ c ∧ b.toNat ≠ c := by
    rw [mem_childrenOf_iff]
    push Not
    simp only [ne_comm]
  rw [IsRootBefore, ← hchild, ← hcover]
  tauto

theorem mergesLeast_mergeNode {nodes : List Node} {a b : Nat} {q : List Nat} (h : Mergeable nodes (a :: b :: q))
    (hleast : ∀ c ∈ b :: q, precedes nodes a c = true) (hleast' : ∀ c ∈ q, precedes nodes b c = true) :
    MergesLeast (nodes ++ [mergeNode nodes a b]) nodes.length := by
  have hold : ∀ i < nodes.length, arenaAt (nodes ++ [mergeNode nodes a b]) i = arenaAt nodes i :=
    fun i hi => arenaAt_append_left _ hi
  have hroot (c : Nat) : IsRootBefore (nodes ++ [mergeNode nodes a b]) nodes.length c ↔ c ∈ a :: b :: q :=
    (isRootBefore_congr hold c).trans (h.forest.mem_iff_isRootBefore c).symm
  have ha : a < nodes.length := h.forest.root_lt (by simp)
  have hb : b < nodes.length := h.forest.root_lt (by simp)
  have hlt := h.length_lt
  rw [Config.nodeMax] at hlt
  intro f l r hbr
  rw [arenaAt_append_last] at hbr
  have hf : f.toNat = (mergeNode nodes a b).freq.toNat := by rw [hbr, Node.freq_branch]
  rw [mergeNode] at hbr
  obtain ⟨-, rfl, rfl⟩ := Node.branch.inj hbr
  rw [BitVec.toNat_ofNat, BitVec.toNat_ofNat, Nat.mod_eq_of_lt (by omega), Nat.mod_eq_of_lt (by omega)]
  refine ⟨(hroot a).2 (by simp), (hroot b).2 (by simp), ?_, fun c hc hca hcb => ?_, ?_⟩
  · exact (keyBefore_congr (hold a ha) (hold b hb)).2 (precedes_iff_keyBefore.1 (hleast b (by simp)))
  · have hcq : c ∈ q := by simpa [hca, hcb] using (hroot c).1 hc
    exact (keyBefore_congr (hold b hb) (hold c hc.1)).2 (precedes_iff_keyBefore.1 (hleast' c hcq))
  · rw [hf, h.freq_mergeNode, hold a ha, hold b hb]

/-- Every entry of BUILD's arena is a leaf or merges the two least roots. -/
theorem buildArena_mergesLeast {present : List (Symbol × Word)} (hlen : present.length ≤ 256)
    (htotal : freqTotal present ≤ Config.freqMax) :
    ∀ k < (buildArena present).length, MergesLeast (buildArena present) k := by
  refine mergeRoots_induction (P := fun nodes => ∀ k < nodes.length, MergesLeast nodes k)
    (fun nodes a b q hm hleast hleast' hP k hk => ?_) (seedLeaves_mergeable hlen htotal) ?_
  · rw [List.length_append, List.length_singleton] at hk
    obtain hlt | rfl := Nat.lt_succ_iff_lt_or_eq.1 hk
    · exact mergesLeast_congr (fun i hi => arenaAt_append_left _ (Nat.lt_of_le_of_lt hi hlt)) (hP k hlt)
    · exact mergesLeast_mergeNode hm hleast hleast'
  · intro k hk f l r hbr
    rw [arenaAt_eq_getElem hk] at hbr
    simp [seedLeaves] at hbr

/-- Settles O14: each branch was made by a merge of the two least roots, and later merges keep the entries. -/
theorem buildMergesTheTwoLeastRoots : Obligations.BuildMergesTheTwoLeastRoots := by
  intro s t h hok k f l r hk
  obtain ⟨-, hfits, rfl⟩ := execBuild_ok h hok
  exact buildArena_mergesLeast s.present_length_le hfits k hk f l r

/-! ### The tree BUILD leaves (40_tree_builder.md R81, R87) -/

theorem buildArena_length {present : List (Symbol × Word)} (hne : present ≠ []) (hlen : present.length ≤ 256)
    (htotal : freqTotal present ≤ Config.freqMax) : (buildArena present).length = 2 * present.length - 1 := by
  obtain ⟨-, hcount, -, -, -⟩ := buildArena_forest hne hlen htotal
  omega

/-- A symbol of the mapping is the symbol of exactly one leaf. -/
theorem existsUnique_leaf_buildArena {s : State} {sym : Symbol} (h : s.freq[sym.toNat]'sym.isLt ≠ 0) :
    ∃! i, i < (buildArena s.present).length ∧ ∃ f, arenaAt (buildArena s.present) i = .leaf sym f := by
  obtain ⟨i, hi, hget⟩ := List.getElem_of_mem ((s.mem_present sym _).2 ⟨rfl, h⟩)
  have hlt : i < (buildArena s.present).length := by
    obtain ⟨branches, hres, -⟩ := buildArena_eq_append s.present
    simp only [hres, List.length_append, seedLeaves_length]
    omega
  refine ⟨i, ⟨hlt, _, (arenaAt_buildArena_eq_leaf hlt).2 (List.getElem?_eq_some_iff.2 ⟨hi, hget⟩)⟩, ?_⟩
  rintro j ⟨hj, f, hleaf⟩
  obtain ⟨hj', hget'⟩ := List.getElem?_eq_some_iff.1 ((arenaAt_buildArena_eq_leaf hj).1 hleaf)
  refine (List.getElem_inj (h₀ := by simpa using hj') (h₁ := by simpa using hi) s.present_symbols_nodup).1 ?_
  simp [hget, hget']

/-- Settles O12: the forest the loop ends with is one tree over the leaves of the mapping. -/
theorem buildMakesTheTree : Obligations.BuildMakesTheTree := by
  intro s hex htotal n
  have hne := State.present_ne_nil hex
  have hn : n = s.present.length := s.present_length.symm
  have hlen := s.present_length_le
  have hpos : 0 < s.present.length := List.length_pos_iff.2 hne
  rw [← s.freqTotal_present] at htotal ⊢
  have hsize := buildArena_length hne hlen htotal
  obtain ⟨-, -, hsum, -, -⟩ := buildArena_forest hne hlen htotal
  obtain ⟨harena, -⟩ := buildArena_arenaOk hne hlen htotal
  rw [hn]
  have hroot : (buildArena s.present).length - 1 = 2 * s.present.length - 2 := by omega
  refine ⟨_, execBuild_fits hne htotal, ?_, hsize, hroot ▸ hsum, fun sym => existsUnique_leaf_buildArena, harena,
    fun i hi => ?_⟩
  · simp only [State.finish, State.installTree, State.clearTable, hsize, Nat.sub_sub]
  · refine harena.reachable ?_ hi
    rw [State.finish_root, State.installTree_root, BitVec.toNat_ofNat]
    omega

/-! ### The tables of trees (41_code_table.md R90) -/

/-- The symbols of a tree's leaves, from left to right. -/
def Tree.syms : Tree → List Symbol
  | .absent => []
  | .leaf sym _ => [sym]
  | .branch _ l r => l.syms ++ r.syms

theorem codeOf_recordCode_isSome (sym sym' : Symbol) (path : Code) (w : WorkTable) :
    (codeOf (recordCode sym path w).1 sym').isSome ↔ (codeOf w.1 sym').isSome ∨ sym' = sym := by
  have hne : sym.toNat = sym'.toNat ↔ sym' = sym := BitVec.toNat_inj.trans eq_comm
  rw [recordCode]
  split
  next hnone =>
    by_cases hs : sym' = sym
    · subst hs
      simp [codeOf]
    · simp [codeOf, hne, hs]
  next code hsome =>
    refine ⟨.inl, fun h => h.elim id ?_⟩
    rintro rfl
    simp [codeOf, hsome]

theorem recordCode_noDup (sym : Symbol) (path : Code) (w : WorkTable) :
    (recordCode sym path w).2 = false ↔ w.2 = false ∧ codeOf w.1 sym = none := by
  rw [recordCode, codeOf]
  split
  next hnone => simp [hnone]
  next code hsome => simp [hsome]

/-- A visit adds codes for the symbols of the visited tree. -/
theorem codeOf_visitTree_isSome (t : Tree) (path : Code) (w : WorkTable) (sym : Symbol) :
    (codeOf (visitTree t path w).1 sym).isSome ↔ (codeOf w.1 sym).isSome ∨ sym ∈ t.syms := by
  induction t generalizing path w with
  | absent => simp [visitTree, Tree.syms]
  | leaf sym' f => simp [visitTree, Tree.syms, codeOf_recordCode_isSome]
  | branch f l r ihl ihr => simp [visitTree, Tree.syms, ihl, ihr, or_assoc]

/-- A visit notes no second leaf when the symbols of the visited tree are new and different. -/
theorem visitTree_noDup (t : Tree) (path : Code) (w : WorkTable) :
    (visitTree t path w).2 = false ↔ w.2 = false ∧ t.syms.Nodup ∧ ∀ sym ∈ t.syms, codeOf w.1 sym = none := by
  induction t generalizing path w with
  | absent => simp [visitTree, Tree.syms]
  | leaf sym f => simp [visitTree, Tree.syms, recordCode_noDup]
  | branch f l r ihl ihr =>
    have hnone (sym : Symbol) : codeOf (visitTree l (path ++ [false]) w).1 sym = none ↔
        codeOf w.1 sym = none ∧ sym ∉ l.syms := by
      rw [← Option.not_isSome_iff_eq_none, codeOf_visitTree_isSome, not_or, Option.not_isSome_iff_eq_none]
    simp only [visitTree, Tree.syms, ihl, ihr, hnone, List.nodup_append, List.mem_append]
    grind

theorem tableOf_noDup (t : Tree) : (tableOf t).2 = false ↔ t.syms.Nodup := by
  simp [tableOf, visitTree_noDup, codeOf]

theorem codeOf_tableOf_isSome (t : Tree) (sym : Symbol) : (codeOf (tableOf t).1 sym).isSome ↔ sym ∈ t.syms := by
  rw [tableOf, codeOf_visitTree_isSome]
  simp [codeOf]

/-! ### The leaves of the current tree are the leaves of the arena (10_state.md R31) -/

/-- The symbol of a leaf entry. -/
def leafSym? : Node → Option Symbol
  | .leaf sym _ => some sym
  | .branch _ _ _ => none

/-- The symbols of an arena's leaf entries, in index order. -/
def leafSyms (nodes : List Node) : List Symbol := nodes.filterMap leafSym?

/-- The roots a forest has without its last entry: that entry's children are roots again. -/
def rootsWithout (q : List Nat) : Node → List Nat
  | .leaf _ _ => q
  | .branch _ l r => l.toNat :: r.toNat :: q

/-- The last entry of a forest is a root, and without it there is a forest again. -/
theorem Forest.dropLast {nodes : List Node} {n : Node} {q : List Nat} (h : Forest (nodes ++ [n]) q) :
    ∃ q', q.Perm (nodes.length :: q') ∧ Forest nodes (rootsWithout q' n) := by
  have hentries : ∀ i < nodes.length, entryOk nodes i (arenaAt nodes i) = true := by
    intro i hi
    have hi' := h.entries i (by simp; omega)
    rwa [arenaAt_append_left n hi, entryOk_append n hi] at hi'
  have hroot : nodes.length ∈ q := by
    rw [h.mem_iff_isRootBefore, IsRootBefore]
    refine ⟨by simp, fun j hj g a b hbr => ?_⟩
    have hok := h.entries j hj
    rw [hbr] at hok
    obtain ⟨ha, hb, -, -⟩ := entryOk_branch hok
    rw [List.length_append, List.length_singleton] at hj
    omega
  have hq := List.perm_cons_erase hroot
  have hcover := (hq.symm.append_right _).trans h.cover
  have hcount := h.count
  rw [hq.length_eq] at hcount
  rw [List.length_append, List.length_singleton, List.range_succ, childrenOf_append, List.cons_append] at hcover
  replace hcover := (List.perm_cons _).1 (hcover.trans (List.perm_append_singleton _ _))
  simp only [List.length_append, List.length_cons, List.length_nil, leafEntries_append] at hcount
  refine ⟨q.erase nodes.length, hq, hentries, ?_, ?_⟩
  · cases n with
    | leaf sym f => simpa [rootsWithout, childrenOf] using hcover
    | branch f l r =>
      refine List.Perm.trans ?_ hcover
      simp only [rootsWithout, childrenOf, ← List.append_assoc]
      exact List.perm_append_comm (l₁ := [l.toNat, r.toNat])
  · cases n with
    | leaf sym f =>
      simp only [leafEntries, rootsWithout] at hcount ⊢
      omega
    | branch f l r =>
      simp only [leafEntries, rootsWithout, List.length_cons] at hcount ⊢
      omega

/-- The leaves' symbols of the tree unfolded from an entry. -/
def symsAt (nodes : List Node) (i : Nat) : List Symbol :=
  ((unfoldTree nodes (Config.nodeMax + 1) (BitVec.ofNat 9 i)).map Tree.syms).getD []

theorem symsAt_of_unfoldTree {nodes : List Node} {depth : Nat} {i : NodeIdx} {t : Tree}
    (h : unfoldTree nodes depth i = some t) (hd : depth ≤ Config.nodeMax + 1) : symsAt nodes i.toNat = t.syms := by
  rw [symsAt, BitVec.ofNat_toNat, BitVec.setWidth_eq, unfoldTree_mono h hd]
  rfl

/-- An arena that grows has the same leaves under its old entries. -/
theorem symsAt_append {nodes : List Node} (n : Node) (hb : Below nodes) (hsize : nodes.length ≤ Config.nodeMax)
    {i : Nat} (hi : i < nodes.length) : symsAt (nodes ++ [n]) i = symsAt nodes i := by
  rw [Config.nodeMax] at hsize
  rw [symsAt, symsAt, unfoldTree_append n hb]
  rw [BitVec.toNat_ofNat]
  omega

/-- The leaves under the last entry are its own symbol or those under its two children. -/
theorem symsAt_last {nodes : List Node} {n : Node} (hb : Below (nodes ++ [n]))
    (hsize : nodes.length < Config.nodeMax) :
    symsAt (nodes ++ [n]) nodes.length =
      (leafSym? n).toList ++ (rootsWithout [] n).flatMap (symsAt (nodes ++ [n])) := by
  have hlt : nodes.length < 512 := by
    rw [Config.nodeMax] at hsize
    omega
  have hidx : (BitVec.ofNat 9 nodes.length).toNat = nodes.length := by
    rw [BitVec.toNat_ofNat, Nat.mod_eq_of_lt hlt]
  have hlen : (nodes ++ [n]).length ≤ Config.nodeMax := by simpa using hsize
  have hne : BitVec.ofNat 9 nodes.length ≠ Config.nil := toNat_ne_nil hlen (by simp [hidx])
  have hlast : arenaAt (nodes ++ [n]) (BitVec.ofNat 9 nodes.length).toNat = n := by
    rw [hidx, arenaAt_append_last]
  cases n with
  | leaf sym f =>
    have ht := unfoldTree_leaf (depth := 0) hne hlast
    have hs := symsAt_of_unfoldTree ht (by decide)
    rw [hidx] at hs
    rw [hs]
    rfl
  | branch f l r =>
    have hok := hb nodes.length (by simp)
    rw [arenaAt_append_last] at hok
    obtain ⟨hl, hr, -, -⟩ := entryOk_branch hok
    obtain ⟨tl, htl, -⟩ := unfoldTree_exists hb hlen (i := l) (by simp; omega) (hl.trans hsize)
    obtain ⟨tr, htr, -⟩ := unfoldTree_exists hb hlen (i := r) (by simp; omega) (hr.trans hsize)
    have ht := symsAt_of_unfoldTree (unfoldTree_branch hne hlast htl htr) le_rfl
    rw [hidx] at ht
    rw [ht]
    simp [rootsWithout, leafSym?, Tree.syms, symsAt_of_unfoldTree htl, symsAt_of_unfoldTree htr]

open scoped List in
/-- Every leaf entry of a forest is a leaf of exactly one of its trees. -/
theorem Forest.symsAt_perm {nodes : List Node} {q : List Nat} (h : Forest nodes q)
    (hsize : nodes.length ≤ Config.nodeMax) : (q.flatMap (symsAt nodes)).Perm (leafSyms nodes) := by
  induction nodes using List.reverseRecOn generalizing q with
  | nil =>
    have hq : q = [] := by simpa [childrenOf] using h.cover
    simp [hq, leafSyms]
  | append_singleton nodes n ih =>
    rw [List.length_append, List.length_singleton] at hsize
    obtain ⟨q', hq, hf⟩ := h.dropLast
    have hsame : (rootsWithout q' n).flatMap (symsAt (nodes ++ [n])) = (rootsWithout q' n).flatMap (symsAt nodes) :=
      List.flatMap_congr fun i hi => symsAt_append n hf.entries (by omega) (hf.root_lt hi)
    have hroots : rootsWithout q' n = rootsWithout [] n ++ q' := by cases n <;> rfl
    calc q.flatMap (symsAt (nodes ++ [n]))
      _ ~ symsAt (nodes ++ [n]) nodes.length ++ q'.flatMap (symsAt (nodes ++ [n])) := by
        simpa using hq.flatMap_right (symsAt (nodes ++ [n]))
      _ = (leafSym? n).toList ++ (rootsWithout q' n).flatMap (symsAt nodes) := by
        rw [symsAt_last h.entries hsize, List.append_assoc, ← List.flatMap_append, ← hroots, hsame]
      _ ~ (leafSym? n).toList ++ leafSyms nodes := (ih hf (by omega)).append_left _
      _ ~ leafSyms nodes ++ (leafSym? n).toList := List.perm_append_comm
      _ = leafSyms (nodes ++ [n]) := by cases n <;> simp [leafSyms, leafSym?]

theorem ArenaOk.forest {nodes : List Node} (ha : ArenaOk nodes) : Forest nodes [nodes.length - 1] := by
  obtain ⟨hpos, -, hentries, hperm, hcount⟩ := ha
  refine ⟨hentries, ?_, hcount⟩
  obtain ⟨k, hk⟩ : ∃ k, nodes.length = k + 1 := ⟨nodes.length - 1, by omega⟩
  rw [hk, Nat.add_sub_cancel] at hperm ⊢
  rw [List.range_succ]
  exact (hperm.cons k).trans (List.perm_append_singleton k _).symm

/-- The current tree has the arena's leaf entries as its leaves (10_state.md R31). -/
theorem State.currentTree_syms {s : State} (h : s.TreeOk) (hv : s.treeValid = true) :
    ∃ tree, s.currentTree = some tree ∧ tree.syms.Perm (leafSyms s.nodes) := by
  obtain ⟨tree, htree, -⟩ := State.currentTree_exists h hv
  obtain ⟨ha, -, hroot, -⟩ := h.1 hv
  obtain ⟨-, hsize, -, -, -⟩ := id ha
  refine ⟨tree, htree, ?_⟩
  have hperm := ha.forest.symsAt_perm hsize
  rwa [List.flatMap_singleton, ← hroot, Nat.add_sub_cancel, symsAt_of_unfoldTree htree le_rfl] at hperm

/-- GENCODES of a tree whose leaves have different symbols succeeds, with a code for each of them
(41_code_table.md R90, R91). -/
theorem execGencodes_of_nodup {s : State} (h : s.TreeOk) (hv : s.treeValid = true) (hn : (leafSyms s.nodes).Nodup) :
    ∃ ct, execGencodes s = complete { s with ct := ct, tableValid := true } ∧
      ∀ sym, (codeOf ct sym).isSome ↔ sym ∈ leafSyms s.nodes := by
  obtain ⟨tree, htree, hperm⟩ := State.currentTree_syms h hv
  have hdup : (tableOf tree).2 = false := (tableOf_noDup tree).2 (hperm.nodup_iff.2 hn)
  have htable : tableOf tree = ((tableOf tree).1, false) := by rw [← hdup]
  refine ⟨(tableOf tree).1, ?_, fun sym => (codeOf_tableOf_isSome tree sym).trans hperm.mem_iff⟩
  rw [execGencodes, if_neg (by simp [hv]), htree]
  dsimp only
  rw [htable]

/-- The leaves of BUILD's arena are the present symbols, in their order. -/
theorem leafSyms_buildArena (present : List (Symbol × Word)) :
    leafSyms (buildArena present) = present.map Prod.fst := by
  obtain ⟨branches, hres, hbr⟩ := buildArena_eq_append present
  have hnone : branches.filterMap leafSym? = [] := by
    refine List.filterMap_eq_nil_iff.2 fun n hn => ?_
    have hn' := hbr n hn
    cases n with
    | leaf sym f => simp at hn'
    | branch f l r => rfl
  have hseed : (seedLeaves present).filterMap leafSym? = present.map Prod.fst := by
    simp [seedLeaves, Function.comp_def, leafSym?]
  rw [hres, leafSyms, List.filterMap_append, hnone, hseed, List.append_nil]

/-- Settles O22: the leaves BUILD seeds are the present symbols, once each. -/
theorem buildAndGencodesCodeEveryPresentSymbol : Obligations.BuildAndGencodesCodeEveryPresentSymbol := by
  intro s hex htotal
  have hne := State.present_ne_nil hex
  rw [← s.freqTotal_present] at htotal
  obtain ⟨harena, hleaves⟩ := buildArena_arenaOk hne s.present_length_le htotal
  have htree := hleaves ▸ s.installTree_treeOk harena
  have hnodup : (leafSyms (buildArena s.present)).Nodup := leafSyms_buildArena s.present ▸ s.present_symbols_nodup
  obtain ⟨ct, hgen, hct⟩ := execGencodes_of_nodup
    (s := (s.installTree (buildArena s.present) s.present.length).finish .ok) htree rfl hnodup
  refine ⟨_, _, execBuild_fits hne htotal, hgen, rfl, rfl, fun sym => (hct sym).trans ?_⟩
  have hmem := s.mem_present sym
  simp [leafSyms_buildArena, hmem]

end Sys2Proof.Machine
end

section
/-! PROOFS, family 41_code_table. When two leaves of an arena have one symbol (41_code_table.md R92), the code a visit
gives each path of its tree (R90), and GENCODES with either kind of tree and without one. -/

namespace Sys2Proof.Machine

/-! ### Leaves of one symbol (41_code_table.md R92) -/

theorem leafSym?_eq_some {n : Node} {sym : Symbol} : leafSym? n = some sym ↔ ∃ f, n = .leaf sym f := by
  cases n <;> simp [leafSym?]

/-- The symbols of the leaf entries are different when no two entries are leaves of one symbol. -/
theorem leafSyms_nodup_iff {nodes : List Node} :
    (leafSyms nodes).Nodup ↔ ∀ i j sym f g, i < j → j < nodes.length → arenaAt nodes i = .leaf sym f →
      arenaAt nodes j ≠ .leaf sym g := by
  rw [leafSyms, List.Nodup, List.pairwise_filterMap, List.pairwise_iff_getElem]
  constructor
  · intro h i j sym f g hij hj hleaf hleaf'
    rw [arenaAt_eq_getElem (hij.trans hj)] at hleaf
    rw [arenaAt_eq_getElem hj] at hleaf'
    exact h i j (hij.trans hj) hj hij sym (leafSym?_eq_some.2 ⟨f, hleaf⟩) sym (leafSym?_eq_some.2 ⟨g, hleaf'⟩) rfl
  · rintro h i j hi hj hij sym hsym _ hsym' rfl
    obtain ⟨f, hleaf⟩ := leafSym?_eq_some.1 hsym
    obtain ⟨g, hleaf'⟩ := leafSym?_eq_some.1 hsym'
    rw [← arenaAt_eq_getElem hi] at hleaf
    rw [← arenaAt_eq_getElem hj] at hleaf'
    exact h i j sym f g hij hj hleaf hleaf'

/-- GENCODES notes a second leaf of one symbol when the arena has one (10_state.md R31, 41_code_table.md R92). -/
theorem State.tableOf_currentTree_noDup {s : State} (h : s.TreeOk) (hv : s.treeValid = true) {tree : Tree}
    (htree : s.currentTree = some tree) : (tableOf tree).2 = false ↔ (leafSyms s.nodes).Nodup := by
  obtain ⟨tree', htree', hperm⟩ := State.currentTree_syms h hv
  obtain rfl : tree = tree' := Option.some.inj (htree.symm.trans htree')
  exact (tableOf_noDup tree).trans hperm.nodup_iff

/-! ### Every path to a leaf is recorded (41_code_table.md R90, R91) -/

/-- Only NIL unfolds to an absent tree. -/
theorem unfoldTree_eq_absent {nodes : List Node} {depth : Nat} {i : NodeIdx}
    (h : unfoldTree nodes depth i = some .absent) : i = Config.nil := by
  cases depth with
  | zero => simp [unfoldTree] at h
  | succ depth =>
    rw [unfoldTree] at h
    by_contra hi
    rw [if_neg hi] at h
    split at h
    · simp at h
    · split at h <;> simp at h

/-- A path to a leaf is empty at that leaf. -/
theorem leadsTo_of_leaf {nodes : List Node} {i : NodeIdx} {sym sym' : Symbol} {f : Word} {path : Code}
    (hn : arenaAt nodes i.toNat = .leaf sym' f) (h : LeadsTo nodes i path sym) : path = [] ∧ sym = sym' := by
  have hnil := leadsTo_nil hn
  refine ⟨?_, (hnil.eq_of_isPrefix h List.nil_prefix).symm⟩
  obtain ⟨j, g, hwalk, -⟩ := h
  by_contra hne
  simp [walkPath_leaf hn hne] at hwalk

/-- A path from a branch to a leaf begins with a move to a child that is not NIL. -/
theorem leadsTo_of_branch {nodes : List Node} {i l r : NodeIdx} {sym : Symbol} {f : Word} {path : Code}
    (hn : arenaAt nodes i.toNat = .branch f l r) (h : LeadsTo nodes i path sym) :
    ∃ b q, path = b :: q ∧ (if b then r else l) ≠ Config.nil ∧ LeadsTo nodes (if b then r else l) q sym := by
  obtain ⟨j, g, hwalk, hleaf⟩ := h
  cases path with
  | nil =>
    obtain rfl : i = j := by simpa [walkPath] using hwalk
    simp [hn] at hleaf
  | cons b q =>
    by_cases hne : (if b then r else l) = Config.nil
    · simp [walkPath, hn, hne] at hwalk
    · exact ⟨b, q, rfl, hne, j, g, (walkPath_cons hn b hne q).symm.trans hwalk, hleaf⟩

/-- Recording a code keeps the codes already there. -/
theorem codeOf_recordCode_of_some {sym sym' : Symbol} {path p : Code} {w : WorkTable}
    (h : codeOf w.1 sym' = some p) : codeOf (recordCode sym path w).1 sym' = some p := by
  rw [recordCode]
  split
  next hnone =>
    have hne : sym.toNat ≠ sym'.toNat := by
      intro he
      obtain rfl := BitVec.eq_of_toNat_eq he
      exact Option.some_ne_none p (h.symm.trans hnone)
    simpa [codeOf, hne] using h
  · exact h

theorem codeOf_recordCode_self {sym : Symbol} {w : WorkTable} (path : Code) (h : codeOf w.1 sym = none) :
    codeOf (recordCode sym path w).1 sym = some path := by
  have hnone : w.1[sym.toNat]'sym.isLt = none := h
  rw [recordCode, hnone]
  simp [codeOf]

/-- A visit keeps the codes already there. -/
theorem codeOf_visitTree_of_some {sym : Symbol} {p : Code} (t : Tree) (path : Code) {w : WorkTable}
    (h : codeOf w.1 sym = some p) : codeOf (visitTree t path w).1 sym = some p := by
  induction t generalizing path w with
  | absent => exact h
  | leaf sym' f => exact codeOf_recordCode_of_some h
  | branch f l r ihl ihr => exact ihr _ (ihl _ h)

/-- A visit that notes no second leaf records, for each path to a leaf, the path so far and then that path. -/
theorem codeOf_visitTree_of_leadsTo {nodes : List Node} {t : Tree} {depth : Nat} {i : NodeIdx} {path q : Code}
    {w : WorkTable} {sym : Symbol} (hi : i ≠ Config.nil) (ht : unfoldTree nodes depth i = some t)
    (hdup : (visitTree t path w).2 = false) (hq : LeadsTo nodes i q sym) :
    codeOf (visitTree t path w).1 sym = some (path ++ q) := by
  induction t generalizing depth i path q w with
  | absent => exact absurd (unfoldTree_eq_absent ht) hi
  | leaf sym' f =>
    obtain ⟨-, hn⟩ := unfoldTree_eq_leaf ht
    obtain ⟨rfl, rfl⟩ := leadsTo_of_leaf hn hq
    obtain ⟨-, hnone⟩ := (recordCode_noDup sym path w).1 hdup
    rw [List.append_nil]
    exact codeOf_recordCode_self path hnone
  | branch f tl tr ihl ihr =>
    obtain ⟨-, l, r, d, hn, hl, hr⟩ := unfoldTree_eq_branch ht
    obtain ⟨hdupl, -, -⟩ := (visitTree_noDup tr _ _).1 hdup
    obtain ⟨b, q, rfl, hne, hq⟩ := leadsTo_of_branch hn hq
    rw [List.append_cons]
    cases b
    · exact codeOf_visitTree_of_some tr _ (ihl hne hl hdupl hq)
    · exact ihr hne hr hdup hq

/-- The table of a tree without two leaves of one symbol holds exactly the paths to its leaves
(41_code_table.md R91). -/
theorem codeOf_tableOf_eq_some_iff {nodes : List Node} {t : Tree} {depth : Nat} {i : NodeIdx}
    (hi : i ≠ Config.nil) (ht : unfoldTree nodes depth i = some t) (hdup : (tableOf t).2 = false) (sym : Symbol)
    (path : Code) : codeOf (tableOf t).1 sym = some path ↔ LeadsTo nodes i path sym := by
  refine ⟨fun h => ?_, codeOf_visitTree_of_leadsTo hi ht hdup⟩
  obtain h0 | ⟨-, q, rfl, hq⟩ := codeOf_visitTree ht h
  · simp [codeOf] at h0
  · exact hq

/-! ### GENCODES (41_code_table.md R90, R92) -/

theorem execGencodes_noTree {s : State} (h : s.treeValid = false) : execGencodes s = raiseError .noTree s := if_pos h

theorem execGencodes_dupLeaf {s : State} (h : s.TreeOk) (hv : s.treeValid = true)
    (hn : ¬(leafSyms s.nodes).Nodup) : execGencodes s = raiseError .dupLeaf s.clearTable := by
  obtain ⟨t, ht, -⟩ := execGencodes_ends h
  rw [ht]
  obtain ⟨hv', -⟩ | ⟨-, tree, htree, ⟨-, rfl⟩ | ⟨hdup, -⟩⟩ := execGencodes_next ht
  · exact absurd (hv'.symm.trans hv) (by decide)
  · rfl
  · exact absurd ((State.tableOf_currentTree_noDup h hv htree).1 hdup) hn

/-- Settles O19: the table GENCODES leaves is that of the tree unfolded from ROOT. -/
theorem gencodesRecordsEveryPath : Obligations.GencodesRecordsEveryPath := by
  intro s h hv huniq
  obtain ⟨ha, -, hroot, -⟩ := h.1 hv
  have hne : s.root ≠ Config.nil := toNat_ne_nil ha.2.1 (by omega)
  have hnodup : (leafSyms s.nodes).Nodup := leafSyms_nodup_iff.2 fun i j sym f g hij hj hleaf hleaf' =>
    hij.ne (huniq i j sym f g (hij.trans hj) hj hleaf hleaf')
  obtain ⟨ct, hgen, -⟩ := execGencodes_of_nodup h hv hnodup
  obtain ⟨tree, htree, hct⟩ := execGencodes_ct hgen hv
  have hdup := (State.tableOf_currentTree_noDup h hv htree).2 hnodup
  obtain rfl : ct = (tableOf tree).1 := by simpa [hdup] using hct
  exact ⟨_, hgen, rfl, codeOf_tableOf_eq_some_iff hne htree hdup⟩

/-- Settles O20: TREE_VALID is the first check, and two leaves of one symbol make the symbols no longer different. -/
theorem gencodesRefuses : Obligations.GencodesRefuses := by
  refine fun s => ⟨fun hv => execGencodes_noTree hv, fun h hv hdup => execGencodes_dupLeaf h hv fun hnodup => ?_⟩
  obtain ⟨i, j, sym, f, g, hij, hj, hleaf, hleaf'⟩ := hdup
  exact leafSyms_nodup_iff.1 hnodup i j sym f g hij hj hleaf hleaf'

end Sys2Proof.Machine
end

section
/-! PROOFS, family 42_compressor. What ENCODE's scan writes for coded symbols and the errors it ends in
(42_compressor.md R96, R97), what DECODE's walk makes of root-to-leaf paths (44_decompressor.md R111), and the round
trip of the two, with or without SERIALIZE and DESERIALIZE between (R114). -/

namespace Sys2Proof.Machine

/-! ### ENCODE's scan, symbol by symbol (42_compressor.md R96) -/

section encodeStream
variable {ct : Vector (Option Code) 256} {room : Nat} {sym : Symbol} {code : Code}

theorem encodeStream_miss (h : codeOf ct sym = none) (rest : List Byte) :
    encodeStream ct room (sym :: rest) = .error .lookupMiss := by
  simp [encodeStream, h]

theorem encodeStream_full (h : codeOf ct sym = some code) (hroom : room < code.length) (rest : List Byte) :
    encodeStream ct room (sym :: rest) = .error .dstFull := by
  simp [encodeStream, h, hroom]

/-- A symbol whose code fits is replaced by the bytes of its code. -/
theorem encodeStream_coded (h : codeOf ct sym = some code) (hroom : code.length ≤ room) (rest : List Byte) :
    encodeStream ct room (sym :: rest) =
      (encodeStream ct (room - code.length) rest).map (code.map codeByte ++ ·) := by
  rw [encodeStream, h]
  dsimp only
  rw [if_neg (Nat.not_lt.2 hroom)]
  cases encodeStream ct (room - code.length) rest <;> rfl

/-- Symbols whose codes fit together are replaced by the bytes of their codes, in order. -/
theorem encodeStream_append {pre : List Byte} {codes : List Code} (hpre : pre.map (codeOf ct) = codes.map some)
    (hroom : codes.flatten.length ≤ room) (rest : List Byte) :
    encodeStream ct room (pre ++ rest) =
      (encodeStream ct (room - codes.flatten.length) rest).map (codes.flatten.map codeByte ++ ·) := by
  induction pre generalizing codes room with
  | nil =>
    obtain rfl : codes = [] := by simpa using hpre.symm
    cases h : encodeStream ct room rest <;> simp [h, Except.map]
  | cons sym pre ih =>
    cases codes with
    | nil => simp at hpre
    | cons code codes =>
      obtain ⟨hsym, hpre⟩ := List.cons.inj hpre
      rw [List.flatten_cons, List.length_append] at hroom
      rw [List.cons_append, encodeStream_coded hsym (by omega), ih hpre (by omega), List.flatten_cons,
        List.length_append, Nat.sub_add_eq]
      cases encodeStream ct (room - code.length - codes.flatten.length) rest <;> simp [Except.map]

/-- What the scan has written is the codes of its input's symbols, one run after another. -/
theorem encodeStream_runs {src out : List Byte} (h : encodeStream ct room src = .ok out) :
    ∃ runs : List (Code × Symbol), (∀ p ∈ runs, codeOf ct p.2 = some p.1) ∧ runs.map Prod.snd = src ∧
      (runs.map Prod.fst).flatten.map codeByte = out := by
  induction src generalizing room out with
  | nil =>
    obtain rfl : [] = out := by simpa [encodeStream] using h
    exact ⟨[], by simp, rfl, rfl⟩
  | cons sym src ih =>
    cases hcode : codeOf ct sym with
    | none => simp [encodeStream_miss hcode] at h
    | some code =>
      by_cases hroom : room < code.length
      · simp [encodeStream_full hcode hroom] at h
      rw [encodeStream_coded hcode (Nat.le_of_not_lt hroom)] at h
      cases hrest : encodeStream ct (room - code.length) src with
      | error e => simp [hrest, Except.map] at h
      | ok out' =>
        obtain rfl : code.map codeByte ++ out' = out := by simpa [hrest, Except.map] using h
        obtain ⟨runs, hruns, rfl, rfl⟩ := ih hrest
        exact ⟨(code, sym) :: runs, List.forall_mem_cons.2 ⟨hcode, hruns⟩, rfl, by simp⟩

end encodeStream

/-! ### ENCODE past its checks (42_compressor.md R96, R97) -/

section encode
variable {s : State} {out : List Byte} {e : ErrCode}

theorem execEncode_scan_ok (hv : s.tableValid = true) (hsrc : s.srcOk = true) (hdst : s.dstOk = true)
    (hover : s.overlaps = false) (h : encodeStream s.ct s.dcap.toNat s.sourceBytes = .ok out) :
    execEncode s = complete (s.putOutput out) := by
  simp [execEncode, hv, hsrc, hdst, hover, h]

theorem execEncode_scan_error (hv : s.tableValid = true) (hsrc : s.srcOk = true) (hdst : s.dstOk = true)
    (hover : s.overlaps = false) (h : encodeStream s.ct s.dcap.toNat s.sourceBytes = .error e) :
    execEncode s = encodeFailed e s := by
  simp [execEncode, hv, hsrc, hdst, hover, h]

/-- A lookup miss sets FATAL (42_compressor.md R97). -/
theorem encodeFailed_lookupMiss (s : State) :
    encodeFailed .lookupMiss s = raiseError .lookupMiss { s.havocDst with fatal := true } :=
  congrArg (fun b => raiseError .lookupMiss { s.havocDst with fatal := b }) (Bool.or_true s.fatal)

theorem encodeFailed_dstFull (s : State) : encodeFailed .dstFull s = raiseError .dstFull s.havocDst :=
  congrArg (fun b => raiseError .dstFull { s.havocDst with fatal := b }) (Bool.or_false s.fatal)

/-- An ENCODE that ends in success has stored the output of its scan in a window that lies in LMEM. -/
theorem execEncode_ok {t : State} (h : execEncode s = .next t) (hok : t.errcode = .ok) :
    s.tableValid = true ∧ s.dstOk = true ∧
      ∃ out, encodeStream s.ct s.dcap.toNat s.sourceBytes = .ok out ∧ t = (s.putOutput out).finish .ok := by
  obtain ⟨-, rfl⟩ | ⟨-, -, rfl⟩ | ⟨hv, -, hdst, ⟨-, rfl⟩ | ⟨-, hstored | ⟨e, he, rfl⟩⟩⟩ := execEncode_next h
  · exact absurd hok (by simp)
  · exact absurd hok (by simp)
  · exact absurd hok (by simp)
  · exact ⟨hv, hdst, hstored⟩
  · obtain rfl : e = .ok := hok
    exact absurd (encodeStream_error he) (by decide)

end encode

/-- The byte of an output at a position where it has one. -/
theorem State.readByte_putOutput_of_getElem? (s : State) {out : List Byte} {j : Nat} {v : Byte}
    (h : out[j]? = some v) : (s.putOutput out).readByte (s.dst.toNat + j) = v := by
  obtain ⟨hj, rfl⟩ := List.getElem?_eq_some_iff.1 h
  exact s.readByte_putOutput_inside hj

/-- Settles O24: the scan writes every code, and no more. -/
theorem encodeWritesTheCodes : Obligations.EncodeWritesTheCodes := by
  intro s codes hv hsrc hdst hover hcodes hfits
  have hscan : encodeStream s.ct s.dcap.toNat s.sourceBytes = .ok (codes.flatten.map codeByte) := by
    simpa [encodeStream, Except.map] using encodeStream_append hcodes hfits []
  have hlen : (codes.flatten.map codeByte).length = codes.flatten.length := List.length_map _
  refine ⟨_, execEncode_scan_ok hv hsrc hdst hover hscan, rfl, ?_, fun j b hb => ?_, fun a ha => ?_⟩
  · exact (s.putOutput_rlen_toNat (hlen.trans_le hfits)).trans hlen
  · exact s.readByte_putOutput_of_getElem? (by rw [List.getElem?_map, hb]; rfl)
  · exact s.readByte_putOutput_outside (hlen ▸ ha)

/-- Settles O25: the scan passes the symbols whose codes fit, and its first error gives the code. -/
theorem encodeScanErrors : Obligations.EncodeScanErrors := by
  intro s pre post sym codes hv hsrc hdst hover hsource hpre hfits
  have hscan := encodeStream_append hpre hfits (sym :: post)
  rw [← hsource] at hscan
  refine ⟨fun hmiss => ?_, fun code hcode hfull => ?_⟩
  · rw [encodeStream_miss hmiss] at hscan
    have hexec := (execEncode_scan_error hv hsrc hdst hover hscan).trans (encodeFailed_lookupMiss s)
    exact ⟨_, hexec, rfl, fun a ha => s.readByte_havocDst_outside ha⟩
  · rw [encodeStream_full hcode (by omega)] at hscan
    have hexec := (execEncode_scan_error hv hsrc hdst hover hscan).trans (encodeFailed_dstFull s)
    exact ⟨_, hexec, rfl, fun a ha => s.readByte_havocDst_outside ha⟩

/-! ### DECODE's walk, path by path (44_decompressor.md R111) -/

/-- The byte of a code symbol moves along that symbol's edge. -/
theorem moveOn_codeByte (f : Word) (l r : NodeIdx) (b : Bool) :
    moveOn (.branch f l r) (codeByte b) = some (if b then r else l) := by
  cases b <;> rfl

section decodeStream
variable {nodes : List Node} {root cur l r : NodeIdx} {f : Word} {b : Bool}

/-- A move to a branch goes on from that branch. -/
theorem decodeStream_toBranch (hcur : arenaAt nodes cur.toNat = .branch f l r)
    (hne : (if b then r else l) ≠ Config.nil) (hbr : (arenaAt nodes (if b then r else l).toNat).isBranch = true)
    (room : Nat) (rest : List Byte) :
    decodeStream nodes root cur room (codeByte b :: rest) =
      decodeStream nodes root (if b then r else l) room rest := by
  cases hn : arenaAt nodes (if b then r else l).toNat with
  | leaf sym g => simp [hn] at hbr
  | branch g l' r' => simp [decodeStream, hcur, moveOn_codeByte, hne, hn]

/-- A move to a leaf with room for its symbol writes the symbol and goes on from the root. -/
theorem decodeStream_toLeaf (hcur : arenaAt nodes cur.toNat = .branch f l r)
    (hne : (if b then r else l) ≠ Config.nil) {sym : Symbol} {g : Word}
    (hleaf : arenaAt nodes (if b then r else l).toNat = .leaf sym g) (room : Nat) (rest : List Byte) :
    decodeStream nodes root cur (room + 1) (codeByte b :: rest) =
      (decodeStream nodes root root room rest).map (sym :: ·) := by
  rw [decodeStream, hcur, moveOn_codeByte]
  simp only [if_neg hne, hleaf]
  cases decodeStream nodes root root room rest <;> rfl

/-- The bytes of a path from a branch to a leaf are replaced by the leaf's symbol. -/
theorem decodeStream_path {path : Code} {sym : Symbol} (hcur : (arenaAt nodes cur.toNat).isBranch = true)
    (hpath : LeadsTo nodes cur path sym) (room : Nat) (rest : List Byte) :
    decodeStream nodes root cur (room + 1) (path.map codeByte ++ rest) =
      (decodeStream nodes root root room rest).map (sym :: ·) := by
  induction path generalizing cur with
  | nil =>
    obtain ⟨i, g, hwalk, hleaf⟩ := hpath
    obtain rfl : cur = i := by simpa [walkPath] using hwalk
    simp [hleaf] at hcur
  | cons b path ih =>
    cases hn : arenaAt nodes cur.toNat with
    | leaf sym' g => simp [hn] at hcur
    | branch g l r =>
      obtain ⟨b', q, hcons, hne, hq⟩ := leadsTo_of_branch hn hpath
      obtain ⟨rfl, rfl⟩ := List.cons.inj hcons
      rw [List.map_cons, List.cons_append]
      cases hnext : arenaAt nodes (if b then r else l).toNat with
      | leaf sym' g' =>
        obtain ⟨rfl, rfl⟩ := leadsTo_of_leaf hnext hq
        exact decodeStream_toLeaf hn hne hnext room rest
      | branch g' l' r' =>
        have hbr : (arenaAt nodes (if b then r else l).toNat).isBranch = true := by rw [hnext]; rfl
        rw [decodeStream_toBranch hn hne hbr]
        exact ih hbr hq

/-- The bytes of root-to-leaf paths that fit together are replaced by the leaves' symbols, in order. -/
theorem decodeStream_runs {runs : List (Code × Symbol)} (hroot : (arenaAt nodes root.toNat).isBranch = true)
    (hruns : ∀ p ∈ runs, LeadsTo nodes root p.1 p.2) {room : Nat} (hroom : runs.length ≤ room) (rest : List Byte) :
    decodeStream nodes root root room ((runs.map Prod.fst).flatten.map codeByte ++ rest) =
      (decodeStream nodes root root (room - runs.length) rest).map (runs.map Prod.snd ++ ·) := by
  induction runs generalizing room with
  | nil => cases h : decodeStream nodes root root room rest <;> simp [h, Except.map]
  | cons p runs ih =>
    obtain ⟨hp, hruns⟩ := List.forall_mem_cons.1 hruns
    rw [List.length_cons] at hroom
    obtain ⟨k, rfl⟩ : ∃ k, room = k + 1 := ⟨room - 1, by omega⟩
    rw [List.map_cons, List.flatten_cons, List.map_append, List.append_assoc, decodeStream_path hroot hp,
      ih hruns (by omega), List.length_cons, Nat.add_sub_add_right]
    cases decodeStream nodes root root (k - runs.length) rest <;> rfl

end decodeStream

section decode
variable {s : State}

theorem execDecode_scan_ok {out : List Byte} (hv : s.treeValid = true)
    (hroot : (s.nodeAt s.root.toNat).isBranch = true) (hsrc : s.srcOk = true) (hdst : s.dstOk = true)
    (hover : s.overlaps = false)
    (h : decodeStream s.nodes s.root s.root s.dcap.toNat s.sourceBytes = .ok out) :
    execDecode s = complete (s.putOutput out) := by
  simp [execDecode, hv, hroot, hsrc, hdst, hover, h]

/-- DECODE of root-to-leaf paths that fit stores their leaves' symbols (44_decompressor.md R111). -/
theorem execDecode_runs {runs : List (Code × Symbol)} (hv : s.treeValid = true)
    (hroot : (s.nodeAt s.root.toNat).isBranch = true) (hsrc : s.srcOk = true) (hdst : s.dstOk = true)
    (hover : s.overlaps = false) (hruns : ∀ p ∈ runs, LeadsTo s.nodes s.root p.1 p.2)
    (hsource : s.sourceBytes = (runs.map Prod.fst).flatten.map codeByte) (hfits : runs.length ≤ s.dcap.toNat) :
    execDecode s = complete (s.putOutput (runs.map Prod.snd)) := by
  refine execDecode_scan_ok hv hroot hsrc hdst hover ?_
  simpa [hsource, decodeStream, Except.map] using decodeStream_runs hroot hruns hfits []

end decode

/-- Settles O34: each path is replaced by its leaf's symbol, and the walk ends at the root. -/
theorem decodeWritesTheSymbols : Obligations.DecodeWritesTheSymbols := by
  intro s runs hv hroot hsrc hdst hover hruns hsource hfits
  have hlen : (runs.map Prod.snd).length = runs.length := List.length_map _
  refine ⟨_, execDecode_runs hv hroot hsrc hdst hover hruns hsource hfits, rfl, ?_, fun j p hp => ?_, fun a ha => ?_⟩
  · exact (s.putOutput_rlen_toNat (hlen.trans_le hfits)).trans hlen
  · exact s.readByte_putOutput_of_getElem? (by rw [List.getElem?_map, hp]; rfl)
  · exact s.readByte_putOutput_outside (hlen ▸ ha)

/-! ### The windows of commands that follow one another (20_memory.md R54 to R56) -/

/-- Two states have the same bytes in a range when they agree byte by byte. -/
theorem State.readBytes_congr {s t : State} {a n : Nat} (h : ∀ j < n, t.readByte (a + j) = s.readByte (a + j)) :
    t.readBytes a n = s.readBytes a n := by
  refine List.ext_getElem? fun j => ?_
  rw [State.readBytes_getElem?, State.readBytes_getElem?]
  split_ifs with hj
  · rw [h j hj]
  · rfl

/-- An output that fits DCAP leaves the source window of its own command as it was (log 14). -/
theorem State.sourceBytes_putOutput {s : State} {out : List Byte} (hover : s.overlaps = false)
    (hfits : out.length ≤ s.dcap.toNat) : (s.putOutput out).sourceBytes = s.sourceBytes := by
  have hout : ∀ j < s.slen.toNat,
      ¬(s.dst.toNat ≤ s.src.toNat + j ∧ s.src.toNat + j < s.dst.toNat + out.length) := by
    rintro j hj ⟨hlo, hhi⟩
    have hslen : s.slen.toNat ≠ 0 := by omega
    have hdcap : s.dcap.toNat ≠ 0 := by omega
    have hshare := s.overlaps_iff.2
      ⟨mt (congrArg BitVec.toNat) hslen, mt (congrArg BitVec.toNat) hdcap, by omega, by omega⟩
    simp [hover] at hshare
  exact State.readBytes_congr fun j hj => s.readByte_putOutput_outside (hout j hj)

/-- The output of a command is what the next command reads when its source window is DST and RLEN. -/
theorem State.source_of_output {s t : State} {out : List Byte} (hdst : s.dstOk = true)
    (hfits : out.length ≤ s.dcap.toNat) (hsize : t.lmemSize = s.lmemSize)
    (hread : t.readByte = (s.putOutput out).readByte) (hsrc : t.src = s.dst)
    (hslen : t.slen = (s.putOutput out).rlen) : t.srcOk = true ∧ t.sourceBytes = out := by
  have hlen : t.slen.toNat = out.length := by rw [hslen, s.putOutput_rlen_toNat hfits]
  have hin : s.dst.toNat + s.dcap.toNat ≤ s.lmemSize := by simpa [State.dstOk] using hdst
  refine ⟨by simp only [State.srcOk, hsrc, hlen, hsize, decide_eq_true_eq]; omega, ?_⟩
  refine t.readBytes_eq hlen.symm fun j hj => ?_
  rw [hread, hsrc]
  exact s.readByte_putOutput_inside hj

/-! ### SERIALIZE of the current tree (43_tree_codec.md R102, R103) -/

theorem Tree.syms_length (t : Tree) : t.syms.length = t.leafCount := by
  induction t with
  | absent => rfl
  | leaf => rfl
  | branch f l r ihl ihr => simp [Tree.syms, Tree.leafCount, ihl, ihr]

theorem leafSyms_length (nodes : List Node) : (leafSyms nodes).length = leafEntries nodes := by
  induction nodes with
  | nil => rfl
  | cons n nodes ih =>
    cases n with
    | leaf sym f => exact congrArg Nat.succ ih
    | branch f l r => exact ih

/-- The current tree has NLEAVES leaves, and SERIALIZE's string spells it. -/
theorem State.serialized_spells {s : State} (h : s.TreeOk) (hv : s.treeValid = true) :
    ∃ tree out, s.currentTree = some tree ∧ s.serialized = some out ∧ Spells s.lit s.br tree out ∧
      tree.leafCount = s.nleaves.toNat := by
  obtain ⟨tree, htree, hperm⟩ := State.currentTree_syms h hv
  obtain ⟨out, hout⟩ := State.serialized_exists h hv
  obtain ⟨-, -, -, hnl⟩ := h.1 hv
  have hser : serializeTree s.lit s.br tree = some out := by simpa [State.serialized, htree] using hout
  refine ⟨tree, out, htree, hout, serializeTree_spells hser, ?_⟩
  rw [hnl, ← Tree.syms_length, hperm.length_eq, leafSyms_length]

theorem execSerialize_fits {s : State} {out : List Byte} (hv : s.treeValid = true) (hne : s.lit ≠ s.br)
    (hdst : s.dstOk = true) (hout : s.serialized = some out) (hfits : out.length ≤ s.dcap.toNat) :
    execSerialize s = complete (s.putOutput out) := by
  simp [execSerialize, State.markersClash, hv, hne, hdst, hout, Nat.not_lt.2 hfits]

/-! ### DESERIALIZE of a string that spells a tree (43_tree_codec.md R105, R106, R108) -/

/-- An index inside the arena is an index as the arena stores it, and is not NIL. -/
theorem ofNat_index {i : Nat} (hi : i < Config.nodeMax) :
    (BitVec.ofNat 9 i).toNat = i ∧ BitVec.ofNat 9 i ≠ Config.nil := by
  rw [Config.nodeMax] at hi
  have hidx : (BitVec.ofNat 9 i).toNat = i := by
    rw [BitVec.toNat_ofNat]
    omega
  refine ⟨hidx, fun h => ?_⟩
  have hnil : Config.nil.toNat = 511 := rfl
  rw [h, hnil] at hidx
  omega

theorem arenaAt_append_cons (pre post : List Node) (n : Node) : arenaAt (pre ++ n :: post) pre.length = n := by
  simp [arenaAt]

section spells
variable {lit br : Byte} {t : Tree} {x : List Byte}

/-- The entries of a tree in post-order unfold to the tree from the last of them, wherever they stand in an arena. -/
theorem Spells.unfoldTree_postOrder (h : Spells lit br t x) (pre post : List Node) {depth : Nat}
    (hsize : pre.length + (t.zeroFreq.postOrder pre.length).length ≤ Config.nodeMax)
    (hdepth : (t.zeroFreq.postOrder pre.length).length ≤ depth) :
    unfoldTree (pre ++ t.zeroFreq.postOrder pre.length ++ post) depth
      (BitVec.ofNat 9 (pre.length + (t.zeroFreq.postOrder pre.length).length - 1)) = some t.zeroFreq := by
  induction h generalizing pre post depth with
  | leaf sym f =>
    obtain ⟨d, rfl⟩ := Nat.exists_eq_add_one.2 hdepth
    obtain ⟨hidx, hne⟩ := ofNat_index (i := pre.length) hsize
    have hn := arenaAt_append_cons pre post (.leaf sym 0)
    rw [← hidx] at hn
    simpa [Tree.zeroFreq, Tree.postOrder] using unfoldTree_leaf (depth := d) hne hn
  | @branch f l r x y hl hr ihl ihr =>
    have hulen := hl.postOrder_length pre.length
    have hvlen := hr.postOrder_length (pre.length + (l.zeroFreq.postOrder pre.length).length)
    have hlpos := hl.leafCount_pos
    have hrpos := hr.leafCount_pos
    have ihl := fun post => ihl pre post (depth := depth - 1)
    have ihr := fun post => ihr (pre ++ l.zeroFreq.postOrder pre.length) post (depth := depth - 1)
    simp only [Tree.zeroFreq, Tree.postOrder, List.length_append, List.length_cons, List.length_nil] at *
    generalize l.zeroFreq.postOrder pre.length = u at *
    generalize r.zeroFreq.postOrder (pre.length + u.length) = v at *
    obtain ⟨d, rfl⟩ := Nat.exists_eq_add_one.2 (show 0 < depth by omega)
    generalize hbr : Node.branch 0 (BitVec.ofNat 9 (pre.length + u.length - 1))
      (BitVec.ofNat 9 (pre.length + u.length + v.length - 1)) = n
    have hroot : pre.length + (u.length + v.length + 1) - 1 = (pre ++ u ++ v).length := by
      simp only [List.length_append]
      omega
    obtain ⟨hidx, hne⟩ := ofNat_index (i := (pre ++ u ++ v).length) (by omega)
    have hn := arenaAt_append_cons (pre ++ u ++ v) post n
    have hleft := ihl (v ++ n :: post) (by omega) (by omega)
    have hright := ihr (n :: post) (by omega) (by omega)
    rw [show pre ++ (u ++ v ++ [n]) ++ post = pre ++ u ++ v ++ n :: post by simp, hroot]
    rw [← List.append_assoc] at hleft
    rw [← hidx] at hn
    exact unfoldTree_branch hne (hn.trans hbr.symm) hleft hright

/-- The scan of a string that spells a tree of at most 256 leaves builds the tree's entries in post-order. -/
theorem Spells.deserializeBytes_eq (h : Spells lit br t x) (hne : lit ≠ br) (hleaves : t.leafCount ≤ 256) :
    deserializeBytes lit br x = .ok ⟨t.zeroFreq.postOrder 0, t.leafCount, [2 * t.leafCount - 2]⟩ := by
  have hscan := h.scan hne ⟨[], 0, []⟩ (by simp) (by simp [Config.nodeMax]; omega) []
  simp only [List.append_nil, scanTopology_nil, List.nil_append, List.length_nil, Nat.zero_add] at hscan
  simp [deserializeBytes, hscan]

theorem execDeserialize_spells {s : State} (hne : s.lit ≠ s.br) (hsrc : s.srcOk = true)
    (h : Spells s.lit s.br t s.sourceBytes) (hleaves : t.leafCount ≤ 256) :
    execDeserialize s = complete (s.installTree (t.zeroFreq.postOrder 0) t.leafCount) := by
  simp [execDeserialize, State.markersClash, hne, hsrc, h.deserializeBytes_eq hne hleaves]

/-- The installed entries are the tree with every frequency 0. -/
theorem Spells.installTree_currentTree (h : Spells lit br t x) (hleaves : t.leafCount ≤ 256) (s : State) :
    (s.installTree (t.zeroFreq.postOrder 0) t.leafCount).currentTree = some t.zeroFreq := by
  have hlen := h.postOrder_length 0
  have hsize : (t.zeroFreq.postOrder 0).length ≤ Config.nodeMax := by rw [Config.nodeMax]; omega
  have hunfold := h.unfoldTree_postOrder [] [] (by simpa using hsize) (Nat.le_succ_of_le hsize)
  simpa [State.currentTree, State.installTree] using hunfold

end spells

/-- A current tree has at most 256 leaves (10_state.md R31). -/
theorem State.TreeOk.nleaves_le {s : State} (h : s.TreeOk) (hv : s.treeValid = true) : s.nleaves.toNat ≤ 256 := by
  obtain ⟨⟨-, hsize, -, -, hcount⟩, -, -, hnl⟩ := h.1 hv
  rw [Config.nodeMax] at hsize
  omega

/-- SERIALIZE and then DESERIALIZE, with room for the string, replace the current tree by the same tree with every
frequency 0 and leave the source window of the SERIALIZE as it was (43_tree_codec.md R108). -/
theorem exec_serialize_deserialize {s : State} (h : s.TreeOk) (hv : s.treeValid = true) (hne : s.lit ≠ s.br)
    (hdst : s.dstOk = true) (hfits : 3 * s.nleaves.toNat - 1 ≤ s.dcap.toNat) (hover : s.overlaps = false) :
    ∃ w x tree, exec .serialize s = .next w ∧ w.errcode = .ok ∧
      exec .deserialize { w with src := w.dst, slen := w.rlen } = .next x ∧ x.errcode = .ok ∧ x.treeValid = true ∧
      s.currentTree = some tree ∧ x.currentTree = some tree.zeroFreq ∧ x.lmemSize = s.lmemSize ∧
      x.readBytes s.src.toNat s.slen.toNat = s.sourceBytes := by
  obtain ⟨tree, out, htree, hout, hspells, hcount⟩ := State.serialized_spells h hv
  have hsmall : tree.leafCount ≤ 256 := hcount.trans_le (h.nleaves_le hv)
  have hlen := hspells.length
  have hroom : out.length ≤ s.dcap.toNat := by omega
  obtain ⟨hsrc, hbytes⟩ := State.source_of_output (s := s)
    (t := { (s.putOutput out).finish .ok with src := s.dst, slen := (s.putOutput out).rlen }) hdst hroom rfl rfl rfl rfl
  refine ⟨_, _, tree, execSerialize_fits hv hne hdst hout hroom, rfl,
    execDeserialize_spells hne hsrc (hbytes.symm ▸ hspells) hsmall, rfl, rfl, htree,
    hspells.installTree_currentTree hsmall _, rfl, ?_⟩
  rw [← State.sourceBytes_putOutput hover hroom]
  exact State.readBytes_congr fun _ _ => rfl

/-! ### DECODE of what ENCODE wrote (44_decompressor.md R114) -/

/-- A visit takes no account of the frequencies. -/
theorem visitTree_zeroFreq (t : Tree) (path : Code) (w : WorkTable) :
    visitTree t.zeroFreq path w = visitTree t path w := by
  induction t generalizing path w with
  | absent => rfl
  | leaf => rfl
  | branch f l r ihl ihr => simp [Tree.zeroFreq, visitTree, ihl, ihr]

theorem tableOf_zeroFreq (t : Tree) : tableOf t.zeroFreq = tableOf t := visitTree_zeroFreq t _ _

/-- An entry that unfolds to two or more leaves is a branch. -/
theorem isBranch_of_unfoldTree {nodes : List Node} {depth : Nat} {i : NodeIdx} {t : Tree}
    (h : unfoldTree nodes depth i = some t) (hleaves : 2 ≤ t.leafCount) : (arenaAt nodes i.toNat).isBranch = true := by
  cases t with
  | absent => simp [Tree.leafCount] at hleaves
  | leaf => simp [Tree.leafCount] at hleaves
  | branch f tl tr =>
    obtain ⟨-, l, r, -, hn, -, -⟩ := unfoldTree_eq_branch h
    rw [hn]
    rfl

/-- DECODE gives back the input of an ENCODE when its current tree has the table that ENCODE used. -/
theorem execDecode_encoded {s : State} {tree : Tree} {ct : Vector (Option Code) 256} {room : Nat} {input : List Byte}
    (hv : s.treeValid = true) (htree : s.currentTree = some tree) (htable : tableOf tree = (ct, false))
    (hleaves : 2 ≤ tree.leafCount) (hsrc : s.srcOk = true) (hdst : s.dstOk = true) (hover : s.overlaps = false)
    (hsource : encodeStream ct room input = .ok s.sourceBytes) (hfits : input.length ≤ s.dcap.toNat) :
    execDecode s = complete (s.putOutput input) := by
  obtain ⟨runs, hruns, rfl, hbytes⟩ := encodeStream_runs hsource
  have hroot : (s.nodeAt s.root.toNat).isBranch = true := isBranch_of_unfoldTree htree hleaves
  refine execDecode_runs hv hroot hsrc hdst hover (fun p hp => ?_) hbytes.symm (by simpa using hfits)
  have hcoded : ({ s with ct := ct, tableValid := true } : State).TableOk :=
    ⟨fun _ => ⟨hv, (congrArg (Option.map tableOf) htree).trans (congrArg some htable)⟩, fun h => absurd h (by simp)⟩
  exact (hcoded.leadsTo (hruns p hp)).2

/-- The source window of s stored by a command at DST of u: RLEN is its length, and its bytes stand there. -/
theorem complete_putOutput_sourceBytes (s u : State) :
    ∃ v, complete (u.putOutput s.sourceBytes) = .next v ∧ v.errcode = .ok ∧ v.rlen = s.slen ∧
      ∀ j < s.slen.toNat, v.readByte (u.dst.toNat + j) = s.readByte (s.src.toNat + j) := by
  refine ⟨_, rfl, rfl, BitVec.eq_of_toNat_eq ?_, fun j hj => u.readByte_putOutput_of_getElem? ?_⟩
  · simp [State.putOutput]
  · rw [State.sourceBytes, State.readBytes_getElem?, if_pos hj]

/-- Settles O37: the current tree, before and after its serialization, has the table that ENCODE used. -/
theorem decodeGivesTheEncodedInputBack : Obligations.DecodeGivesTheEncodedInputBack := by
  rintro s t dst dcap ⟨-, htree, htable, -⟩ hnleaves henc hok u givesBack hdst hover hfits
  obtain ⟨htv, hwindow, out, hscan, rfl⟩ := execEncode_ok henc hok
  obtain ⟨hv, hmap⟩ := htable.1 htv
  obtain ⟨tree, -, hcur, -, -, hcount⟩ := State.serialized_spells htree hv
  have hleaves : 2 ≤ tree.leafCount := hcount.symm ▸ hnleaves
  have htab : tableOf tree = (s.ct, false) := by simpa [hcur] using hmap
  have hout := encodeStream_length hscan
  rw [← s.sourceBytes_length] at hfits
  obtain ⟨hsrc, hbytes⟩ := State.source_of_output (t := u) hwindow hout rfl rfl rfl rfl
  constructor
  · have hdecode : execDecode u = complete (u.putOutput s.sourceBytes) :=
      execDecode_encoded hv hcur htab hleaves hsrc hdst hover (hbytes.symm ▸ hscan) hfits
    obtain ⟨v, hnext, hback⟩ := complete_putOutput_sourceBytes s u
    exact ⟨v, hdecode.trans hnext, hback⟩
  · intro sdst sdcap p hne hpdst hpover hpfits
    obtain ⟨hpsrc, hpbytes⟩ := State.source_of_output (t := p) hwindow hout rfl rfl rfl rfl
    obtain ⟨w, x, tree', hw, hwok, hx, hxok, hxv, hcur', hxcur, hxsize, hxbytes⟩ :=
      exec_serialize_deserialize (s := p) htree hv hne hpdst hpfits hpover
    obtain rfl : tree = tree' := Option.some.inj (hcur.symm.trans hcur')
    let d : State := { x with src := p.src, slen := p.slen, dst := dst, dcap := dcap }
    have hdsize : d.lmemSize = s.lmemSize := hxsize
    have hdsrc : d.srcOk = true := by rw [State.srcOk, hdsize]; exact hpsrc
    have hddst : d.dstOk = true := by rw [State.dstOk, hdsize]; exact hdst
    have hdbytes : d.sourceBytes = out := by
      rw [← hpbytes, ← hxbytes]
      exact State.readBytes_congr fun _ _ => rfl
    have hdecode : execDecode d = complete (d.putOutput s.sourceBytes) :=
      execDecode_encoded hxv hxcur ((tableOf_zeroFreq tree).trans htab) (by simpa using hleaves) hdsrc hddst hover
        (hdbytes.symm ▸ hscan) hfits
    obtain ⟨v, hnext, hback⟩ := complete_putOutput_sourceBytes s d
    exact ⟨w, x, v, hw, hwok, hx, hxok, hdecode.trans hnext, hback⟩

end Sys2Proof.Machine
end

section
/-! PROOFS, family 43_tree_codec. The checks of SERIALIZE and DESERIALIZE (43_tree_codec.md R101, R104), the string
SERIALIZE writes (R102), what DESERIALIZE makes of every string (R105 to R107), and that the two invert each other
(R108). -/

namespace Sys2Proof.Machine

/-! ### SERIALIZE, case by case (43_tree_codec.md R101, R102) -/

theorem State.markersClash_iff (s : State) : s.markersClash = true ↔ s.lit = s.br := decide_eq_true_iff

theorem State.markersClash_eq_false_iff (s : State) : s.markersClash = false ↔ s.lit ≠ s.br := decide_eq_false_iff_not

theorem State.dstOk_iff (s : State) : s.dstOk = true ↔ s.dst.toNat + s.dcap.toNat ≤ s.lmemSize := decide_eq_true_iff

theorem State.dstOk_eq_false_iff (s : State) : s.dstOk = false ↔ s.lmemSize < s.dst.toNat + s.dcap.toNat :=
  decide_eq_false_iff_not.trans Nat.not_le

theorem State.srcOk_eq_false_iff (s : State) : s.srcOk = false ↔ s.lmemSize < s.src.toNat + s.slen.toNat :=
  decide_eq_false_iff_not.trans Nat.not_le

section serialize
variable {s : State}

theorem execSerialize_noTree (h : s.treeValid = false) : execSerialize s = raiseError .noTree s := if_pos h

theorem execSerialize_markerCfg (hv : s.treeValid = true) (h : s.lit = s.br) :
    execSerialize s = raiseError .markerCfg s := by
  rw [execSerialize, if_neg (by simp [hv]), if_pos (s.markersClash_iff.2 h)]

theorem execSerialize_bounds (hv : s.treeValid = true) (hne : s.lit ≠ s.br) (h : s.dstOk = false) :
    execSerialize s = raiseError .bounds s := by
  rw [execSerialize, if_neg (by simp [hv]), if_neg (mt s.markersClash_iff.1 hne), if_pos h]

theorem execSerialize_full {out : List Byte} (hv : s.treeValid = true) (hne : s.lit ≠ s.br) (hdst : s.dstOk = true)
    (hout : s.serialized = some out) (hfull : s.dcap.toNat < out.length) :
    execSerialize s = raiseError .dstFull s.havocDst := by
  simp [execSerialize, State.markersClash, hv, hne, hdst, hout, hfull]

/-- A SERIALIZE that ends in success has stored the current tree's string in a window that lies in LMEM. -/
theorem execSerialize_ok {t : State} (h : execSerialize s = .next t) (hok : t.errcode = .ok) :
    s.treeValid = true ∧ s.lit ≠ s.br ∧ s.dstOk = true ∧
      ∃ out, s.serialized = some out ∧ out.length ≤ s.dcap.toNat ∧ t = (s.putOutput out).finish .ok := by
  obtain ⟨-, rfl⟩ | ⟨-, -, rfl⟩ | ⟨hv, hclash, ⟨-, rfl⟩ | ⟨hdst, out, hout, ⟨-, rfl⟩ | ⟨hfits, rfl⟩⟩⟩ :=
    execSerialize_next h
  · exact absurd hok (by simp)
  · exact absurd hok (by simp)
  · exact absurd hok (by simp)
  · exact absurd hok (by simp)
  · exact ⟨hv, s.markersClash_eq_false_iff.1 hclash, hdst, out, hout, hfits, rfl⟩

end serialize

/-- Settles O26: the string has three bytes a leaf less one, so it fits, and it is the output. -/
theorem serializeWritesTheTopology : Obligations.SerializeWritesTheTopology := by
  intro s h hv hne hdst hroom
  obtain ⟨tree, out, htree, hout, hspells, hcount⟩ := State.serialized_spells h hv
  have hlen : out.length = 3 * s.nleaves.toNat - 1 := by
    have := hspells.length
    omega
  have hfits : out.length ≤ s.dcap.toNat := hlen.trans_le hroom
  exact ⟨_, tree, out, execSerialize_fits hv hne hdst hout hfits, htree, hspells, rfl,
    (s.putOutput_rlen_toNat hfits).trans hlen, hlen, fun j v hj => s.readByte_putOutput_of_getElem? hj,
    fun a ha => s.readByte_putOutput_outside ha⟩

/-- Settles O27, one clause for each check, the last one from the length of the string. -/
theorem serializeRefuses : Obligations.SerializeRefuses := by
  intro s
  refine ⟨fun hv => execSerialize_noTree hv, fun hv heq => execSerialize_markerCfg hv heq,
    fun hv hne hout => execSerialize_bounds hv hne (s.dstOk_eq_false_iff.2 hout), fun h hv hne hin hsmall => ?_⟩
  obtain ⟨tree, out, -, hout, hspells, hcount⟩ := State.serialized_spells h hv
  have hfull : s.dcap.toNat < out.length := by
    have := hspells.length
    omega
  exact ⟨_, execSerialize_full hv hne (s.dstOk_iff.2 hin) hout hfull, rfl,
    fun a ha => s.readByte_havocDst_outside ha⟩

/-! ### DESERIALIZE, case by case (43_tree_codec.md R104 to R107) -/

section deserialize
variable {s : State}

theorem execDeserialize_markerCfg (h : s.lit = s.br) : execDeserialize s = raiseError .markerCfg s :=
  if_pos (s.markersClash_iff.2 h)

theorem execDeserialize_bounds (hne : s.lit ≠ s.br) (h : s.srcOk = false) :
    execDeserialize s = raiseError .bounds s := by
  rw [execDeserialize, if_neg (mt s.markersClash_iff.1 hne), if_pos h]

theorem execDeserialize_error {e : ErrCode} (hne : s.lit ≠ s.br) (hsrc : s.srcOk = true)
    (h : deserializeBytes s.lit s.br s.sourceBytes = .error e) : execDeserialize s = raiseError e s.clearTree := by
  simp [execDeserialize, State.markersClash, hne, hsrc, h]

end deserialize

/-- Settles O28, one clause for each check. -/
theorem deserializeChecksComeFirst : Obligations.DeserializeChecksComeFirst := fun s =>
  ⟨fun heq => execDeserialize_markerCfg heq,
    fun hne hout => execDeserialize_bounds hne (s.srcOk_eq_false_iff.2 hout)⟩

/-- Settles O29: the scan's entries are installed, and their number gives the registers. -/
theorem deserializeRebuildsTheTree : Obligations.DeserializeRebuildsTheTree := by
  intro s tree hne hsrc hspells hleaves
  have hlen : (tree.zeroFreq.postOrder 0).length = 2 * tree.leafCount - 1 := by
    have := hspells.postOrder_length 0
    omega
  refine ⟨_, execDeserialize_spells hne hsrc hspells hleaves, hspells.installTree_currentTree hleaves s, ?_, hlen⟩
  rw [State.installTree, hlen]
  rfl

/-! ### What the scan accepts (43_tree_codec.md R99, R105) -/

/-- The string is the strings of `depth` trees of the grammar, one after another, with `leaves` leaves together: what a
scan has read when it has stacked these trees. -/
inductive SpellsStack (lit br : Byte) : Nat → Nat → List Byte → Prop where
  | nil : SpellsStack lit br 0 0 []
  | push {depth leaves : Nat} {x y : List Byte} {t : Tree} :
      SpellsStack lit br depth leaves x → Spells lit br t y →
        SpellsStack lit br (depth + 1) (leaves + t.leafCount) (x ++ y)

section spellsStack
variable {lit br : Byte} {depth leaves : Nat} {x : List Byte}

theorem SpellsStack.pop (h : SpellsStack lit br (depth + 1) leaves x) :
    ∃ leaves' x' y t, SpellsStack lit br depth leaves' x' ∧ Spells lit br t y ∧ leaves = leaves' + t.leafCount ∧
      x = x' ++ y := by
  cases h with
  | push hx hy => exact ⟨_, _, _, _, hx, hy, rfl, rfl⟩

/-- A literal token stacks a leaf. -/
theorem SpellsStack.literal (h : SpellsStack lit br depth leaves x) (sym : Symbol) :
    SpellsStack lit br (depth + 1) (leaves + 1) (x ++ [lit, sym]) :=
  h.push (.leaf sym 0)

/-- A branch marker joins the two trees on top of the stack. -/
theorem SpellsStack.branch (h : SpellsStack lit br (depth + 2) leaves x) :
    SpellsStack lit br (depth + 1) leaves (x ++ [br]) := by
  obtain ⟨_, _, z, r, hrest, hr, rfl, rfl⟩ := h.pop
  obtain ⟨_, w, y, l, hw, hl, rfl, rfl⟩ := hrest.pop
  simpa [Tree.leafCount, Nat.add_assoc] using hw.push (.branch 0 hl hr)

/-- One stacked tree is all of the string. -/
theorem SpellsStack.single (h : SpellsStack lit br 1 leaves x) :
    ∃ t, Spells lit br t x ∧ t.leafCount = leaves := by
  obtain ⟨_, _, y, t, hnil, ht, rfl, rfl⟩ := h.pop
  cases hnil
  exact ⟨t, by simpa using ht, by simp⟩

theorem exists_cons_cons_of_two_le {stack : List Nat} (h : 2 ≤ stack.length) :
    ∃ rt lf stack', stack = rt :: lf :: stack' := by
  match stack, h with
  | rt :: lf :: stack', _ => exact ⟨rt, lf, stack', rfl⟩

/-- A scan that meets no error keeps the reading of its string as stacked trees. -/
theorem SpellsStack.scan {bytes : List Byte} {c c' : ScanState}
    (h : SpellsStack lit br c.stack.length c.leaves x) (hscan : scanTopology lit br bytes c = .ok c') :
    SpellsStack lit br c'.stack.length c'.leaves (x ++ bytes) := by
  induction bytes, c using scanTopology.induct (lit := lit) (br := br) generalizing x with
  | case1 c =>
    obtain rfl : c = c' := by simpa using hscan
    simpa using h
  | case2 c => simp [scanTopology_literal_end] at hscan
  | case3 c v rest hfull => simp [scanTopology_literal_full _ _ _ _ hfull] at hscan
  | case4 c v rest hroom ih =>
    rw [scanTopology_literal _ _ _ _ hroom] at hscan
    simpa using ih (h.literal v) hscan
  | case5 rest c rt lf stack' hstack hfull hne => simp [scanTopology_branch_full hne _ hstack hfull] at hscan
  | case6 rest c rt lf stack' hstack hroom hne ih =>
    rw [scanTopology_branch hne _ hstack hroom] at hscan
    rw [hstack] at h
    simpa using ih h.branch hscan
  | case7 rest c hstack hne =>
    have hdepth : c.stack.length < 2 := Nat.lt_of_not_le fun hle =>
      have ⟨rt, lf, stack', hc⟩ := exists_cons_cons_of_two_le hle
      hstack rt lf stack' hc
    simp [scanTopology_underflow hne _ hdepth] at hscan
  | case8 m rest c hne1 hne2 => simp [scanTopology_badMarker hne1 hne2] at hscan

theorem scanTopology_of_deserializeBytes_ok {c : ScanState} (h : deserializeBytes lit br x = .ok c) :
    scanTopology lit br x ⟨[], 0, []⟩ = .ok c := by
  rw [deserializeBytes] at h
  split at h
  · simp at h
  next c' hscan =>
    split at h
    · rwa [Except.ok.inj h] at hscan
    · simp at h

/-- DESERIALIZE takes only strings that spell a tree of at most 256 leaves (43_tree_codec.md R99, R105). -/
theorem spells_of_deserializeBytes_ok {c : ScanState} (h : deserializeBytes lit br x = .ok c) :
    ∃ t, Spells lit br t x ∧ t.leafCount ≤ 256 := by
  obtain ⟨hok, hstack, -, hsize, -, -, hcount⟩ := deserializeBytes_ok h
  have hspells := SpellsStack.nil.scan (c := ⟨[], 0, []⟩) (scanTopology_of_deserializeBytes_ok h)
  rw [hstack] at hspells
  obtain ⟨t, ht, hleaves⟩ := hspells.single
  refine ⟨t, ht, ?_⟩
  rw [hleaves, hok.leaves]
  rw [Config.nodeMax] at hsize
  omega

end spellsStack

/-! ### What the scan refuses (43_tree_codec.md R107; 60_exceptions.md R118) -/

section refuses
variable {lit br : Byte} {x rest : List Byte} {depth count : Nat} {e : ErrCode}

/-- DESERIALIZE's scan ends in one of the five errors of 43_tree_codec.md R107. -/
theorem deserializeBytes_error_mem (h : deserializeBytes lit br x = .error e) :
    e ∈ [ErrCode.truncLiteral, .stackUnderflow, .badMarker, .arenaFull, .stackImbalance] := by
  rw [deserializeBytes] at h
  split at h
  next e' hscan =>
    obtain rfl : e' = e := by simpa using h
    obtain rfl | rfl | rfl | rfl := scanTopology_error hscan <;> decide
  · split at h
    · simp at h
    · obtain rfl : ErrCode.stackImbalance = e := by simpa using h
      decide

/-- The first error after tokens that the scan takes is DESERIALIZE's, whatever these tokens have built. -/
theorem ScansTo.deserializeBytes_error (h : ScansTo lit br x depth count) (hne : lit ≠ br)
    (herr : ∀ c : ScanState, c.stack.length = depth → c.nodes.length = count →
      scanTopology lit br rest c = .error e) :
    deserializeBytes lit br (x ++ rest) = .error e := by
  obtain ⟨c, hscan, hdepth, hcount⟩ := h.scan hne rest
  rw [deserializeBytes, hscan, herr c hdepth hcount]

/-- A string of whole tokens that leaves other than one node stacked is refused at its end. -/
theorem ScansTo.deserializeBytes_imbalance (h : ScansTo lit br x depth count) (hne : lit ≠ br) (hdepth : depth ≠ 1) :
    deserializeBytes lit br x = .error .stackImbalance := by
  obtain ⟨c, hscan, rfl, -⟩ := h.scan hne []
  rw [List.append_nil, scanTopology_nil] at hscan
  rw [deserializeBytes, hscan]
  exact if_neg hdepth

theorem scanTopology_branch_full_of_length (hne : lit ≠ br) {c : ScanState} (hdepth : 2 ≤ c.stack.length)
    (hfull : c.nodes.length = Config.nodeMax) : scanTopology lit br (br :: rest) c = .error .arenaFull := by
  obtain ⟨rt, lf, stack', hc⟩ := exists_cons_cons_of_two_le hdepth
  exact scanTopology_branch_full hne.symm rest hc hfull

end refuses

/-- Settles O30: what the scan accepts is spelled, and each first bad token gives the error of its own step. -/
theorem deserializeRejectsEverythingElse : Obligations.DeserializeRejectsEverythingElse := by
  intro s hne hsrc tornDown
  have hexec : ∀ e, deserializeBytes s.lit s.br s.sourceBytes = .error e → exec .deserialize s = .next (tornDown e) :=
    fun e he => execDeserialize_error hne hsrc he
  refine ⟨fun hnone => ?_, fun x depth count e hx hbad => hexec e ?_⟩
  · cases hscan : deserializeBytes s.lit s.br s.sourceBytes with
    | error e => exact ⟨e, deserializeBytes_error_mem hscan, hexec e hscan⟩
    | ok c => exact absurd (spells_of_deserializeBytes_ok hscan) hnone
  · obtain ⟨hsource, rfl⟩ | ⟨post, hsource, hdepth, rfl⟩ | ⟨m, post, hsource, hlit, hbr, rfl⟩ |
      ⟨sym, post, hsource, hcount, rfl⟩ | ⟨post, hsource, hdepth, hcount, rfl⟩ | ⟨hsource, hdepth, rfl⟩ := hbad
    all_goals rw [hsource]
    · exact hx.deserializeBytes_error hne fun c _ _ => scanTopology_literal_end _ _ c
    · exact hx.deserializeBytes_error hne fun c hc _ => scanTopology_underflow hne.symm post (hc.trans_lt hdepth)
    · exact hx.deserializeBytes_error hne fun c _ _ => scanTopology_badMarker hlit hbr post c
    · exact hx.deserializeBytes_error hne fun c _ hc => scanTopology_literal_full _ _ sym post (hc.trans hcount)
    · exact hx.deserializeBytes_error hne fun c hd hc =>
        scanTopology_branch_full_of_length hne (hdepth.trans_eq hd.symm) (hc.trans hcount)
    · exact hx.deserializeBytes_imbalance hne hdepth

/-! ### The codec laws (43_tree_codec.md R108) -/

/-- Settles O31: what SERIALIZE wrote spells the current tree, and DESERIALIZE reads it back from DST. -/
theorem deserializeInvertsSerialize : Obligations.DeserializeInvertsSerialize := by
  intro s t h hser hok
  obtain ⟨hv, hne, hdst, out, hout, hfits, rfl⟩ := execSerialize_ok hser hok
  obtain ⟨tree, out', htree, hout', hspells, hcount⟩ := State.serialized_spells h hv
  obtain rfl : out = out' := Option.some.inj (hout.symm.trans hout')
  have hsmall : tree.leafCount ≤ 256 := hcount.trans_le (h.nleaves_le hv)
  obtain ⟨hsrc, hbytes⟩ := State.source_of_output (s := s)
    (t := { (s.putOutput out).finish .ok with src := s.dst, slen := (s.putOutput out).rlen }) hdst hfits rfl rfl rfl rfl
  exact ⟨_, tree, execDeserialize_spells hne hsrc (hbytes.symm ▸ hspells) hsmall, rfl, htree,
    hspells.installTree_currentTree hsmall _, rfl⟩

/-- A string the grammar gives a tree is what SERIALIZE makes of the tree, whatever its frequencies
(43_tree_codec.md R99, R102, R103). -/
theorem Spells.serializeTree_zeroFreq {lit br : Byte} {t : Tree} {x : List Byte} (h : Spells lit br t x) :
    serializeTree lit br t.zeroFreq = some x := by
  induction h with
  | leaf sym f => rfl
  | branch f hl hr ihl ihr => simp [Tree.zeroFreq, serializeTree, ihl, ihr]

/-- A DESERIALIZE that ends in success has installed the tree that its source window spells. -/
theorem execDeserialize_ok {s t : State} (h : execDeserialize s = .next t) (hok : t.errcode = .ok) :
    s.lit ≠ s.br ∧ ∃ tree, Spells s.lit s.br tree s.sourceBytes ∧ tree.leafCount ≤ 256 ∧
      t = (s.installTree (tree.zeroFreq.postOrder 0) tree.leafCount).finish .ok := by
  obtain ⟨-, rfl⟩ | ⟨hclash, ⟨-, rfl⟩ | ⟨-, ⟨e, he, rfl⟩ | ⟨c, hc, rfl⟩⟩⟩ := execDeserialize_next h
  · exact absurd hok (by simp)
  · exact absurd hok (by simp)
  · obtain rfl : e = .ok := hok
    exact absurd (deserializeBytes_error he) (by decide)
  · have hne := s.markersClash_eq_false_iff.1 hclash
    obtain ⟨tree, hspells, hleaves⟩ := spells_of_deserializeBytes_ok hc
    obtain rfl := Except.ok.inj (hc.symm.trans (hspells.deserializeBytes_eq hne hleaves))
    exact ⟨hne, tree, hspells, hleaves, rfl⟩

/-- Settles O32: the installed tree's string is the one its source window spelled it with. -/
theorem serializeInvertsDeserialize : Obligations.SerializeInvertsDeserialize := by
  intro s t dst dcap hdes hok hwindow hroom
  obtain ⟨hne, tree, hspells, hleaves, rfl⟩ := execDeserialize_ok hdes hok
  let u : State := { (s.installTree (tree.zeroFreq.postOrder 0) tree.leafCount).finish .ok with
    dst := dst, dcap := dcap }
  have hcur : u.currentTree = some tree.zeroFreq := hspells.installTree_currentTree hleaves s
  have hout : u.serialized = some s.sourceBytes := by
    rw [State.serialized, hcur]
    exact hspells.serializeTree_zeroFreq
  have hfits : s.sourceBytes.length ≤ dcap.toNat := s.sourceBytes_length.trans_le hroom
  obtain ⟨v, hnext, hback⟩ := complete_putOutput_sourceBytes s u
  exact ⟨v, (execSerialize_fits (s := u) rfl hne (u.dstOk_iff.2 hwindow) hout hfits).trans hnext, hback⟩

end Sys2Proof.Machine
end

section
/-! PROOFS, family 44_decompressor. The errors DECODE's walk ends in after any number of decoded symbols
(44_decompressor.md R111, R112). -/

namespace Sys2Proof.Machine

/-! ### Walks through branches (00_scope.md R11) -/

section walk
variable {nodes : List Node} {i j : NodeIdx}

/-- A walk that begins with a move begins at a branch and goes on from a child that is not NIL. -/
theorem walkPath_cons_eq_some {b : Bool} {path : Code} (h : walkPath nodes i (b :: path) = some j) :
    ∃ f l r, arenaAt nodes i.toNat = .branch f l r ∧ (if b then r else l) ≠ Config.nil ∧
      walkPath nodes (if b then r else l) path = some j := by
  cases hn : arenaAt nodes i.toNat with
  | leaf sym f => simp [walkPath_leaf hn] at h
  | branch f l r =>
    have hne : (if b then r else l) ≠ Config.nil := fun hnil => by simp [walkPath, hn, hnil] at h
    exact ⟨f, l, r, rfl, hne, (walkPath_cons hn b hne path).symm.trans h⟩

/-- A path from a branch to a leaf is a walk to another branch and one move from there to the leaf. -/
theorem LeadsTo.lastMove {path : Code} {sym : Symbol} (hi : (arenaAt nodes i.toNat).isBranch = true)
    (h : LeadsTo nodes i path sym) :
    ∃ q b j f l r g, path = q ++ [b] ∧ walkPath nodes i q = some j ∧ arenaAt nodes j.toNat = .branch f l r ∧
      (if b then r else l) ≠ Config.nil ∧ arenaAt nodes (if b then r else l).toNat = .leaf sym g := by
  obtain ⟨k, g, hwalk, hleaf⟩ := h
  obtain rfl | ⟨q, b, rfl⟩ := path.eq_nil_or_concat'
  · obtain rfl : i = k := by simpa [walkPath] using hwalk
    simp [hleaf] at hi
  · rw [walkPath_append] at hwalk
    obtain ⟨j, hq, hb⟩ := Option.bind_eq_some_iff.1 hwalk
    obtain ⟨f, l, r, hj, hne, hk⟩ := walkPath_cons_eq_some hb
    obtain rfl : (if b then r else l) = k := Option.some.inj hk
    exact ⟨q, b, j, f, l, r, g, rfl, hq, hj, hne, hleaf⟩

end walk

/-! ### Where DECODE's walk stops (44_decompressor.md R111, R112) -/

section decodeStream
variable {nodes : List Node} {root cur i : NodeIdx} {path : Code}

/-- The bytes of a walk that stays on branches move the cursor and write nothing. -/
theorem decodeStream_walk (hwalk : walkPath nodes cur path = some i)
    (hi : (arenaAt nodes i.toNat).isBranch = true) (room : Nat) (rest : List Byte) :
    decodeStream nodes root cur room (path.map codeByte ++ rest) = decodeStream nodes root i room rest := by
  induction path generalizing cur with
  | nil =>
    obtain rfl : cur = i := Option.some.inj hwalk
    rfl
  | cons b path ih =>
    obtain ⟨f, l, r, hcur, hne, hwalk⟩ := walkPath_cons_eq_some hwalk
    have hbr : (arenaAt nodes (if b then r else l).toNat).isBranch = true := by
      cases path with
      | nil =>
        obtain rfl : (if b then r else l) = i := Option.some.inj hwalk
        exact hi
      | cons b' path =>
        obtain ⟨f', l', r', hnext, -⟩ := walkPath_cons_eq_some hwalk
        rw [hnext, Node.isBranch]
    rw [List.map_cons, List.cons_append, decodeStream_toBranch hcur hne hbr]
    exact ih hwalk

theorem decodeStream_badBit {b : Byte} (h0 : b ≠ 0x30) (h1 : b ≠ 0x31) (room : Nat) (rest : List Byte) :
    decodeStream nodes root cur room (b :: rest) = .error .badBit := by
  have hmove : moveOn (arenaAt nodes cur.toNat) b = none := (if_neg h0).trans (if_neg h1)
  rw [decodeStream, hmove]

theorem decodeStream_truncated (hne : cur ≠ root) (room : Nat) :
    decodeStream nodes root cur room [] = .error .truncatedCode := if_neg hne

/-- A move to a leaf with no room for its symbol. -/
theorem decodeStream_toLeaf_full {f g : Word} {l r : NodeIdx} {b : Bool} {sym : Symbol}
    (hcur : arenaAt nodes cur.toNat = .branch f l r) (hne : (if b then r else l) ≠ Config.nil)
    (hleaf : arenaAt nodes (if b then r else l).toNat = .leaf sym g) (rest : List Byte) :
    decodeStream nodes root cur 0 (codeByte b :: rest) = .error .dstFull := by
  rw [decodeStream, hcur, moveOn_codeByte]
  simp only [if_neg hne, hleaf]

/-- A path to a leaf with no room for its symbol: the walk stops at the path's last move. -/
theorem decodeStream_path_full {sym : Symbol} (hcur : (arenaAt nodes cur.toNat).isBranch = true)
    (hpath : LeadsTo nodes cur path sym) (rest : List Byte) :
    decodeStream nodes root cur 0 (path.map codeByte ++ rest) = .error .dstFull := by
  obtain ⟨q, b, j, f, l, r, g, rfl, hq, hj, hne, hleaf⟩ := hpath.lastMove hcur
  have hbr : (arenaAt nodes j.toNat).isBranch = true := by rw [hj, Node.isBranch]
  rw [List.map_append, List.append_assoc, decodeStream_walk hq hbr]
  exact decodeStream_toLeaf_full hj hne hleaf rest

end decodeStream

/-! ### DECODE past its checks (44_decompressor.md R112) -/

theorem execDecode_scan_error {s : State} {e : ErrCode} (hv : s.treeValid = true)
    (hroot : (s.nodeAt s.root.toNat).isBranch = true) (hsrc : s.srcOk = true) (hdst : s.dstOk = true)
    (hover : s.overlaps = false)
    (h : decodeStream s.nodes s.root s.root s.dcap.toNat s.sourceBytes = .error e) :
    execDecode s = raiseError e s.havocDst := by
  simp [execDecode, hv, hroot, hsrc, hdst, hover, h]

/-- Settles O35: the walk passes the paths that fit, and what comes after them gives the error. -/
theorem decodeScanErrors : Obligations.DecodeScanErrors := by
  intro s runs part tail e hv hroot hsrc hdst hover hruns hfits hsource hstop
  have hscan := decodeStream_runs hroot hruns hfits (part.map codeByte ++ tail)
  rw [← List.append_assoc, ← List.map_append, ← hsource] at hscan
  have herr : decodeStream s.nodes s.root s.root (s.dcap.toNat - runs.length) (part.map codeByte ++ tail) =
      .error e := by
    obtain ⟨i, b, post, hwalk, hi, rfl, h0, h1, rfl⟩ | ⟨i, hwalk, hi, hne, rfl, rfl⟩ | ⟨sym, hpath, hfull, rfl⟩ := hstop
    · exact (decodeStream_walk hwalk hi _ _).trans (decodeStream_badBit h0 h1 _ _)
    · exact (decodeStream_walk hwalk hi _ _).trans (decodeStream_truncated hne _)
    · rw [hfull, Nat.sub_self]
      exact decodeStream_path_full hroot hpath tail
  rw [herr] at hscan
  exact ⟨_, execDecode_scan_error hv hroot hsrc hdst hover hscan, rfl, fun a ha => s.readByte_havocDst_outside ha⟩

end Sys2Proof.Machine
end

section
/-! PROOFS, family 60_exceptions. The common checks and the acceptance (60_exceptions.md R117, R121), what every
completion does to the flags (R120, R122, R123), the writes while BUSY = 1 (R128), and what changes FATAL and IRQ. -/

namespace Sys2Proof.Machine

/-! ### The common checks and the acceptance (60_exceptions.md R117, R121) -/

/-- Settles O7, one clause for each check. -/
theorem engineStepMakesTheCommonChecks : Obligations.EngineStepMakesTheCommonChecks := fun _ =>
  ⟨engineStep_fatal, fun hf _ hd => engineStep_illegal hf hd, fun hf _ hd => engineStep_legal hf hd⟩

/-- Settles O45: CMD is register 4, and an idle block takes the write. -/
theorem cmdWriteIsTheAcceptance : Obligations.CmdWriteIsTheAcceptance := fun _ _ _ hb h =>
  hostTurn_write_idle hb h (classify_reg (k := 4) (by decide) rfl) rfl

/-! ### What a permitted access reaches, by its offset (20_memory.md R46)

The map's tests rise with the offset, so the bounds of a window select its one branch. -/

section windows
variable {size : Nat} {w : Width} {off : Offset} {tgt : Target} (h : classify size w off = some tgt)
include h

theorem eq_reg_of_classify {k : Nat} (hk : k < 16) (ho : off.toNat = 4 * k) : tgt = .reg (Reg.ofIndex k) := by
  obtain ⟨-, rfl⟩ : wordAccess w (4 * k) = true ∧ .reg (Reg.ofIndex k) = tgt := by
    simpa [classify, ho, show 4 * k < 0x40 by omega] using h
  rfl

theorem eq_freq_of_classify (hlo : 0x400 ≤ off.toNat) (hhi : off.toNat < 0x800) : ∃ sym, tgt = .freq sym := by
  rw [classify] at h
  grind

theorem eq_node_or_ct_of_classify (hlo : 0x2000 ≤ off.toNat) (hhi : off.toNat < 0x8000) :
    (∃ i k, tgt = .node i k) ∨ ∃ sym k, tgt = .ct sym k := by
  rw [classify] at h
  grind

theorem eq_lmem_of_classify (hlo : 0x10000 ≤ off.toNat) : ∃ a, tgt = .lmem a := by
  rw [classify] at h
  grind

end windows

/-! ### The Host's writes, by what they reach (60_exceptions.md R128; 20_memory.md R51) -/

theorem State.whenIdle_of_busy {s : State} (hb : s.busy = true) (written : State) :
    s.whenIdle written = s.droppedWrite := if_pos hb

/-- While BUSY = 1 a write of CMD, SRC, SLEN, DST, DCAP or MARKERS is dropped. -/
theorem State.writeReg_dropped {s : State} (hb : s.busy = true) (v : Word) :
    ∀ k ∈ [4, 6, 7, 8, 9, 12], s.writeReg v (Reg.ofIndex k) = s.droppedWrite := by
  simp [Reg.ofIndex, State.writeReg, State.whenIdle_of_busy hb]

/-- A write of an RO register is ignored. -/
theorem State.writeReg_readOnly (s : State) (v : Word) :
    ∀ k ∈ [0, 1, 5, 10, 11, 13, 14, 15], s.writeReg v (Reg.ofIndex k) = s := by
  simp [Reg.ofIndex, State.writeReg]

/-- A member of a list of register offsets is four times a member of the list of their indices. -/
theorem exists_index_of_mem_offsets {ks : List Nat} {o : Nat} (hlt : ∀ k ∈ ks, k < 16) (ho : o ∈ ks.map (4 * ·)) :
    ∃ k ∈ ks, k < 16 ∧ o = 4 * k := by
  obtain ⟨k, hk, rfl⟩ := List.mem_map.1 ho
  exact ⟨k, hk, hlt k hk, rfl⟩

theorem State.writeCtrl_enable (s : State) {v : Word} (hv : v.getLsbD 1 = false) :
    s.writeCtrl v = { s with irqEn := v.getLsbD 0 } := if_neg (ne_true_of_eq_false hv)

theorem State.writeCtrl_softReset (s : State) {v : Word} (hv : v.getLsbD 1 = true) :
    s.writeCtrl v = s.softReset := if_pos hv

/-- Settles O46: the offset fixes what a permitted write reaches. -/
theorem writesWhileBusyAreDropped : Obligations.WritesWhileBusyAreDropped := by
  intro s w off v rest h
  refine ⟨fun hne => ?_, (hostTurn_write_busError_iff h).2⟩
  obtain ⟨tgt, hc⟩ := Option.ne_none_iff_exists'.1 hne
  rw [hostTurn_write h hc]
  refine ⟨fun hb ho => congrArg _ ?_, fun ho => ?_, fun ho => ?_, fun ho => congrArg _ ?_⟩
  · have hb' : ({ s with host := rest } : State).busy = true := hb
    obtain ho | ⟨hlo, hhi⟩ | hlo := ho
    · obtain ⟨k, hk, hlt, hoff⟩ := exists_index_of_mem_offsets (ks := [4, 6, 7, 8, 9, 12]) (by decide) ho
      obtain rfl := eq_reg_of_classify hc hlt hoff
      exact State.writeReg_dropped hb' v k hk
    · obtain ⟨sym, rfl⟩ := eq_freq_of_classify hc hlo hhi
      exact State.whenIdle_of_busy hb' _
    · obtain ⟨a, rfl⟩ := eq_lmem_of_classify hc hlo
      exact State.whenIdle_of_busy hb' _
  · obtain rfl := eq_reg_of_classify hc (k := 2) (by decide) ho
    exact ⟨fun hv => congrArg _ (State.writeCtrl_enable _ hv), fun hv => congrArg _ (State.writeCtrl_softReset _ hv)⟩
  · obtain rfl := eq_reg_of_classify hc (k := 3) (by decide) ho
    rfl
  · obtain ho | ⟨hlo, hhi⟩ := ho
    · obtain ⟨k, hk, hlt, hoff⟩ :=
        exists_index_of_mem_offsets (ks := [0, 1, 5, 10, 11, 13, 14, 15]) (by decide) ho
      obtain rfl := eq_reg_of_classify hc hlt hoff
      exact State.writeReg_readOnly _ v k hk
    · obtain ⟨i, k, rfl⟩ | ⟨sym, k, rfl⟩ := eq_node_or_ct_of_classify hc hlo hhi <;> rfl

/-! ### What a completion does to the flags (60_exceptions.md R120, R122) -/

/-- The flags of t are those that a command which began in s leaves when it ends: BUSY and DONE change, IRQ_EN stays,
and E_LOOKUP_MISS alone sets FATAL. -/
structure Completes (s t : State) : Prop where
  busy : t.busy = false
  done : t.done = true
  irqEn : t.irqEn = s.irqEn
  fatal : t.fatal = (s.fatal || decide (t.errcode = .lookupMiss))

/-- An end in any outcome but E_LOOKUP_MISS leaves FATAL as it is. -/
theorem finish_completes {s u : State} {e : ErrCode} (he : e ≠ .lookupMiss) (hi : u.irqEn = s.irqEn)
    (hf : u.fatal = s.fatal) : Completes s (u.finish e) :=
  ⟨u.finish_busy e, u.finish_done e, hi, by simp [he, hf]⟩

theorem execEncode_completes {s t : State} (h : execEncode s = .next t) : Completes s t := by
  obtain ⟨-, rfl⟩ | ⟨-, -, rfl⟩ | ⟨-, -, -, ⟨-, rfl⟩ | ⟨-, ⟨out, -, rfl⟩ | ⟨e, -, rfl⟩⟩⟩ := execEncode_next h
  · exact finish_completes (by decide) rfl rfl
  · exact finish_completes (by decide) rfl rfl
  · exact finish_completes (by decide) rfl rfl
  · exact finish_completes (by decide) rfl rfl
  · exact ⟨rfl, rfl, rfl, rfl⟩

theorem execDecode_completes {s t : State} (h : execDecode s = .next t) : Completes s t := by
  obtain ⟨-, rfl⟩ | ⟨-, -, rfl⟩ | ⟨-, -, ⟨-, rfl⟩ | ⟨-, -, ⟨-, rfl⟩ | ⟨-, ⟨out, -, rfl⟩ | ⟨e, he, rfl⟩⟩⟩⟩ :=
    execDecode_next h
  · exact finish_completes (by decide) rfl rfl
  · exact finish_completes (by decide) rfl rfl
  · exact finish_completes (by decide) rfl rfl
  · exact finish_completes (by decide) rfl rfl
  · exact finish_completes (by decide) rfl rfl
  · refine finish_completes ?_ rfl rfl
    obtain rfl | rfl | rfl | rfl := decodeStream_error he <;> decide

theorem execDeserialize_completes {s t : State} (h : execDeserialize s = .next t) : Completes s t := by
  obtain ⟨-, rfl⟩ | ⟨-, ⟨-, rfl⟩ | ⟨-, ⟨e, he, rfl⟩ | ⟨c, -, rfl⟩⟩⟩ := execDeserialize_next h
  · exact finish_completes (by decide) rfl rfl
  · exact finish_completes (by decide) rfl rfl
  · have hmem := deserializeBytes_error_mem he
    exact finish_completes (by rintro rfl; exact absurd hmem (by decide)) rfl rfl
  · exact finish_completes (by decide) rfl rfl

theorem exec_completes {i : Instr} {s t : State} (h : exec i s = .next t) : Completes s t := by
  cases i with
  | clrfreq => obtain rfl := execClrfreq_next h; exact finish_completes (by decide) rfl rfl
  | build =>
    obtain ⟨-, rfl⟩ | ⟨-, -, rfl⟩ | ⟨-, -, rfl⟩ := execBuild_next h <;> exact finish_completes (by decide) rfl rfl
  | teardown => obtain rfl := execTeardown_next h; exact finish_completes (by decide) rfl rfl
  | nodecmp a b =>
    obtain ⟨-, rfl⟩ | ⟨-, -, rfl⟩ | ⟨-, -, -, rfl⟩ := execNodecmp_next h <;>
      exact finish_completes (by decide) rfl rfl
  | gencodes =>
    obtain ⟨-, rfl⟩ | ⟨-, _, -, ⟨-, rfl⟩ | ⟨-, rfl⟩⟩ := execGencodes_next h <;>
      exact finish_completes (by decide) rfl rfl
  | encode => exact execEncode_completes h
  | decode => exact execDecode_completes h
  | serialize =>
    obtain ⟨-, rfl⟩ | ⟨-, -, rfl⟩ | ⟨-, -, ⟨-, rfl⟩ | ⟨-, _, -, ⟨-, rfl⟩ | ⟨-, rfl⟩⟩⟩ := execSerialize_next h <;>
      exact finish_completes (by decide) rfl rfl
  | deserialize => exact execDeserialize_completes h

theorem engineStep_completes {s t : State} (h : engineStep s = .next t) : Completes s t := by
  obtain ⟨-, rfl⟩ | ⟨-, -, rfl⟩ | ⟨-, i, -, hx⟩ := engineStep_next h
  · exact finish_completes (by decide) rfl rfl
  · exact finish_completes (by decide) rfl rfl
  · exact exec_completes hx

/-! ### IRQ (60_exceptions.md R123, R124) -/

theorem State.irq_iff (s : State) : s.irq = true ↔ s.done = true ∧ s.irqEn = true := Bool.and_eq_true_iff

/-- IRQ is low while DONE = 0. -/
theorem State.irq_eq_false_of_done {s : State} (h : s.done = false) : s.irq = false := by
  rw [State.irq, h, Bool.false_and]

theorem State.softReset_done (s : State) : s.softReset.done = false := by
  obtain h | ⟨-, -, h⟩ := s.softReset_eq <;> rw [h, State.resetRegisters_done]

/-- Settles O48: what lowers IRQ clears DONE or IRQ_EN. -/
theorem irqFollowsDoneAndEnable : Obligations.IrqFollowsDoneAndEnable := by
  refine fun s => ⟨s.irq_iff, fun t hen h => ?_, fun v rest h hv => ?_, fun v rest hb h => ?_, fun v rest h hv => ?_,
    State.irq_eq_false_of_done s.softReset_done, State.irq_eq_false_of_done s.hardReset_done⟩
  · have hends := engineStep_completes h
    exact t.irq_iff.2 ⟨hends.done, hends.irqEn.trans hen⟩
  · have hdone : (({ s with host := rest } : State).writeStatus v).done = false := by simp [State.writeStatus, hv]
    exact ⟨_, hostTurn_write h (classify_reg (k := 3) (by decide) rfl), State.irq_eq_false_of_done hdone, hdone⟩
  · exact ⟨_, cmdWriteIsTheAcceptance s v rest hb h, rfl, rfl⟩
  · exact ⟨_, (hostTurn_write h (classify_reg (k := 2) (by decide) rfl)).trans
      (congrArg _ (State.writeCtrl_enable _ hv)), rfl, rfl⟩

/-! ### FATAL (60_exceptions.md R120) -/

/-- FATAL stays and no pending command ends. -/
structure KeepsFatal (s t : State) : Prop where
  fatal : t.fatal = s.fatal
  busy : s.busy = true → t.busy = true

theorem KeepsFatal.whenIdle {s u : State} (h : u.fatal = s.fatal) : KeepsFatal s (s.whenIdle u) := by
  obtain ⟨hb, hw⟩ | ⟨hb, hw⟩ := s.whenIdle_eq u <;> rw [hw]
  · exact ⟨rfl, fun _ => hb⟩
  · exact ⟨h, fun hb' => absurd (hb.symm.trans hb') (by decide)⟩

/-- A register write keeps FATAL, but for a write of CTRL with SRST = 1 (10_state.md R20). -/
theorem State.writeReg_keepsFatal (s : State) (v : Word) (r : Reg) :
    KeepsFatal s (s.writeReg v r) ∨ r = .ctrl ∧ v.getLsbD 1 = true ∧ s.writeReg v r = s.softReset := by
  cases r with
  | ctrl =>
    cases hv : v.getLsbD 1 with
    | true => exact .inr ⟨rfl, rfl, s.writeCtrl_softReset hv⟩
    | false => rw [State.writeReg, s.writeCtrl_enable hv]; exact .inl ⟨rfl, id⟩
  | status => exact .inl ⟨rfl, id⟩
  | cmd | src | slen | dst | dcap | markers => exact .inl (.whenIdle rfl)
  | id | params | errcode | rlen | result | root | ncount | nleaves => exact .inl ⟨rfl, id⟩

theorem State.hostWrite_keepsFatal (s : State) (w : Width) (v : Word) (tgt : Target) :
    KeepsFatal s (s.hostWrite w v tgt) ∨
      tgt = .reg .ctrl ∧ v.getLsbD 1 = true ∧ s.hostWrite w v tgt = s.softReset := by
  cases tgt with
  | reg r => simpa only [State.hostWrite, Target.reg.injEq] using s.writeReg_keepsFatal v r
  | node | ct => exact .inl ⟨rfl, id⟩
  | freq | lmem => exact .inl (.whenIdle rfl)

theorem State.softReset_fatal (s : State) : s.softReset.fatal = false := by
  obtain h | ⟨-, -, h⟩ := s.softReset_eq <;> rw [h, State.resetRegisters_fatal]

theorem State.softReset_errcode (s : State) : s.softReset.errcode = .ok := by
  obtain h | ⟨-, -, h⟩ := s.softReset_eq <;> rw [h, State.resetRegisters_errcode]

/-- The Host's turn keeps FATAL or is a soft reset, which clears it with ERRCODE. -/
theorem hostTurn_fatal {s t : State} (h : hostTurn s = .next t) :
    KeepsFatal s t ∨ s.SoftResetNext ∧ t.fatal = false ∧ t.errcode = .ok := by
  obtain ⟨-, rfl⟩ | ⟨rest, -, rfl⟩ | ⟨w, off, rest, tgt, -, -, rfl⟩ | ⟨w, off, v, rest, tgt, hh, hc, rfl⟩ :=
    hostTurn_next h
  · exact .inl ⟨rfl, id⟩
  · exact .inl ⟨rfl, id⟩
  · rw [State.hostRead_eq]
    exact .inl ⟨rfl, id⟩
  · obtain hkeeps | ⟨rfl, hv, hr⟩ := ({ s with host := rest } : State).hostWrite_keepsFatal w v tgt
    · exact .inl ⟨hkeeps.fatal, hkeeps.busy⟩
    · obtain ⟨rfl, rfl⟩ := classify_ctrl hc
      rw [hr]
      exact .inr ⟨⟨v, rest, hh, hv⟩, State.softReset_fatal _, State.softReset_errcode _⟩

/-- Everything a step can do to FATAL: nothing, what the end of the pending command does, or a reset. -/
theorem step_fatal {s t : State} (h : step s = .next t) :
    KeepsFatal s t ∨ s.busy = true ∧ Completes s t ∨
    ((∃ ts, s.turns = .hardReset :: ts) ∨ s.SoftResetNext) ∧ t.fatal = false ∧ t.errcode = .ok := by
  obtain ⟨-, he⟩ | ⟨-, hh⟩ | ⟨hr, rfl⟩ := step_next h
  · obtain ⟨-, rfl⟩ | ⟨hb, hx⟩ := engineTurn_next he
    · exact .inl ⟨rfl, id⟩
    · obtain ⟨hbusy, hdone, hen, hfatal⟩ := engineStep_completes hx
      exact .inr (.inl ⟨hb, hbusy, hdone, hen, hfatal⟩)
  · obtain ⟨hfatal, hbusy⟩ | hr := hostTurn_fatal hh
    · exact .inl ⟨hfatal, hbusy⟩
    · exact .inr (.inr ⟨.inr hr.1, hr.2⟩)
  · exact .inr (.inr ⟨.inl (List.head?_eq_some_iff.1 hr), rfl, rfl⟩)

/-- A pending command's Engine step comes next unless a Host's turn or a hard reset does (70_reset_and_hazards.md
R149). -/
theorem step_pending {s : State} (hb : s.busy = true) (hhost : s.turns.head? ≠ some .host)
    (hreset : s.turns.head? ≠ some .hardReset) : step s = engineStep { s with turns := s.turns.tail } := by
  cases hts : s.turns with
  | nil => rw [step_of_turns_nil_busy hts hb, engineTurn_busy hb, List.tail_nil, ← hts]
  | cons turn ts =>
    cases turn with
    | engine => exact (step_of_turns_engine hts).trans (engineTurn_busy (s := { s with turns := ts }) hb)
    | host => simp [hts] at hhost
    | hardReset => simp [hts] at hreset

theorem step_pending_fatal {s : State} (hf : s.fatal = true) (hb : s.busy = true)
    (hhost : s.turns.head? ≠ some .host) (hreset : s.turns.head? ≠ some .hardReset) :
    step s = .next { s with turns := s.turns.tail, errcode := .fatal, busy := false, done := true } :=
  (step_pending hb hhost hreset).trans (engineStep_fatal (s := { s with turns := s.turns.tail }) hf)

/-- Settles O56: a step keeps FATAL, or the pending command ends, or a reset clears it. -/
theorem fatalChangesOnlyByLookupMissAndReset : Obligations.FatalChangesOnlyByLookupMissAndReset := by
  intro s t h
  have hpending := fun hf hb hhost hreset =>
    Host.Outcome.next.inj (h.symm.trans (step_pending_fatal (s := s) hf hb hhost hreset))
  obtain ⟨hf, hb⟩ | ⟨hb, hends⟩ | ⟨hr, hf, he⟩ := step_fatal h
  · obtain ⟨hset, hclear⟩ := not_changed_of_eq hf
    exact ⟨fun hbusy hidle => absurd ((hb hbusy).symm.trans hidle) (by decide), hset, hclear, hpending⟩
  · have hf := hends.fatal
    refine ⟨fun _ _ hmiss => by simp [hf, hmiss], fun h0 h1 => ⟨hb, hends.busy, ?_⟩, fun h1 h0 => ?_, hpending⟩
    · simpa [h0, h1] using hf
    · simp [h0, h1] at hf
  · exact ⟨fun _ _ hmiss => absurd (he.symm.trans hmiss) (by decide),
      fun _ h1 => absurd (hf.symm.trans h1) (by decide), fun _ _ => hr, hpending⟩

end Sys2Proof.Machine
end

section
/-! PROOFS, family 70_reset_and_hazards. What the two resets restore (70_reset_and_hazards.md R136, R138), and that a
pending command is run once the turns are used up (R149). -/

namespace Sys2Proof.Machine

/-! ### The two resets (70_reset_and_hazards.md R136, R138) -/

/-- Settles O50: the turn is a hard reset, which keeps only what the statement names. -/
theorem hardResetRestoresTheRegisters : Obligations.HardResetRestoresTheRegisters := fun _ _ h =>
  ⟨_, step_of_turns_hardReset h, rfl⟩

theorem abandonsWindow_iff (w : Word) : abandonsWindow w = true ↔
    decodeCmd w = .ok .encode ∨ decodeCmd w = .ok .decode ∨ decodeCmd w = .ok .serialize := by
  rw [abandonsWindow]
  cases decodeCmd w with
  | error why => simp
  | ok i => cases i <;> simp

/-- Whether or not it havocs a window, a soft reset resets every register. -/
theorem State.softReset_eq_reset (s : State) : s.softReset = { State.reset with
    lmemLog2 := s.lmemLog2, lmem := s.softReset.lmem, lmemEpoch := s.lmemEpoch, pend := s.softReset.pend,
    host := s.host, reads := s.reads, turns := s.turns, draws := s.softReset.draws } := by
  obtain h | ⟨-, -, h⟩ := s.softReset_eq <;> rw [h] <;> rfl

/-- A soft reset keeps every byte outside the window it havocs. -/
theorem State.softReset_readByte (s : State) {a : Nat}
    (h : s.busy = true → abandonsWindow s.pend = true → s.dstOk = true →
      ¬(s.dst.toNat ≤ a ∧ a < s.dst.toNat + s.dcap.toNat)) : s.softReset.readByte a = s.readByte a := by
  rw [State.softReset]
  split_ifs with hwindow
  · simp only [Bool.and_eq_true] at hwindow
    obtain ⟨⟨hbusy, hpend⟩, hdst⟩ := hwindow
    rw [State.resetRegisters_readByte, s.readByte_havocDst_outside (h hbusy hpend hdst)]
  · exact s.resetRegisters_readByte a

/-- Settles O49: the write reaches CTRL, and its bit 1 makes it the soft reset. -/
theorem softResetRestoresTheRegisters : Obligations.SoftResetRestoresTheRegisters := by
  intro s v rest h hv
  have hturn : hostTurn s = .next ({ s with host := rest } : State).softReset :=
    (hostTurn_write h (classify_reg (k := 2) (by decide) rfl)).trans (congrArg _ (State.writeCtrl_softReset _ hv))
  refine ⟨_, hturn, State.softReset_eq_reset _, fun a ha => ?_⟩
  exact State.softReset_readByte { s with host := rest } fun hbusy hpend hdst =>
    ha hbusy ((abandonsWindow_iff _).1 hpend) ((State.dstOk_iff _).1 hdst)

/-! ### A Host's turn uses up no other turn, and only a bus error stops it (20_memory.md R50) -/

theorem State.whenIdle_turns {s u : State} (h : u.turns = s.turns) : (s.whenIdle u).turns = s.turns := by
  obtain ⟨-, hw⟩ | ⟨-, hw⟩ := s.whenIdle_eq u <;> rw [hw]
  · exact s.droppedWrite_turns
  · exact h

theorem State.softReset_turns (s : State) : s.softReset.turns = s.turns := by
  rw [s.softReset_eq_reset]

theorem State.writeReg_turns (s : State) (v : Word) (r : Reg) : (s.writeReg v r).turns = s.turns := by
  cases r with
  | ctrl =>
    rw [State.writeReg, State.writeCtrl]
    split
    · exact s.softReset_turns
    · rfl
  | cmd | src | slen | dst | dcap | markers => exact State.whenIdle_turns rfl
  | id | params | status | errcode | rlen | result | root | ncount | nleaves => rfl

theorem State.hostWrite_turns (s : State) (w : Width) (v : Word) (tgt : Target) :
    (s.hostWrite w v tgt).turns = s.turns := by
  cases tgt with
  | reg r => exact s.writeReg_turns v r
  | freq | lmem => exact State.whenIdle_turns rfl
  | node | ct => rfl

theorem hostTurn_turns {s t : State} (h : hostTurn s = .next t) : t.turns = s.turns := by
  obtain ⟨-, rfl⟩ | ⟨rest, -, rfl⟩ | ⟨w, off, rest, tgt, -, -, rfl⟩ | ⟨w, off, v, rest, tgt, -, -, rfl⟩ :=
    hostTurn_next h
  · rfl
  · rfl
  · rw [State.hostRead_eq]
  · exact State.hostWrite_turns { s with host := rest } w v tgt

theorem hostTurn_next_or_busError (s : State) : (∃ t, hostTurn s = .next t) ∨ hostTurn s = .fault .busError := by
  rw [hostTurn]
  split
  · exact .inl ⟨_, rfl⟩
  · exact .inl ⟨_, rfl⟩
  · split
    · exact .inr rfl
    · exact .inl ⟨_, rfl⟩
  · split
    · exact .inr rfl
    · exact .inl ⟨_, rfl⟩

/-! ### A pending command is run (70_reset_and_hazards.md R149) -/

/-- What a step does while a command is pending: the Engine's step and a reset leave BUSY 0, and a Host's turn is one
of those listed. -/
theorem step_busy_outcome {s : State} (hinv : s.Inv) (hb : s.busy = true) :
    step s = .fault .busError ∨ ∃ t, step s = .next t ∧ (t.busy = false ∨ s.turns = .host :: t.turns) := by
  obtain ⟨-, htree, -, -⟩ := hinv
  by_cases hhost : s.turns.head? = some .host
  · obtain ⟨ts, hts⟩ := List.head?_eq_some_iff.1 hhost
    rw [step_of_turns_host hts]
    obtain ⟨t, ht⟩ | hfault := hostTurn_next_or_busError { s with turns := ts }
    · exact .inr ⟨t, ht, .inr (by rw [hts, hostTurn_turns ht])⟩
    · exact .inl hfault
  · by_cases hreset : s.turns.head? = some .hardReset
    · obtain ⟨ts, hts⟩ := List.head?_eq_some_iff.1 hreset
      exact .inr ⟨_, step_of_turns_hardReset hts, .inl (State.hardReset_busy _)⟩
    · obtain ⟨t, ht, hidle, -⟩ := engineStep_ends (s := { s with turns := s.turns.tail }) htree
      exact .inr ⟨t, (step_pending hb hhost hreset).trans ht, .inl hidle⟩

/-- Within n steps either BUSY is 0 or the Host program has met a bus error. -/
def IdleWithin (n : Nat) (s : State) : Prop :=
  ∃ k ≤ n, (∃ t, Sys2Proof.core.run k s = .next t ∧ t.busy = false) ∨ Sys2Proof.core.run k s = .fault .busError

theorem idleWithin_of_idle {s : State} (hb : s.busy = false) (n : Nat) : IdleWithin n s :=
  ⟨0, n.zero_le, .inl ⟨s, rfl, hb⟩⟩

theorem run_succ_of_next {M : Host.Core} {s t : M.State} (h : M.step s = .next t) (k : Nat) :
    M.run (k + 1) s = M.run k t := by
  rw [Host.Core.run, h]

theorem run_succ_of_fault {M : Host.Core} {s : M.State} {r : M.Fault} (h : M.step s = .fault r) (k : Nat) :
    M.run (k + 1) s = .fault r := by
  rw [Host.Core.run, h]

theorem idleWithin_of_next {s t : State} {n : Nat} (h : step s = .next t) (ht : IdleWithin n t) :
    IdleWithin (n + 1) s := by
  obtain ⟨k, hk, hrun⟩ := ht
  exact ⟨k + 1, Nat.succ_le_succ hk, by rwa [run_succ_of_next (M := Sys2Proof.core) h]⟩

theorem idleWithin_of_busError {s : State} (h : step s = .fault .busError) (n : Nat) : IdleWithin (n + 1) s :=
  ⟨1, Nat.succ_le_succ n.zero_le, .inr (run_succ_of_fault (M := Sys2Proof.core) h 0)⟩

/-- By recursion on the turns: a step that leaves the command pending used one up. -/
theorem idleWithin_turns (s : State) (hinv : s.Inv) : IdleWithin (s.turns.length + 1) s := by
  cases hb : s.busy with
  | false => exact idleWithin_of_idle hb _
  | true =>
    obtain hfault | ⟨t, ht, hidle | hts⟩ := step_busy_outcome hinv hb
    · exact idleWithin_of_busError hfault _
    · exact idleWithin_of_next ht (idleWithin_of_idle hidle _)
    · rw [hts, List.length_cons]
      exact idleWithin_of_next ht (idleWithin_turns t (stepKeepsTheInvariant s t hinv ht))
termination_by s.turns.length
decreasing_by simp [hts]

/-- Settles O59: the invariant excludes the one fault of a command, and each Host's turn before it uses up a turn. -/
theorem pendingCommandsAreRun : Obligations.PendingCommandsAreRun := fun s hinv _ => idleWithin_turns s hinv

end Sys2Proof.Machine
end
